-- ==== Sys2Proof/Word.lean ====
section
/-! DEFINITION. The value types of 00_scope.md rule R15: bytes, 16-bit unsigned values, byte sequences. -/

namespace Sys2Proof

/-- `Byte`, 0 to 255 (rule R15). -/
abbrev Byte := BitVec 8

/-- `U16`, 0 to 65535 (rule R15): register addresses, counts, values and checksum codes. -/
abbrev U16 := BitVec 16

/-- `Bytes`, a finite sequence of bytes, first on the wire first (rules R13, R15). -/
abbrev Bytes := List Byte

/-- One byte of the serial channel with its time: a received byte and the instant it has completely
arrived (`RxEvent(t, b)`), or a sent byte and the instant it starts (rule R66). -/
structure TimedByte where
  time : Nat
  byte : Byte
  deriving DecidableEq, Repr

end Sys2Proof
end

