-- ==== Sys2Proof/Config.lean ====
section
/-! DEFINITION. The constants and the kinds of open parameter of 00_scope.md rule R9, and the free values. The parameters
themselves are fields of the state (`Params`, `HostSide`), so that every statement ranges over all their values. -/

namespace Sys2Proof.Config

/-- `CRC_POLY`, right-shift form (R9, R139). -/
def crcPoly : U16 := 0xA001#16
/-- `CRC_INIT` (R9, R21). -/
def crcInit : U16 := 0xFFFF#16
/-- `SHIFTS_PER_BYTE` (R9, R22). -/
def shiftsPerByte : Nat := 8
/-- `MIN_FRAME`, in bytes (R9, R172). -/
def minFrame : Nat := 4
/-- `MAX_FRAME`, in bytes (R9, R172). -/
def maxFrame : Nat := 256
/-- `RX_CAP`, capacity of the receive capture buffer (R9, R25). -/
def rxCap : Nat := 257
/-- `ADDR_MIN` and `ADDR_MAX`, the legal slave addresses of a Request (R9, R64). -/
def addrMin : Nat := 1
/-- See `addrMin`. -/
def addrMax : Nat := 247
/-- `N_RHR_MAX`, the largest register count of a read (R9, R10). -/
def rhrMax : Nat := 125
/-- `N_WMR_MAX`, the largest register count of a multiple write (R9, R10). -/
def wmrMax : Nat := 123
/-- `FC_RHR`, read holding registers (R9, R92, R96). -/
def fcRhr : Byte := 0x03#8
/-- `FC_WSR`, write single register (R9, R93, R97). -/
def fcWsr : Byte := 0x06#8
/-- `FC_WMR`, write multiple registers (R9, R94, R98). -/
def fcWmr : Byte := 0x10#8
/-- Default of `MAX_ATTEMPTS`, the first attempt included (R9, R253). -/
def defaultAttempts : PNat := 3

/-- The free value for the raw integer of a physical value under a scale factor of 0, which the spec divides by and
gives no result for (44_host_master.md R263; notes/assumptions/17). No body: nothing is known of it. -/
opaque freeRaw : Rat → Int

/-- The free value for a physical value in a float format, the `n`th of those the spec does not give (R265;
notes/assumptions/17). No body: nothing is known of it. -/
opaque floatValue : Nat → Rat → Rat

end Sys2Proof.Config

namespace Sys2Proof

/-- What happens to bytes that arrive outside `AwaitingResponse` (R9, R216). -/
inductive StaleRx
  | discard
  | track
  deriving DecidableEq, Repr

/-- Where character time and silence come from (R12): computed from the configured baud rate at a given tick
resolution, a positive integer (92_eei_decisions.md, open parameters), or given directly, each at least 1. -/
inductive CharTiming
  | formula (ticksPerSecond : PNat)
  | direct (tChar t35 : PNat)
  deriving DecidableEq, Repr

/-- The open parameters of the block itself (R9). -/
structure Params where
  timing  : CharTiming
  staleRx : StaleRx
  deriving DecidableEq, Repr

/-- How a scaled value exactly between two register values is rounded: left open by R265. -/
inductive TieRule
  | awayFromZero
  | towardZero
  | toEven
  | up
  | down
  deriving DecidableEq, Repr

/-- Which register of a two-register value is sent first: left open by R265. -/
inductive WordOrder
  | highFirst
  | lowFirst
  deriving DecidableEq, Repr

/-- The float format of a physical value: left open by R265. The exact rational, or a format by number, of which
nothing is known. -/
inductive FloatFormat
  | exact
  | format (n : Nat)
  deriving DecidableEq, Repr

/-- The Register Mapper's four open points (R265). -/
structure MapperParams where
  signed : Bool
  ties   : TieRule
  order  : WordOrder
  float  : FloatFormat
  deriving DecidableEq, Repr

end Sys2Proof
end

