-- ==== Sys2Proof/Machine/Bits.lean ====
section
/-! DEFINITION. Slices and byte order (00_scope.md rule R13; 20_memory.md rules R67, R68; 30_encoding.md rules R101,
R102): the halves of a 16-bit value, its two assemblies from bytes, and field access by byte offset. -/

namespace Sys2Proof

/-- `v[15:8]` (R13). -/
def hiByte (v : U16) : Byte := v.extractLsb' 8 8

/-- `v[7:0]` (R13). -/
def loByte (v : U16) : Byte := v.extractLsb' 0 8

/-- `{hi, lo} = hi * 256 + lo` (R13). -/
def pairWord (hi lo : Byte) : U16 := hi ++ lo

/-- `MemRead` of a byte sequence held as a value: byte `i`, counting from 0. No rule generates an index at or
above the length (R113); every caller has checked the length first. -/
def byteAt (buf : Bytes) (i : Nat) : Byte := buf.getD i 0#8

/-- A 16-bit payload field at byte offset `o`, high byte first (R68, R101). -/
def wordAt (buf : Bytes) (o : Nat) : U16 := pairWord (byteAt buf o) (byteAt buf (o + 1))

/-- `n` consecutive 16-bit payload fields from byte offset `o` (R96, R101). -/
def wordsAt (buf : Bytes) : Nat → Nat → List U16
  | _, 0 => []
  | o, n + 1 => wordAt buf o :: wordsAt buf (o + 2) n

/-- The bytes of a sequence of 16-bit payload fields, each high byte first, in index order (R68, R153). -/
def wordBytes : List U16 → Bytes
  | [] => []
  | v :: vs => hiByte v :: loByte v :: wordBytes vs

end Sys2Proof
end

