-- ==== Sys2Proof/Machine/Checksum.lean ====
section
/-! DEFINITION. The Checksum Engine's arithmetic (40_crc.md rules R130 to R140): the accumulator with its shift
counter, one shift, one absorbed byte, the code of a span, the trailing code of a buffer. -/

namespace Sys2Proof

/-- The engine's registers: the accumulator (R21) and the shift counter (R22). -/
structure Engine where
  crc : U16
  k   : Nat
  deriving DecidableEq, Repr

/-- `shift1` of R136: bit 0 is tested before the shift, the constant is applied after it (R132). -/
def shift1 (c : U16) : U16 :=
  if c.getLsbD 0 then (c >>> 1) ^^^ Config.crcPoly else c >>> 1

/-- One turn of the loop of R132, counted in `k`. -/
def engineShift (e : Engine) : Engine := { crc := shift1 e.crc, k := e.k + 1 }

/-- `n` turns of the loop. -/
def engineShifts : Nat → Engine → Engine
  | 0, e => e
  | n + 1, e => engineShifts n (engineShift e)

/-- `CRC.INIT` on the engine (R131). -/
def engineInit : Engine := { crc := Config.crcInit, k := 0 }

/-- `CRC.ABSORB b` on the engine (R132): the byte is exclusive-ored into the low half, eight shifts follow, and
the counter returns to 0. -/
def engineAbsorb (e : Engine) (b : Byte) : Engine :=
  { engineShifts Config.shiftsPerByte { crc := e.crc ^^^ b.setWidth 16, k := 0 } with k := 0 }

/-- The engine after `CRC.INIT` and the absorption of a span in index order (R134). -/
def engineRun (span : Bytes) : Engine := span.foldl engineAbsorb engineInit

/-- `compute(span)`, the 16-bit code (R134, R136). -/
def crcOf (span : Bytes) : U16 := (engineRun span).crc

/-- The two checksum bytes of a code, low byte first (R67). -/
def codeBytes (c : U16) : Bytes := [loByte c, hiByte c]

/-- A body followed by its checksum (R90, R154). -/
def withChecksum (body : Bytes) : Bytes := body ++ codeBytes (crcOf body)

/-- All bytes of a buffer but the last two (R135, R173). -/
def spanOf (buf : Bytes) : Bytes := buf.take (buf.length - 2)

/-- The trailing code of a buffer, read low byte first: `{buf[n-1], buf[n-2]}` (R67, R102, R135). -/
def trailingCode (buf : Bytes) : U16 :=
  pairWord (byteAt buf (buf.length - 1)) (byteAt buf (buf.length - 2))

/-- The code recomputed over all bytes but the last two equals the trailing code (R135, R173). -/
def checksumGood (buf : Bytes) : Bool := crcOf (spanOf buf) == trailingCode buf

end Sys2Proof
end

