-- ==== Sys2Proof/Syntax.lean ====
section
/-! DEFINITION. The instructions: one constructor per row of spec/opcode_table.json (7 wire frames, 12 commands;
30_encoding.md rules R92 to R99 and R120), their operand forms, and the typed values of 00_scope.md rule R15. -/

namespace Sys2Proof

/-- Parity option (R31). -/
inductive Parity
  | none
  | even
  | odd
  deriving DecidableEq, Repr

/-- A `Bytes` operand: given literally, or naming the valid bytes of a buffer, `txbuf[0 .. txlen-1]` or
`rxbuf[0 .. rxlen-1]` (R24, R25, R170, R203; notes/assumptions/15). -/
inductive Operand
  | lit (bs : Bytes)
  | txbuf
  | rxbuf
  deriving DecidableEq, Repr

/-- The timeout operand of `SES.XCHG`: a number of ticks, or the configured default `cfg.timeout` (R33, R203). -/
inductive TimeoutArg
  | ticks (n : Nat)
  | cfgTimeout
  deriving DecidableEq, Repr

/-- A Request (R15). -/
inductive Request
  | rhr (addr : Byte) (start count : U16)
  | wsr (addr : Byte) (reg value : U16)
  | wmr (addr : Byte) (start : U16) (values : List U16)
  deriving DecidableEq, Repr

/-- A Response (R15). -/
inductive Response
  | rhr (addr : Byte) (values : List U16)
  | wsr (addr : Byte) (reg value : U16)
  | wmr (addr : Byte) (start count : U16)
  deriving DecidableEq, Repr

/-- A FrameError (R15); a protocol exception also keeps the responder's address and flagged function code, as
R178 allows (notes/assumptions/14). -/
inductive FrameError
  | checksumMismatch
  | malformedFrame
  | protocolException (addr fc code : Byte)
  deriving DecidableEq, Repr

/-- A TransportError (R15). -/
inductive TransportError
  | noResponse
  | truncatedResponse (captured : Bytes)
  deriving DecidableEq, Repr

/-- The instructions of the block, one constructor per row of the opcode table. The wire rows carry a frame's
fields without its checksum, which those fields determine (R90). -/
inductive Instr
  | reqRhr (addr : Byte) (start count : U16)
  | reqWsr (addr : Byte) (reg value : U16)
  | reqWmr (addr : Byte) (start : U16) (values : List U16)
  | rspExc (addr fc code : Byte)
  | rspRhr (addr : Byte) (values : List U16)
  | rspWsr (addr : Byte) (reg value : U16)
  | rspWmr (addr : Byte) (start count : U16)
  | crcInit
  | crcAbsorb (b : Byte)
  | crcRead
  | crcCompute (span : Operand)
  | crcValidate (buf : Operand)
  | encRhr (addr : Byte) (start count : U16)
  | encWsr (addr : Byte) (reg value : U16)
  | encWmr (addr : Byte) (start : U16) (values : List U16)
  | dec (buf : Operand) (nExp : Option Nat)
  | sesOpen (baud : Nat) (parity : Parity) (stop timeout : Nat)
  | sesClose
  | sesXchg (frame : Operand) (timeout : TimeoutArg)
  deriving DecidableEq, Repr

end Sys2Proof
end

