-- ==== Sys2Proof/Machine/Frame.lean ====
section
/-! DEFINITION. The Frame Codec as functions on byte sequences: the frame formats of 30_encoding.md rules R92 to R99,
the decoder's checks and arms in the order of 42_decode.md rules R171 to R179, and the reading back of a request
frame's fields at the offsets of its format (41_encode.md rule R156). -/

namespace Sys2Proof

/-- The bytes the encoder puts before the checksum (R151 to R153; formats R92 to R94). -/
def requestBody : Request → Bytes
  | .rhr addr start count =>
      [addr, Config.fcRhr, hiByte start, loByte start, hiByte count, loByte count]
  | .wsr addr reg value =>
      [addr, Config.fcWsr, hiByte reg, loByte reg, hiByte value, loByte value]
  | .wmr addr start values =>
      [addr, Config.fcWmr, hiByte start, loByte start, 0x00#8, BitVec.ofNat 8 values.length,
        BitVec.ofNat 8 (2 * values.length)] ++ wordBytes values

/-- The whole request frame (R90, R154). -/
def requestFrame (q : Request) : Bytes := withChecksum (requestBody q)

/-- The bytes of a response before the checksum (R96 to R98). -/
def responseBody : Response → Bytes
  | .rhr addr values => [addr, Config.fcRhr, BitVec.ofNat 8 (2 * values.length)] ++ wordBytes values
  | .wsr addr reg value =>
      [addr, Config.fcWsr, hiByte reg, loByte reg, hiByte value, loByte value]
  | .wmr addr start count =>
      [addr, Config.fcWmr, hiByte start, loByte start, hiByte count, loByte count]

/-- The whole response frame (R90, R96 to R98). -/
def responseFrame (r : Response) : Bytes := withChecksum (responseBody r)

/-- An exception response (R99). -/
def exceptionFrame (addr fc code : Byte) : Bytes := withChecksum [addr, fc, code]

/-- The length check of R172. -/
def frameLengthOk (n : Nat) : Bool := Config.minFrame ≤ n && n ≤ Config.maxFrame

/-- Exception arm `DEC.EXC` (R174, R178). -/
def decodeExc (buf : Bytes) : Except FrameError Response :=
  if buf.length - 4 ≠ 1 then .error .malformedFrame
  else .error (.protocolException (byteAt buf 0) (byteAt buf 1) (byteAt buf 2))

/-- The three internal checks of R175 and the expected count, in the rule's order. -/
def readShapeOk (buf : Bytes) (nExp : Option Nat) : Bool :=
  let p := buf.length - 4
  let bc := (byteAt buf 2).toNat
  if p < 1 then false
  else if bc ≠ p - 1 then false
  else if bc = 0 || (byteAt buf 2).getLsbD 0 then false
  else match nExp with
    | none => true
    | some n => bc / 2 == n

/-- Read arm `DEC.RHR` (R175). -/
def decodeRhr (buf : Bytes) (nExp : Option Nat) : Except FrameError Response :=
  if readShapeOk buf nExp then
    .ok (.rhr (byteAt buf 0) (wordsAt buf 3 ((byteAt buf 2).toNat / 2)))
  else .error .malformedFrame

/-- Single-write arm `DEC.WSR` (R176). -/
def decodeWsr (buf : Bytes) : Except FrameError Response :=
  if buf.length ≠ 8 then .error .malformedFrame
  else .ok (.wsr (byteAt buf 0) (wordAt buf 2) (wordAt buf 4))

/-- Multiple-write arm `DEC.WMR` (R177). -/
def decodeWmr (buf : Bytes) : Except FrameError Response :=
  if buf.length ≠ 8 then .error .malformedFrame
  else .ok (.wmr (byteAt buf 0) (wordAt buf 2) (wordAt buf 4))

/-- The map of the function code (R105; R171 steps 3 and 4): the exception flag first, then the three function
codes, everything else malformed (R106, R179). -/
def decodeArm (buf : Bytes) (nExp : Option Nat) : Except FrameError Response :=
  if (byteAt buf 1).getLsbD 7 then decodeExc buf
  else if byteAt buf 1 = Config.fcRhr then decodeRhr buf nExp
  else if byteAt buf 1 = Config.fcWsr then decodeWsr buf
  else if byteAt buf 1 = Config.fcWmr then decodeWmr buf
  else .error .malformedFrame

/-- `decode` (R170) in the normative order of R171: length, checksum, exception flag, function code. -/
def decodeFrame (buf : Bytes) (nExp : Option Nat) : Except FrameError Response :=
  if !frameLengthOk buf.length then .error .malformedFrame
  else if !checksumGood buf then .error .checksumMismatch
  else decodeArm buf nExp

/-- The Request a request frame carries, read back at the offsets of R92 to R94; none when the bytes are no such
frame. The block itself never decodes requests (R91): this is how the model reads a frame on its request channel
(notes/assumptions/23). -/
def parseRequest (buf : Bytes) : Option Request :=
  if !frameLengthOk buf.length || !checksumGood buf then none
  else if byteAt buf 1 = Config.fcRhr then
    if buf.length = 8 then some (.rhr (byteAt buf 0) (wordAt buf 2) (wordAt buf 4)) else none
  else if byteAt buf 1 = Config.fcWsr then
    if buf.length = 8 then some (.wsr (byteAt buf 0) (wordAt buf 2) (wordAt buf 4)) else none
  else if byteAt buf 1 = Config.fcWmr then
    if buf.length = 9 + 2 * (wordAt buf 4).toNat && (byteAt buf 6).toNat == 2 * (wordAt buf 4).toNat then
      some (.wmr (byteAt buf 0) (wordAt buf 2) (wordsAt buf 7 (wordAt buf 4).toNat))
    else none
  else none

end Sys2Proof
end

