-- ==== Sys2Proof/WellFormed.lean ====
section
/-! DEFINITION. The operand conditions the spec puts on each instruction, as decidable checks on the raw term
(41_encode.md rule R155; 30_encoding.md rules R94, R96, R99, R120; 40_crc.md rule R138; 43_session.md rules R201,
R203). What depends on the state (the length of a named buffer, the handle, the lock) is checked when it runs. -/

namespace Sys2Proof

/-- A slave address a Request may carry (R64, R155). -/
def addrOk (addr : Byte) : Bool := Config.addrMin ≤ addr.toNat && addr.toNat ≤ Config.addrMax

/-- A register count a read may carry (R10, R155). -/
def readCountOk (n : Nat) : Bool := 1 ≤ n && n ≤ Config.rhrMax

/-- A register count a multiple write may carry (R10, R155). -/
def writeCountOk (n : Nat) : Bool := 1 ≤ n && n ≤ Config.wmrMax

/-- The well-formedness of a Request, the two conditions of R155 and nothing else. -/
def Request.wf : Request → Bool
  | .rhr addr _ count => addrOk addr && readCountOk count.toNat
  | .wsr addr _ _ => addrOk addr
  | .wmr addr _ values => addrOk addr && writeCountOk values.length

/-- The length of a `Bytes` operand lies within bounds; a named buffer is checked when the command runs. -/
def Operand.lenOk (lo hi : Nat) : Operand → Bool
  | .lit bs => lo ≤ bs.length && bs.length ≤ hi
  | .txbuf => true
  | .rxbuf => true

/-- A literal `Bytes` operand has at least `lo` bytes. -/
def Operand.lenAtLeast (lo : Nat) : Operand → Bool
  | .lit bs => lo ≤ bs.length
  | .txbuf => true
  | .rxbuf => true

/-- The expected register count of `DEC`: none, or 1 to 125 (R120, R170). -/
def expectedOk : Option Nat → Bool
  | none => true
  | some n => readCountOk n

/-- The operand conditions of an instruction. -/
def Instr.wf : Instr → Bool
  | .reqRhr addr start count => Request.wf (.rhr addr start count)
  | .reqWsr addr reg value => Request.wf (.wsr addr reg value)
  | .reqWmr addr start values => Request.wf (.wmr addr start values)
  | .rspExc _ fc _ => fc.getLsbD 7
  | .rspRhr _ values => readCountOk values.length
  | .rspWsr _ _ _ => true
  | .rspWmr _ _ _ => true
  | .crcInit => true
  | .crcAbsorb _ => true
  | .crcRead => true
  | .crcCompute span => span.lenAtLeast 1
  | .crcValidate buf => buf.lenAtLeast 3
  | .encRhr addr start count => Request.wf (.rhr addr start count)
  | .encWsr addr reg value => Request.wf (.wsr addr reg value)
  | .encWmr addr start values => Request.wf (.wmr addr start values)
  | .dec _ nExp => expectedOk nExp
  | .sesOpen baud _ _ _ => 1 ≤ baud
  | .sesClose => true
  | .sesXchg frame _ => frame.lenOk 1 Config.maxFrame

end Sys2Proof
end

