-- ==== Sys2Proof/Decode.lean ====
section
/-! DEFINITION. From bytes to instructions and back. There are three channels (notes/assumptions/2): the command port,
whose first byte is a command code of 30_encoding.md rule R120 and whose operand layout is the model's; request
frames and response frames, whose layout is that of rules R92 to R99. The decoder is total and rejects by name. -/

namespace Sys2Proof

/-- Which encoding a run of bytes is in: a block command, a request frame or a response frame. A function code
does not say which (R91), so the channel does. -/
inductive Channel
  | cmd
  | req
  | rsp
  deriving DecidableEq, Repr

/-- Why bytes are no instruction. -/
inductive DecodeError
  /-- No bytes at all on the command port. -/
  | noCommand
  /-- The command code is not one of R120. -/
  | unassignedCommand
  /-- The bytes end before the last operand does. -/
  | missingOperand
  /-- An operand byte outside its type: a parity, an operand kind, an expected count. -/
  | badOperand
  /-- Bytes remain after the last operand. -/
  | trailingBytes
  /-- Bytes on the request channel that are no request frame. -/
  | notARequest
  /-- Bytes on the response channel that the decoder classifies as an error (R171). -/
  | frame (e : FrameError)
  deriving DecidableEq, Repr

/-- What one reader of the operand layout gives: the operand and the bytes after it, or a rejection. -/
abbrev Reading (α : Type) := Except DecodeError (α × Bytes)

/-- The same reading with its operand turned into another value. -/
def readMap {α β : Type} (f : α → β) : Reading α → Reading β
  | .ok (a, rest) => .ok (f a, rest)
  | .error e => .error e

/-- One reading, then another on the bytes it leaves. -/
def readThen {α β : Type} (r : Reading α) (f : α → Bytes → Reading β) : Reading β :=
  match r with
  | .ok (a, rest) => f a rest
  | .error e => .error e

/-- A Byte operand. -/
def readByte : Bytes → Reading Byte
  | [] => .error .missingOperand
  | b :: rest => .ok (b, rest)

/-- A U16 operand, high byte first as everywhere but in the checksum (R68). -/
def readU16 : Bytes → Reading U16
  | hi :: lo :: rest => .ok (pairWord hi lo, rest)
  | _ => .error .missingOperand

/-- A natural-number operand: seven bits a byte, least significant group first, bit 7 set on every byte but the
last. -/
def readNat : Bytes → Reading Nat
  | [] => .error .missingOperand
  | b :: rest =>
    if b.toNat < 128 then .ok (b.toNat, rest)
    else readMap (fun n => b.toNat - 128 + 128 * n) (readNat rest)

/-- `n` bytes. -/
def readBytes : Nat → Bytes → Reading Bytes
  | 0, bs => .ok ([], bs)
  | _ + 1, [] => .error .missingOperand
  | n + 1, b :: rest => readMap (b :: ·) (readBytes n rest)

/-- `n` 16-bit values. -/
def readU16s : Nat → Bytes → Reading (List U16)
  | 0, bs => .ok ([], bs)
  | n + 1, hi :: lo :: rest => readMap (pairWord hi lo :: ·) (readU16s n rest)
  | _ + 1, _ => .error .missingOperand

/-- A parity operand. -/
def readParity (bs : Bytes) : Reading Parity :=
  readThen (readByte bs) fun b rest =>
    if b = 0#8 then .ok (.none, rest)
    else if b = 1#8 then .ok (.even, rest)
    else if b = 2#8 then .ok (.odd, rest)
    else .error .badOperand

/-- A `Bytes` operand: its kind, and for a literal its length and bytes. -/
def readOperand (bs : Bytes) : Reading Operand :=
  readThen (readByte bs) fun b rest =>
    if b = 0#8 then readThen (readNat rest) fun n rest' => readMap .lit (readBytes n rest')
    else if b = 1#8 then .ok (.txbuf, rest)
    else if b = 2#8 then .ok (.rxbuf, rest)
    else .error .badOperand

/-- A timeout operand: its kind, and for a number its ticks. -/
def readTimeout (bs : Bytes) : Reading TimeoutArg :=
  readThen (readByte bs) fun b rest =>
    if b = 0#8 then readMap .ticks (readNat rest)
    else if b = 1#8 then .ok (.cfgTimeout, rest)
    else .error .badOperand

/-- The expected count of `DEC`: 0 for none, else 1 to 125 (R120, R170). -/
def readExpected (bs : Bytes) : Reading (Option Nat) :=
  readThen (readByte bs) fun b rest =>
    if b = 0#8 then .ok (none, rest)
    else if b.toNat ≤ Config.rhrMax then .ok (some b.toNat, rest)
    else .error .badOperand

/-- A sequence of U16: its length and its values. -/
def readValues (bs : Bytes) : Reading (List U16) :=
  readThen (readNat bs) readU16s

/-- The operands that follow an address and one 16-bit value. -/
def readAddrWord (bs : Bytes) : Reading (Byte × U16) :=
  readThen (readByte bs) fun addr rest => readMap (fun w => (addr, w)) (readU16 rest)

/-- The command a code selects, with its operands in the order of its rule (R120): the instruction and the bytes
after it. -/
def readCommand (code : Byte) (bs : Bytes) : Reading Instr :=
  if code = 0x01#8 then .ok (.crcInit, bs)
  else if code = 0x02#8 then readMap .crcAbsorb (readByte bs)
  else if code = 0x03#8 then .ok (.crcRead, bs)
  else if code = 0x04#8 then readMap .crcCompute (readOperand bs)
  else if code = 0x05#8 then readMap .crcValidate (readOperand bs)
  else if code = 0x10#8 then
    readThen (readAddrWord bs) fun a rest => readMap (.encRhr a.1 a.2) (readU16 rest)
  else if code = 0x11#8 then
    readThen (readAddrWord bs) fun a rest => readMap (.encWsr a.1 a.2) (readU16 rest)
  else if code = 0x12#8 then
    readThen (readAddrWord bs) fun a rest => readMap (.encWmr a.1 a.2) (readValues rest)
  else if code = 0x18#8 then
    readThen (readOperand bs) fun buf rest => readMap (.dec buf) (readExpected rest)
  else if code = 0x20#8 then
    readThen (readNat bs) fun baud r1 =>
      readThen (readParity r1) fun parity r2 =>
        readThen (readNat r2) fun stop r3 => readMap (.sesOpen baud parity stop) (readNat r3)
  else if code = 0x21#8 then .ok (.sesClose, bs)
  else if code = 0x22#8 then
    readThen (readOperand bs) fun frame rest => readMap (.sesXchg frame) (readTimeout rest)
  else .error .unassignedCommand

/-- The first command of a run of bytes, and the bytes after it. -/
def readFirst : Bytes → Reading Instr
  | [] => .error .noCommand
  | code :: rest => readCommand code rest

/-- The instruction a Request is on the request channel. -/
def requestInstr : Request → Instr
  | .rhr addr start count => .reqRhr addr start count
  | .wsr addr reg value => .reqWsr addr reg value
  | .wmr addr start values => .reqWmr addr start values

/-- The instruction a Response is on the response channel. -/
def responseInstr : Response → Instr
  | .rhr addr values => .rspRhr addr values
  | .wsr addr reg value => .rspWsr addr reg value
  | .wmr addr start count => .rspWmr addr start count

/-- The decoder. A command takes all its bytes; a request frame is read back at the offsets of its format; a
response frame goes through the block's own decoder, whose exception result is an instruction of its own. -/
def decode : Channel → Bytes → Except DecodeError Instr
  | .cmd, bs =>
    match readFirst bs with
    | .ok (i, []) => .ok i
    | .ok (_, _ :: _) => .error .trailingBytes
    | .error e => .error e
  | .req, bs =>
    match parseRequest bs with
    | some q => .ok (requestInstr q)
    | none => .error .notARequest
  | .rsp, bs =>
    match decodeFrame bs none with
    | .ok r => .ok (responseInstr r)
    | .error (.protocolException addr fc code) => .ok (.rspExc addr fc code)
    | .error e => .error (.frame e)

/-! ## The encoder -/

/-- A U16 operand, high byte first. -/
def writeU16 (v : U16) : Bytes := [hiByte v, loByte v]

/-- A natural number in at most `fuel + 1` groups of seven bits. -/
def writeNatFuel : Nat → Nat → Bytes
  | 0, n => [BitVec.ofNat 8 n]
  | fuel + 1, n =>
    if n < 128 then [BitVec.ofNat 8 n]
    else BitVec.ofNat 8 (128 + n % 128) :: writeNatFuel fuel (n / 128)

/-- A natural-number operand (a number never has more groups than its own value). -/
def writeNat (n : Nat) : Bytes := writeNatFuel n n

/-- A parity operand. -/
def writeParity : Parity → Bytes
  | .none => [0#8]
  | .even => [1#8]
  | .odd => [2#8]

/-- A `Bytes` operand. -/
def writeOperand : Operand → Bytes
  | .lit bs => 0#8 :: (writeNat bs.length ++ bs)
  | .txbuf => [1#8]
  | .rxbuf => [2#8]

/-- A timeout operand. -/
def writeTimeout : TimeoutArg → Bytes
  | .ticks n => 0#8 :: writeNat n
  | .cfgTimeout => [1#8]

/-- An expected count. -/
def writeExpected : Option Nat → Bytes
  | none => [0#8]
  | some n => [BitVec.ofNat 8 n]

/-- The channel and the bytes of an instruction: for a command its code (R120) and operands, for a wire row its
frame (R92 to R99). -/
def encode : Instr → Channel × Bytes
  | .reqRhr addr start count => (.req, requestFrame (.rhr addr start count))
  | .reqWsr addr reg value => (.req, requestFrame (.wsr addr reg value))
  | .reqWmr addr start values => (.req, requestFrame (.wmr addr start values))
  | .rspExc addr fc code => (.rsp, exceptionFrame addr fc code)
  | .rspRhr addr values => (.rsp, responseFrame (.rhr addr values))
  | .rspWsr addr reg value => (.rsp, responseFrame (.wsr addr reg value))
  | .rspWmr addr start count => (.rsp, responseFrame (.wmr addr start count))
  | .crcInit => (.cmd, [0x01#8])
  | .crcAbsorb b => (.cmd, [0x02#8, b])
  | .crcRead => (.cmd, [0x03#8])
  | .crcCompute span => (.cmd, 0x04#8 :: writeOperand span)
  | .crcValidate buf => (.cmd, 0x05#8 :: writeOperand buf)
  | .encRhr addr start count => (.cmd, 0x10#8 :: addr :: (writeU16 start ++ writeU16 count))
  | .encWsr addr reg value => (.cmd, 0x11#8 :: addr :: (writeU16 reg ++ writeU16 value))
  | .encWmr addr start values =>
      (.cmd, 0x12#8 :: addr :: (writeU16 start ++ (writeNat values.length ++ wordBytes values)))
  | .dec buf nExp => (.cmd, 0x18#8 :: (writeOperand buf ++ writeExpected nExp))
  | .sesOpen baud parity stop timeout =>
      (.cmd, 0x20#8 :: (writeNat baud ++ (writeParity parity ++ (writeNat stop ++ writeNat timeout))))
  | .sesClose => (.cmd, [0x21#8])
  | .sesXchg frame timeout => (.cmd, 0x22#8 :: (writeOperand frame ++ writeTimeout timeout))

/-! ## The opcode table's words (30_encoding.md rule R122) -/

/-- The command of a table word: its first byte is the command code, its other bytes and all bytes above it are
operand bytes, zero where the table gives none. The bytes the command does not take are left off. -/
def tableCommand (nbits w : Nat) : Option Bytes :=
  let bs := (List.range (nbits / 8)).map fun j => BitVec.ofNat 8 (w >>> (8 * j))
  let padded := bs ++ List.replicate 16 0#8
  match readFirst padded with
  | .ok (_, rest) => some (padded.take (padded.length - rest.length))
  | .error _ => none

/-- The request frame of a table word, whose low byte is the function code (R122): zero address and payload, with
the checksum that goes with them (R90). -/
def tableRequest (w : Nat) : Bytes :=
  withChecksum [0#8, BitVec.ofNat 8 w, 0#8, 0#8, 0#8, 0#8]

/-- The response frame of a table word: an exception frame when bit 7 is set (R99), else zero payload. -/
def tableResponse (w : Nat) : Bytes :=
  if (BitVec.ofNat 8 w).getLsbD 7 then withChecksum [0#8, BitVec.ofNat 8 w, 0#8]
  else withChecksum [0#8, BitVec.ofNat 8 w, 0#8, 0#8, 0#8, 0#8]

/-- Whether bytes on a channel decode. -/
def decodes (c : Channel × Bytes) : Bool :=
  match decode c.1 c.2 with
  | .ok _ => true
  | .error _ => false

/-- The first of several candidates that decodes; the last one if none does. -/
def firstThatDecodes (last : Channel × Bytes) : List (Channel × Bytes) → Channel × Bytes
  | [] => last
  | c :: cs => if decodes c then c else firstThatDecodes last cs

/-- The channel and bytes a table word stands for. The table gives wire rows and commands the same words (R122:
a function code or a command code in bits 7..0), so a word of one byte is tried as a command first and a longer
one, which the table has for wire rows only, as a frame first (notes/assumptions/4). -/
def tableItem (nbits w : Nat) : Channel × Bytes :=
  let command := match tableCommand nbits w with
    | some bs => [(Channel.cmd, bs)]
    | none => []
  let frames := [(Channel.req, tableRequest w), (Channel.rsp, tableResponse w)]
  let plain := (List.range (nbits / 8)).map fun j => BitVec.ofNat 8 (w >>> (8 * j))
  firstThatDecodes (.cmd, plain) (if nbits ≤ 8 then command ++ frames else frames ++ command)

/-- The instruction the decoder reads from a table word; none where it refuses. -/
def decodeTableWord (nbits w : Nat) : Option Instr :=
  match decode (tableItem nbits w).1 (tableItem nbits w).2 with
  | .ok i => some i
  | .error _ => none

end Sys2Proof
end

