-- ==== Sys2Proof/Machine/State.lean ====
section
/-! DEFINITION. The machine's state as plain data: the tuple of 10_state.md rule R20, what rule R42 calls "holds no
value until written", the environment the block sees (now, the line, the command port, the transmit stream), and the
host layer of 44_host_master.md. Its value after power-on reset (R41, R321). -/

namespace Sys2Proof.Machine

/-- A byte buffer: (index, byte) pairs, indices strictly rising; an index that is not listed holds no value
(R42, R61). -/
abbrev Memory := List Host.Cell

/-- The session state machine register (R28). -/
inductive Fsm
  | idle
  | transmitting
  | awaitingResponse
  | complete
  | timedOut
  deriving DecidableEq, Repr

/-- The serial handle (R29): Closed or Open. -/
inductive Handle
  | closed
  | opened
  deriving DecidableEq, Repr

/-- The session's configuration (R30 to R33). -/
structure SerialCfg where
  baud    : PNat
  parity  : Parity
  stop    : Nat
  timeout : Nat
  deriving DecidableEq, Repr

/-- The result register (R27): the typed result of the last command that produced one. -/
inductive Result
  /-- `CRC.READ`, `CRC.COMPUTE`. -/
  | code (c : U16)
  /-- `CRC.VALIDATE`. -/
  | bool (b : Bool)
  /-- `ENC.*`: the frame length. -/
  | length (n : Nat)
  /-- `DEC`. -/
  | response (r : Response)
  /-- `DEC`. -/
  | frameError (e : FrameError)
  /-- `SES.XCHG`, complete. -/
  | bytes (bs : Bytes)
  /-- `SES.XCHG`, timed out. -/
  | transportError (e : TransportError)
  deriving DecidableEq, Repr

/-- Which of the state that has no value after reset has been written since (R41, R42). -/
structure Written where
  val    : Bool
  cfg    : Bool
  tLast  : Bool
  timers : Bool
  rxbuf  : Bool
  res    : Bool
  deriving DecidableEq, Repr

/-- One command the host issues: when, on which channel, in which bytes (R8, R18). -/
structure PortItem where
  time    : Nat
  channel : Channel
  bytes   : Bytes
  deriving DecidableEq, Repr

/-- The controller variants (R262). -/
inductive Variant
  | f4
  | w93
  deriving DecidableEq, Repr

/-- Data width of a register map entry: 1 or 2 registers (R261). -/
inductive Width
  | one
  | two
  deriving DecidableEq, Repr

/-- A Register Map Entry (R261); the variant it applies to is the table it stands in (R262). -/
structure MapEntry where
  name    : String
  address : U16
  width   : Width
  scale   : Rat
  deriving DecidableEq, Repr

/-- A domain operation (R251, R252). -/
inductive DomainOp
  | read (variant : Variant) (name : String)
  | write (variant : Variant) (name : String) (phys : Rat)
  deriving DecidableEq, Repr

/-- A queued domain operation: when it arrives, and when its caller abandons it, if it does (R258, R259). -/
structure DomainRequest where
  time      : Nat
  op        : DomainOp
  abandonAt : Option Nat
  deriving DecidableEq, Repr

/-- The retryable results of an attempt, kept as `lastError` (R254, R256). -/
inductive AttemptError
  | noResponse
  | truncatedResponse (captured : Bytes)
  | checksumMismatch
  | malformedFrame
  deriving DecidableEq, Repr

/-- The errors a domain caller sees (R281). -/
inductive DomainError
  | malformedFrame
  | unexpectedEcho
  | unknownRegister
  | outOfRange
  | communicationFailure (attempts : Nat) (lastError : Option AttemptError)
  | deviceRejected (code : Byte)
  deriving DecidableEq, Repr

/-- What a domain operation returns (R251, R252, R260); `abandoned` stands for a result nobody takes (R259). -/
inductive DomainReply
  | value (v : Rat)
  | success
  | error (e : DomainError)
  | abandoned
  deriving DecidableEq, Repr

/-- The host layer: the Modbus Master's and the Register Mapper's configuration, and the queue of domain
operations with what was answered (R251 to R268). DESIGN CHOICE: `requests` is the queue itself, the operation that
arrived first at its head, those of one instant included, and the times of two entries are never compared
(notes/assumptions/33). -/
structure HostSide where
  slaveAddr      : Byte
  tableF4        : List MapEntry
  table93        : List MapEntry
  maxAttempts    : PNat
  backoff        : Nat
  retryMalformed : Bool
  mapper         : MapperParams
  requests       : List DomainRequest
  replies        : List DomainReply
  deriving DecidableEq, Repr

/-- The state of one block instance (R20) with its environment and its host. -/
structure State where
  crc     : U16
  k       : Nat
  val     : Bool
  txbuf   : Memory
  txlen   : Nat
  rxbuf   : Memory
  rxlen   : Nat
  rxOvf   : Bool
  res     : Result
  fsm     : Fsm
  handle  : Handle
  cfg     : SerialCfg
  tLast   : Nat
  retry   : Nat
  tTxend  : Nat
  tAw     : Nat
  tDl     : Nat
  tRx     : Nat
  busy    : Bool
  written : Written
  params  : Params
  now     : Nat
  line    : List TimedByte
  tx      : List TimedByte
  port    : List PortItem
  host    : HostSide
  deriving DecidableEq, Repr

/-- How the machine stops with a fault. -/
inductive Fault
  /-- `NoValue` (R42, R296; 93_implementation_defined.md U8): a command would read state that was never written. Raised
  by `DEC` of `rxbuf` before any exchange, and by the host's own read of `res` or `val` before it is written. Safe: the
  spec gives such a read no meaning. -/
  | noValue
  deriving DecidableEq, Repr

/-- Why a command is given no meaning (R296). A refused command changes no state, transmits nothing and writes no
result. -/
inductive Refusal
  /-- An instruction whose arm has no meaning yet. Safe. -/
  | notModelled (mnemonic : String)
  /-- `EmptySpan` (R138): `CRC.COMPUTE` of an empty span, `CRC.VALIDATE` of fewer than 3 bytes. Safe. -/
  | emptySpan
  /-- `BadSlaveAddress` (R155): a Request whose slave address is 0 or 248 to 255. Safe. -/
  | badSlaveAddress
  /-- `BadCount` (R155): a read of other than 1 to 125 registers, a multiple write of other than 1 to 123. Safe. -/
  | badCount
  /-- `AlreadyOpen` (R201): `SES.OPEN` on an open handle. Safe. -/
  | alreadyOpen
  /-- `BadConfig` (R201): `SES.OPEN` with baud rate 0. Safe. -/
  | badConfig
  /-- `Closed` (R203): `SES.XCHG` on a closed handle. Safe. -/
  | closed
  /-- `Busy` (R202, R203): `SES.XCHG` or `SES.CLOSE` with an exchange in flight. Safe. -/
  | busy
  /-- `BadFrameLength` (R203): `SES.XCHG` of an empty frame or one longer than 256 bytes. Safe. -/
  | badFrameLength
  /-- `UnassignedCommand` (R120, R296): a command code that R120 does not list. Safe. -/
  | unassignedCommand
  /-- Bytes on the command port that are no command code with its operands in the model's layout
  (notes/assumptions/2). Raised by the fetch. Safe. -/
  | badOperands
  /-- Bytes on the request channel that are no request frame (notes/assumptions/23). Raised by the fetch. Safe. -/
  | notARequest
  deriving DecidableEq, Repr

/-- The configuration registers after reset: no value in the spec (R41); the named values of
notes/assumptions/9. -/
def SerialCfg.reset : SerialCfg := { baud := 1, parity := .none, stop := 0, timeout := 0 }

/-- Nothing that has no value after reset has been written (R41, R321). -/
def Written.reset : Written :=
  { val := false, cfg := false, tLast := false, timers := false, rxbuf := false, res := false }

/-- The block's open parameters as the model is started (notes/assumptions/7 and 8). -/
def Params.reset : Params := { timing := .formula 1000, staleRx := .discard }

/-- The host layer as the model is started (notes/assumptions/17 and 18; defaults of R9). -/
def HostSide.reset : HostSide :=
  { slaveAddr := 1#8, tableF4 := [], table93 := [], maxAttempts := Config.defaultAttempts, backoff := 0,
    retryMalformed := false, mapper := { signed := false, ties := .awayFromZero, order := .highFirst, float := .exact },
    requests := [], replies := [] }

/-- Power-on reset (R41, R321). What the spec leaves without a value holds the value of notes/assumptions/9 and its
`written` mark is down. -/
def State.reset : State :=
  { crc := Config.crcInit, k := 0, val := false, txbuf := [], txlen := 0, rxbuf := [], rxlen := 0, rxOvf := false,
    res := .code 0#16, fsm := .idle, handle := .closed, cfg := SerialCfg.reset, tLast := 0, retry := 0, tTxend := 0,
    tAw := 0, tDl := 0, tRx := 0, busy := false, written := Written.reset, params := Params.reset, now := 0,
    line := [], tx := [], port := [], host := HostSide.reset }

end Sys2Proof.Machine
end

