-- ==== Sys2Proof/Machine/Flags.lean ====
section
/-! DEFINITION. The block's one-bit state: `val` of the Checksum Engine (10_state.md rule R23), `rx_ovf` of the capture
buffer (R26) and the session lock `busy` (R37). There is no condition-code register (R20). -/

namespace Sys2Proof.Machine

/-- `CRC.VALIDATE` writes `val`, and nothing else does (R23, R135). -/
def setVal (b : Bool) (s : State) : State := { s with val := b, written := { s.written with val := true } }

/-- A byte arrived with the capture buffer full (R26, R210). -/
def setOverflow (s : State) : State := { s with rxOvf := true }

/-- The lock is taken at the issue of an exchange (R37, R203). -/
def takeLock (s : State) : State := { s with busy := true }

/-- The lock is released on the return to `Idle` (R37, R214, R215). -/
def releaseLock (s : State) : State := { s with busy := false }

/-- `SES.XCHG` is refused `Busy` (R203). -/
def sessionBusy (s : State) : Bool := s.busy || s.fsm != .idle

end Sys2Proof.Machine
end

