-- ==== Sys2Proof/Machine/Ops.lean ====
section
/-! DEFINITION. The named operations over buffers and registers that the meanings share: reading and writing a buffer
byte, delivering a result, raising an error value (60_exceptions.md rules R280, R289), the Checksum Engine on the
state, the encoder's common tail (41_encode.md rule R154), the passing of time with the fate of bytes nobody waits for
(43_session.md rule R216), and the character time (00_scope.md rule R12). -/

namespace Sys2Proof.Machine

/-! ## Buffers -/

/-- `MemRead(buf, i)` (R14, R113); none where the index holds no value (R42). -/
def readMem : Memory → Nat → Option Byte
  | [], _ => none
  | (a, b) :: m, i => if a = i then some b else readMem m i

/-- `MemWrite(buf, i, v)` (R14, R113), keeping the indices strictly rising. -/
def writeMem : Memory → Nat → Byte → Memory
  | [], i, v => [(i, v)]
  | (a, b) :: m, i, v =>
    if i < a then (i, v) :: (a, b) :: m
    else if i = a then (i, v) :: m
    else (a, b) :: writeMem m i v

/-- A run of bytes written from an index up, in index order (R154). -/
def writeRun (m : Memory) (i : Nat) : Bytes → Memory
  | [] => m
  | b :: bs => writeRun (writeMem m i b) (i + 1) bs

/-- A run of `n` bytes read from an index up; none if one of them holds no value (R42). -/
def readRun (m : Memory) (i : Nat) : Nat → Option Bytes
  | 0 => some []
  | n + 1 =>
    match readMem m i, readRun m (i + 1) n with
    | some b, some bs => some (b :: bs)
    | _, _ => none

/-- The indices of a buffer are strictly rising and none lies below a bound. -/
def risingFrom (lo : Nat) : Memory → Bool
  | [] => true
  | (a, _) :: m => decide (lo ≤ a) && risingFrom (a + 1) m

/-- The canonical form of a buffer: indices strictly rising, none at or above the capacity. An unlisted index holds
no value, so no listed byte can equal what an unlisted one reads as. -/
def memoryWf (cap : Nat) (m : Memory) : Bool := risingFrom 0 m && m.all fun c => decide (c.1 < cap)

/-! ## Results and errors -/

/-- A command delivers its result in `res` (R27, R121). -/
def deliver (r : Result) (s : State) : State := { s with res := r, written := { s.written with res := true } }

/-- What a command that classifies bytes delivers: `raise E` ends it with the error value in `res` and no transfer
of control; nothing is saved, because there is no handler (R280, R289). -/
def raiseOrDeliver (r : Except FrameError Response) (s : State) : State :=
  match r with
  | .ok a => deliver (.response a) s
  | .error e => deliver (.frameError e) s

/-- `raise` of a transport error (R215, R280). There is no return from an error: the block is ready for the next
command at once (R290). -/
def raiseTransport (e : TransportError) (s : State) : State := deliver (.transportError e) s

/-- The status code of a result (R282). -/
def statusCode : Result → Nat
  | .frameError .checksumMismatch => 1
  | .frameError .malformedFrame => 2
  | .frameError (.protocolException _ _ _) => 3
  | .transportError .noResponse => 4
  | .transportError (.truncatedResponse _) => 5
  | .code _ => 0
  | .bool _ => 0
  | .length _ => 0
  | .response _ => 0
  | .bytes _ => 0

/-- `res.info[7:0]` of a protocol exception, the exception code (R282, R283). -/
def resultInfo : Result → Option Byte
  | .frameError (.protocolException _ _ code) => some code
  | _ => none

/-- The status code of an attempt's error (R282), the last error's code of a `CommunicationFailure`. -/
def attemptStatus : AttemptError → Nat
  | .checksumMismatch => 1
  | .malformedFrame => 2
  | .noResponse => 4
  | .truncatedResponse _ => 5

/-- The status code of a domain operation's reply (R282). A `MalformedFrame` that reaches the caller keeps its code 2;
an operation given up has nobody to read a status. -/
def replyStatus : DomainReply → Option Nat
  | .value _ => some 0
  | .success => some 0
  | .error .malformedFrame => some 2
  | .error .unexpectedEcho => some 6
  | .error .unknownRegister => some 7
  | .error .outOfRange => some 8
  | .error (.communicationFailure _ _) => some 9
  | .error (.deviceRejected _) => some 10
  | .abandoned => none

/-- `res.info` of a reply (R282): the attempts of a `CommunicationFailure`, the exception code of a `DeviceRejected`. -/
def replyInfo : DomainReply → Option Nat
  | .error (.communicationFailure attempts _) => some attempts
  | .error (.deviceRejected code) => some code.toNat
  | _ => none

/-- The last error's code beside the attempts of a `CommunicationFailure` (R282). -/
def replyLastStatus : DomainReply → Option Nat
  | .error (.communicationFailure _ last) => last.map attemptStatus
  | _ => none

/-- The host reads a register that R41 leaves without a value after reset. The register holds a value in the model, but
before the first write the read has no meaning: "A model treats such a read as a fault of the model, never as zero" (R42,
U8 of 93_implementation_defined.md). -/
def readWritten {α : Type} (mark : Bool) (value : α) : Except Fault α := if mark then .ok value else .error .noValue

/-- The host reads `res`: no meaning "before any command" (R42; the row `NoValue` of R296, "reads of `res`"). -/
def readRes (s : State) : Except Fault Result := readWritten s.written.res s.res

/-- The host reads `val`: no meaning before the first `CRC.VALIDATE` (R23, R41, R42; U8 names `val`). -/
def readVal (s : State) : Except Fault Bool := readWritten s.written.val s.val

/-- One outcome, then a meaning on the state it gives. -/
def andThen {α β : Type} (o : Host.Outcome α Fault Refusal) (f : α → Host.Outcome β Fault Refusal) :
    Host.Outcome β Fault Refusal :=
  match o with
  | .next a => f a
  | .fault e => .fault e
  | .refused r => .refused r

/-! ## The Checksum Engine on the state -/

/-- The engine's two registers as they stand. -/
def engineOf (s : State) : Engine := { crc := s.crc, k := s.k }

/-- The engine's two registers written back. -/
def setEngine (e : Engine) (s : State) : State := { s with crc := e.crc, k := e.k }

/-- The engine run over a span from `CRC_INIT` (R134, R140): afterwards `crc` holds the code of the span. -/
def runEngine (span : Bytes) (s : State) : State := setEngine (engineRun span) s

/-! ## The encoder's common tail -/

/-- `emit(body)` (R154): the body and its checksum go to `txbuf` from index 0, `txlen` and `res` are the length.
Indices at and above `txlen` hold no value afterwards (R61). -/
def emit (body : Bytes) (s : State) : State :=
  let frame := withChecksum body
  deliver (.length frame.length)
    { runEngine body s with txbuf := writeRun [] 0 frame, txlen := frame.length }

/-- The refusal reason of an ill-formed Request, address before count as R151 to R153 check them (R155). -/
def requestRefusal (q : Request) : Option Refusal :=
  match q with
  | .rhr addr _ count =>
    if !addrOk addr then some .badSlaveAddress else if !readCountOk count.toNat then some .badCount else none
  | .wsr addr _ _ => if !addrOk addr then some .badSlaveAddress else none
  | .wmr addr _ values =>
    if !addrOk addr then some .badSlaveAddress else if !writeCountOk values.length then some .badCount else none

/-- A Request goes through the encoder (R150 to R155). -/
def encodeRequest (q : Request) (s : State) : Host.Outcome State Fault Refusal :=
  match requestRefusal q with
  | some r => .refused r
  | none => .next (emit (requestBody q) s)

/-! ## The decoder on the state -/

/-- `DEC` on a byte sequence (R170, R171): the length check comes before any checksum work (R172); once it has
passed, `crc` and `k` are scratch and hold the code of the span (R140, R173). `val` is not written (R23). -/
def decodeBytes (buf : Bytes) (nExp : Option Nat) (s : State) : State :=
  let scratch := if frameLengthOk buf.length then runEngine (spanOf buf) s else s
  raiseOrDeliver (decodeFrame buf nExp) scratch

/-! ## Time, and bytes nobody waits for -/

/-- Time reaches `t`; it never goes back (R38). -/
def reach (t : Nat) (s : State) : State := { s with now := max s.now t }

/-- A byte arrives outside `AwaitingResponse`: it is taken off the line and dropped. With the handle `Open` and
`STALE_RX = track` it moves `t_last`; otherwise it changes no register (R216, R284). -/
def dropByte (e : TimedByte) (rest : List TimedByte) (s : State) : State :=
  let s' := reach e.time { s with line := rest }
  if s.handle = .opened ∧ s.params.staleRx = .track then { s' with tLast := e.time } else s'

/-- The bytes that arrive up to and including an instant, all of them outside an exchange. -/
def dropUntil (t : Nat) : List TimedByte → State → State
  | [], s => s
  | e :: rest, s => if e.time ≤ t then dropUntil t rest (dropByte e rest s) else s

/-- Time passes to `t` between commands, unless it has already passed it: what has arrived by then has been dropped. -/
def passTime (t : Nat) (s : State) : State := reach t (dropUntil (max s.now t) s.line s)

/-! ## Character time (R12) -/

/-- `BITS_PER_CHAR` (R12). -/
def bitsPerChar (c : SerialCfg) : Nat := 1 + 8 + (if c.parity = .none then 0 else 1) + c.stop

/-- Division rounded up. -/
def ceilDiv (a b : Nat) : Nat := (a + b - 1) / b

/-- `T_CHAR` and `T35` of the session, each at least 1 (R12). -/
def charTimes (s : State) : Nat × Nat :=
  match s.params.timing with
  | .direct tChar t35 => (tChar, t35)
  | .formula tps =>
    (ceilDiv (bitsPerChar s.cfg * tps) s.cfg.baud, ceilDiv (7 * bitsPerChar s.cfg * tps) (2 * s.cfg.baud))

end Sys2Proof.Machine
end

