-- ==== Sys2Proof/Machine/Operands.lean ====
section
/-! DEFINITION. The operand forms of the commands (30_encoding.md rules R110, R113, R120): a literal byte sequence, the
valid bytes of a buffer, a timeout. Lengths are known before any byte is read: a command checks its operand's length
first, and only then reads it (notes/assumptions/15). -/

namespace Sys2Proof.Machine

/-- `len` of a `Bytes` operand: `txlen` and `rxlen` have a value from reset on (R41). -/
def operandLen (o : Operand) (s : State) : Nat :=
  match o with
  | .lit bs => bs.length
  | .txbuf => s.txlen
  | .rxbuf => s.rxlen

/-- The bytes of a `Bytes` operand; none where it would read state that was never written: `rxbuf` before any exchange
(R42). `txbuf` with `txlen` 0, as before any `ENC.*`, is the empty sequence: none of its bytes is valid, so none is read
(R24, R61; notes/assumptions/10). -/
def operandBytes (o : Operand) (s : State) : Option Bytes :=
  match o with
  | .lit bs => some bs
  | .txbuf => readRun s.txbuf 0 s.txlen
  | .rxbuf => if s.written.rxbuf then readRun s.rxbuf 0 s.rxlen else none

/-- The ticks of a timeout operand (R33, R203). -/
def timeoutTicks (t : TimeoutArg) (s : State) : Nat :=
  match t with
  | .ticks n => n
  | .cfgTimeout => s.cfg.timeout

/-- A command on the bytes of its operand, or the fault `NoValue`: "A command that would read it has no meaning: `DEC
rxbuf` before any exchange" (R42; the row `NoValue` of R296; 93_implementation_defined.md U8, "the model stops"). -/
def onBytes (o : Operand) (s : State) (f : Bytes → Host.Outcome State Fault Refusal) :
    Host.Outcome State Fault Refusal :=
  match operandBytes o s with
  | some bs => f bs
  | none => .fault .noValue

end Sys2Proof.Machine
end

