-- ==== Sys2Proof/Machine/CrcFamily.lean ====
section
/-! DEFINITION. The meanings of the CRC family (40_crc.md rules R131 to R135, R138). -/

namespace Sys2Proof.Machine

/-- `CRC.INIT` (R131): the accumulator to 0xFFFF, the shift counter to 0; whatever it held is discarded. -/
def execCrcInit (s : State) : Host.Outcome State Fault Refusal := .next (setEngine engineInit s)

/-- `CRC.ABSORB b` (R132). -/
def execCrcAbsorb (b : Byte) (s : State) : Host.Outcome State Fault Refusal :=
  .next (setEngine (engineAbsorb (engineOf s) b) s)

/-- `CRC.READ` (R133): the accumulator is not reset. -/
def execCrcRead (s : State) : Host.Outcome State Fault Refusal := .next (deliver (.code s.crc) s)

/-- `CRC.COMPUTE span` (R134); an empty span is refused (R138). -/
def execCrcCompute (span : Operand) (s : State) : Host.Outcome State Fault Refusal :=
  if operandLen span s = 0 then .refused .emptySpan
  else onBytes span s fun bs =>
    let s' := runEngine bs s
    .next (deliver (.code s'.crc) s')

/-- `CRC.VALIDATE buf` (R135); fewer than 3 bytes are refused (R138). A mismatch is the result false, not an
error. -/
def execCrcValidate (buf : Operand) (s : State) : Host.Outcome State Fault Refusal :=
  if operandLen buf s < 3 then .refused .emptySpan
  else onBytes buf s fun bs =>
    let good := checksumGood bs
    .next (deliver (.bool good) (setVal good (runEngine (spanOf bs) s)))

end Sys2Proof.Machine
end

