-- ==== Sys2Proof/Machine/DecFamily.lean ====
section
/-! DEFINITION. The meaning of `DEC` (42_decode.md rules R170 to R180). -/

namespace Sys2Proof.Machine

/-- `DEC buf, n_exp` (R170): total on every byte sequence (R180), the empty one too (R172); `rxbuf` before any
exchange cannot be read (R42). -/
def execDec (buf : Operand) (nExp : Option Nat) (s : State) : Host.Outcome State Fault Refusal :=
  onBytes buf s fun bs => .next (decodeBytes bs nExp s)

end Sys2Proof.Machine
end

