-- ==== Sys2Proof/Machine/EncFamily.lean ====
section
/-! DEFINITION. The meanings of the ENC family (41_encode.md rules R150 to R155). Each is a pure function of its
operands, works with the handle `Closed` (R150, R322) and is refused on an ill-formed Request (R155). -/

namespace Sys2Proof.Machine

/-- `ENC.RHR addr, start, count` (R151). -/
def execEncRhr (addr : Byte) (start count : U16) (s : State) : Host.Outcome State Fault Refusal :=
  encodeRequest (.rhr addr start count) s

/-- `ENC.WSR addr, reg, value` (R152). -/
def execEncWsr (addr : Byte) (reg value : U16) (s : State) : Host.Outcome State Fault Refusal :=
  encodeRequest (.wsr addr reg value) s

/-- `ENC.WMR addr, start, values` (R153). -/
def execEncWmr (addr : Byte) (start : U16) (values : List U16) (s : State) : Host.Outcome State Fault Refusal :=
  encodeRequest (.wmr addr start values) s

end Sys2Proof.Machine
end

