-- ==== Sys2Proof/Machine/Session.lean ====
section
/-! DEFINITION. The Transport Session's state machine (43_session.md rules R203 to R221): the transitions T0 to T6 of
R204, one function each, the tick that takes the next one, and an exchange run to its return to `Idle`. -/

namespace Sys2Proof.Machine

/-- What one `SES.XCHG` fixes at its issue: its operands, the issue time `t0` (R203) and the character times of the
session (R12). None of it changes while the exchange runs (R81, R218). -/
structure Exchange where
  frame   : Bytes
  timeout : Nat
  t0      : Nat
  tChar   : Nat
  t35     : Nat
  deriving DecidableEq, Repr

/-- `t_s`, the start of transmission: no earlier than `T35` after the last activity (R205). -/
def startTime (x : Exchange) (s : State) : Nat := max x.t0 (s.tLast + x.t35)

/-- The bytes of a frame on the transmit stream, byte `i` from `t_s + i * T_CHAR` on, in index order (R207). -/
def sendFrom (t tChar : Nat) : Bytes → List TimedByte
  | [] => []
  | b :: bs => { time := t, byte := b } :: sendFrom (t + tChar) tChar bs

/-- The issue (R203): the lock is taken. -/
def issueExchange (s : State) : State := takeLock s

/-- T1, `Idle` to `Transmitting` at `t_s` (R206), with which the whole frame is committed to the channel
(R74, R207). -/
def enterTransmitting (x : Exchange) (s : State) : State :=
  let ts := startTime x s
  { reach ts s with
    fsm := .transmitting
    tx := s.tx ++ sendFrom ts x.tChar x.frame
    tTxend := ts + x.frame.length * x.tChar
    written := { s.written with timers := true } }

/-- T2, `Transmitting` to `AwaitingResponse` at `t_txend`: the last byte sent is the last activity (R207), the
capture buffer is cleared and the deadline armed (R208). -/
def enterAwaiting (x : Exchange) (s : State) : State :=
  { reach s.tTxend s with
    fsm := .awaitingResponse
    tLast := s.tTxend
    rxbuf := []
    rxlen := 0
    rxOvf := false
    tAw := s.tTxend
    tDl := s.tTxend + x.timeout
    written := { s.written with tLast := true, rxbuf := true } }

/-- The condition under which an arriving byte is captured (R209). -/
def captures (x : Exchange) (s : State) (e : TimedByte) : Bool :=
  decide (s.tAw < e.time) && decide (e.time < s.tDl) && (s.rxlen == 0 || decide (e.time < s.tRx + x.t35))

/-- Capture (R209); with the buffer full the byte is dropped and `rx_ovf` set, but it still restarts the silence
interval (R210). -/
def captureByte (e : TimedByte) (rest : List TimedByte) (s : State) : State :=
  let stored :=
    if s.rxlen < Config.rxCap then { s with rxbuf := writeMem s.rxbuf s.rxlen e.byte, rxlen := s.rxlen + 1 }
    else setOverflow s
  { reach e.time { stored with line := rest } with tRx := e.time, tLast := e.time }

/-- The end of the wait (R211, R212): T3 to `Complete` when the silence after the last captured byte is over by the
deadline, a tie included (R213), else T4 to `TimedOut` at the deadline. -/
def endWait (x : Exchange) (s : State) : State :=
  if 1 ≤ s.rxlen ∧ s.tRx + x.t35 ≤ s.tDl then { reach (s.tRx + x.t35) s with fsm := .complete }
  else { reach s.tDl s with fsm := .timedOut }

/-- The captured bytes, `rxbuf[0 .. rxlen-1]` (R214, R215). Every one of them was written by a capture. -/
def capturedBytes (s : State) : Bytes := (readRun s.rxbuf 0 s.rxlen).getD []

/-- T5, `Complete` to `Idle` (R214). -/
def finishComplete (s : State) : State :=
  releaseLock { deliver (.bytes (capturedBytes s)) s with fsm := .idle }

/-- T6, `TimedOut` to `Idle` (R215). -/
def finishTimedOut (s : State) : State :=
  let e := if s.rxlen = 0 then TransportError.noResponse else .truncatedResponse (capturedBytes s)
  releaseLock { raiseTransport e s with fsm := .idle }

/-- The next thing that happens to an exchange in flight: a byte of the line, or a transition of R204. In `Idle` the
hold T0 lasts until `t_s`; bytes during the hold and during the transmission, the instant of its end included, are
not captured (R209, R216); no transition but those of R204 exists. -/
def tick (x : Exchange) (s : State) : State :=
  match s.fsm with
  | .idle =>
    match s.line with
    | [] => enterTransmitting x s
    | e :: rest => if e.time < startTime x s then dropByte e rest s else enterTransmitting x s
  | .transmitting =>
    match s.line with
    | [] => enterAwaiting x s
    | e :: rest => if e.time ≤ s.tTxend then dropByte e rest s else enterAwaiting x s
  | .awaitingResponse =>
    match s.line with
    | [] => endWait x s
    | e :: rest =>
      if captures x s e then captureByte e rest s
      else if e.time ≤ s.tAw then dropByte e rest s
      else endWait x s
  | .complete => finishComplete s
  | .timedOut => finishTimedOut s

/-- Ticks until the lock is released. -/
def runExchange (x : Exchange) : Nat → State → State
  | 0, s => s
  | n + 1, s => if s.busy then runExchange x n (tick x s) else s

/-- Enough ticks for any exchange: one for each byte of the line, and T1, T2, T3 or T4, T5 or T6. DESIGN CHOICE: the line
is a finite list, so it always falls silent and every exchange returns, with `STALE_RX = track` too, where R216 has a
proof state the line's silence as an assumption (notes/assumptions/28). -/
def exchangeTicks (s : State) : Nat := s.line.length + 4

/-- The outcome of an exchange as R221 writes it, a function of the bytes of the line. -/
inductive XOutcome
  | noResponse
  | complete (bs : Bytes)
  | truncated (bs : Bytes)
  deriving DecidableEq, Repr

/-- The loop of R221: the captured bytes, in arrival order and at most `RX_CAP` of them, and the arrival time of the
last one. -/
def collect (tAw tDl t35 : Nat) : List TimedByte → Bytes → Option Nat → Bytes × Option Nat
  | [], got, last => (got, last)
  | e :: rest, got, last =>
    if e.time ≤ tAw then collect tAw tDl t35 rest got last
    else if tDl ≤ e.time then (got, last)
    else if last.any (fun tRx => decide (tRx + t35 ≤ e.time)) then (got, last)
    else collect tAw tDl t35 rest (if got.length < Config.rxCap then got ++ [e.byte] else got) (some e.time)

/-- `outcome(t_aw, timeout, T35, events)` with the instant it is decided at (R221). -/
def outcome (tAw timeout t35 : Nat) (events : List TimedByte) : XOutcome × Nat :=
  match collect tAw (tAw + timeout) t35 events [] none with
  | (_, none) => (.noResponse, tAw + timeout)
  | (got, some tRx) =>
    if tRx + t35 ≤ tAw + timeout then (.complete got, tRx + t35) else (.truncated got, tAw + timeout)

/-- What an outcome puts in `res` (R214, R215). -/
def outcomeResult : XOutcome → Result
  | .noResponse => .transportError .noResponse
  | .complete bs => .bytes bs
  | .truncated bs => .transportError (.truncatedResponse bs)

end Sys2Proof.Machine
end

