-- ==== Sys2Proof/Machine/SesFamily.lean ====
section
/-! DEFINITION. The meanings of the SES family (43_session.md rules R201 to R203). `SES.XCHG` occupies the command port
from its issue to its return (00_scope.md rule R18), so its meaning is the whole exchange (notes/assumptions/5). -/

namespace Sys2Proof.Machine

/-- `SES.OPEN baud, parity, stop, timeout` (R201); it cannot fail otherwise (notes/assumptions/19). -/
def execSesOpen (baud : Nat) (parity : Parity) (stop timeout : Nat) (s : State) :
    Host.Outcome State Fault Refusal :=
  if s.handle = .opened then .refused .alreadyOpen
  else if h : baud = 0 then .refused .badConfig
  else .next
    { s with
      cfg := { baud := ⟨baud, Nat.pos_of_ne_zero h⟩, parity := parity, stop := stop, timeout := timeout }
      handle := .opened
      fsm := .idle
      busy := false
      retry := 0
      rxlen := 0
      rxOvf := false
      tLast := s.now
      written := { s.written with cfg := true, tLast := true } }

/-- `SES.CLOSE` (R202): closing a closed handle does nothing. -/
def execSesClose (s : State) : Host.Outcome State Fault Refusal :=
  if s.busy then .refused .busy else .next { s with handle := .closed }

/-- The exchange once its preconditions hold (R203): issue, then the state machine to its return. -/
def exchange (x : Exchange) (s : State) : State := runExchange x (exchangeTicks s) (issueExchange s)

/-- `SES.XCHG frame, timeout` (R203): the preconditions in their order, then the exchange. The configuration and the last
activity have values wherever the handle is `Open` (R201; notes/assumptions/13). -/
def execSesXchg (frame : Operand) (timeout : TimeoutArg) (s : State) : Host.Outcome State Fault Refusal :=
  if s.handle ≠ .opened then .refused .closed
  else if sessionBusy s then .refused .busy
  else if operandLen frame s = 0 ∨ Config.maxFrame < operandLen frame s then .refused .badFrameLength
  else onBytes frame s fun bs =>
    .next (exchange { frame := bs, timeout := timeoutTicks timeout s, t0 := s.now, tChar := (charTimes s).1,
                      t35 := (charTimes s).2 } s)

end Sys2Proof.Machine
end

