-- ==== Sys2Proof/Machine/WireFamily.lean ====
section
/-! DEFINITION. The meanings of the wire rows of the opcode table (30_encoding.md rules R92 to R99, R122;
notes/assumptions/1). A request frame is what the encoder emits: executing it is its emission (R92 to R94, R154),
under the conditions of R155. A response frame is what the decoder accepts: executing it is the decoder on that frame
(R174 to R177), without an expected count. -/

namespace Sys2Proof.Machine

/-- `REQ.RHR` (R92, emitted as R151 says). -/
def execReqRhr (addr : Byte) (start count : U16) (s : State) : Host.Outcome State Fault Refusal :=
  encodeRequest (.rhr addr start count) s

/-- `REQ.WSR` (R93, emitted as R152 says). -/
def execReqWsr (addr : Byte) (reg value : U16) (s : State) : Host.Outcome State Fault Refusal :=
  encodeRequest (.wsr addr reg value) s

/-- `REQ.WMR` (R94, emitted as R153 says). -/
def execReqWmr (addr : Byte) (start : U16) (values : List U16) (s : State) : Host.Outcome State Fault Refusal :=
  encodeRequest (.wmr addr start values) s

/-- `RSP.EXC` (R99, R174). -/
def execRspExc (addr fc code : Byte) (s : State) : Host.Outcome State Fault Refusal :=
  .next (decodeBytes (exceptionFrame addr fc code) none s)

/-- `RSP.RHR` (R96, R175). -/
def execRspRhr (addr : Byte) (values : List U16) (s : State) : Host.Outcome State Fault Refusal :=
  .next (decodeBytes (responseFrame (.rhr addr values)) none s)

/-- `RSP.WSR` (R97, R176). -/
def execRspWsr (addr : Byte) (reg value : U16) (s : State) : Host.Outcome State Fault Refusal :=
  .next (decodeBytes (responseFrame (.wsr addr reg value)) none s)

/-- `RSP.WMR` (R98, R177). -/
def execRspWmr (addr : Byte) (start count : U16) (s : State) : Host.Outcome State Fault Refusal :=
  .next (decodeBytes (responseFrame (.wmr addr start count)) none s)

end Sys2Proof.Machine
end

