-- ==== Sys2Proof/Machine/Dispatch.lean ====
section
/-! DEFINITION. One arm per instruction, each one direct call of its meaning. -/

namespace Sys2Proof.Machine

def exec (i : Instr) (s : State) : Host.Outcome State Fault Refusal :=
  match i with
  | .reqRhr addr start count => Sys2Proof.Machine.execReqRhr addr start count s
  | .reqWsr addr reg value => Sys2Proof.Machine.execReqWsr addr reg value s
  | .reqWmr addr start values => Sys2Proof.Machine.execReqWmr addr start values s
  | .rspExc addr fc code => Sys2Proof.Machine.execRspExc addr fc code s
  | .rspRhr addr values => Sys2Proof.Machine.execRspRhr addr values s
  | .rspWsr addr reg value => Sys2Proof.Machine.execRspWsr addr reg value s
  | .rspWmr addr start count => Sys2Proof.Machine.execRspWmr addr start count s
  | .crcInit => Sys2Proof.Machine.execCrcInit s
  | .crcAbsorb b => Sys2Proof.Machine.execCrcAbsorb b s
  | .crcRead => Sys2Proof.Machine.execCrcRead s
  | .crcCompute span => Sys2Proof.Machine.execCrcCompute span s
  | .crcValidate buf => Sys2Proof.Machine.execCrcValidate buf s
  | .encRhr addr start count => Sys2Proof.Machine.execEncRhr addr start count s
  | .encWsr addr reg value => Sys2Proof.Machine.execEncWsr addr reg value s
  | .encWmr addr start values => Sys2Proof.Machine.execEncWmr addr start values s
  | .dec buf nExp => Sys2Proof.Machine.execDec buf nExp s
  | .sesOpen baud parity stop timeout => Sys2Proof.Machine.execSesOpen baud parity stop timeout s
  | .sesClose => Sys2Proof.Machine.execSesClose s
  | .sesXchg frame timeout => Sys2Proof.Machine.execSesXchg frame timeout s

end Sys2Proof.Machine
end

