-- ==== Sys2Proof/Machine/Mapper.lean ====
section
/-! DEFINITION. The Register Mapper of the host layer (44_host_master.md rules R261 to R265): table lookup, and the two
scalings over exact rationals, with the points R265 leaves open as parameters. -/

namespace Sys2Proof.Machine

/-- The register count of an entry (R251, R261). -/
def widthRegs : Width → Nat
  | .one => 1
  | .two => 2

/-- The static table a variant selects (R262). -/
def variantTable (v : Variant) (h : HostSide) : List MapEntry :=
  match v with
  | .f4 => h.tableF4
  | .w93 => h.table93

/-- `MAP.RESOLVE` (R262). DESIGN CHOICE: of two entries with one name in one table, on which the spec is silent, the
first (notes/assumptions/31). -/
def resolve (v : Variant) (name : String) (h : HostSide) : Except DomainError MapEntry :=
  match (variantTable v h).find? (fun e => e.name == name) with
  | some e => .ok e
  | none => .error .unknownRegister

/-- The two registers of a two-register value as one 32-bit value, by the open word order (R265). -/
def joinWords (o : WordOrder) (a b : U16) : BitVec 32 :=
  match o with
  | .highFirst => a ++ b
  | .lowFirst => b ++ a

/-- The integer a sequence of registers stands for, by the open signedness and word order (R265). -/
def rawInt (m : MapperParams) (w : Width) (values : List U16) : Int :=
  match w with
  | .one => let v := values.getD 0 0#16; if m.signed then v.toInt else (v.toNat : Int)
  | .two =>
    let v := joinWords m.order (values.getD 0 0#16) (values.getD 1 0#16)
    if m.signed then v.toInt else (v.toNat : Int)

/-- `physical = raw * scale` (R264), as an exact rational (R265). -/
def exactPhysical (m : MapperParams) (e : MapEntry) (values : List U16) : Rat :=
  (rawInt m e.width values : Rat) * e.scale

/-- A value in the open float format (R265). -/
def inFormat (f : FloatFormat) (q : Rat) : Rat :=
  match f with
  | .exact => q
  | .format n => Config.floatValue n q

/-- `MAP.TO_PHYSICAL` (R264): the scaled value in the open float format. -/
def toPhysical (m : MapperParams) (e : MapEntry) (values : List U16) : Rat := inFormat m.float (exactPhysical m e values)

/-- Rounding to the nearest integer, the tie by the open rule (R263, R265). -/
def roundNearest (t : TieRule) (q : Rat) : Int :=
  let f := q.floor
  let d := q - (f : Rat)
  if d < 1 / 2 then f
  else if 1 / 2 < d then f + 1
  else match t with
    | .awayFromZero => if 0 ≤ q then f + 1 else f
    | .towardZero => if 0 ≤ q then f else f + 1
    | .toEven => if f % 2 = 0 then f else f + 1
    | .up => f + 1
    | .down => f

/-- A raw integer fits the entry's `16 * width` bits (R263), by the open signedness. -/
def rawFits (m : MapperParams) (w : Width) (r : Int) : Bool :=
  let bits := 16 * widthRegs w
  if m.signed then decide (-(2 ^ (bits - 1) : Int) ≤ r) && decide (r < 2 ^ (bits - 1))
  else decide (0 ≤ r) && decide (r < 2 ^ bits)

/-- The register values of a raw integer that fits (R263), by the open word order. -/
def rawWords (m : MapperParams) (w : Width) (r : Int) : List U16 :=
  match w with
  | .one => [BitVec.ofInt 16 r]
  | .two =>
    let v := BitVec.ofInt 32 r
    match m.order with
    | .highFirst => [v.extractLsb' 16 16, v.extractLsb' 0 16]
    | .lowFirst => [v.extractLsb' 0 16, v.extractLsb' 16 16]

/-- The raw integer of a physical value: `round(phys / scale)` (R263). Under a scale factor of 0 the spec gives none, and
it is the free value (notes/assumptions/17). -/
def rawOf (m : MapperParams) (e : MapEntry) (phys : Rat) : Int :=
  if e.scale = 0 then Config.freeRaw phys else roundNearest m.ties (phys / e.scale)

/-- `MAP.TO_RAW` (R263): the nearest register value, `OutOfRange` when it does not fit. -/
def toRaw (m : MapperParams) (e : MapEntry) (phys : Rat) : Except DomainError (List U16) :=
  if rawFits m e.width (rawOf m e phys) then .ok (rawWords m e.width (rawOf m e phys)) else .error .outOfRange

end Sys2Proof.Machine
end

