-- ==== Sys2Proof/Machine/Master.lean ====
section
/-! DEFINITION. The Modbus Master of the host layer (44_host_master.md rules R251 to R260, R266, R267): a domain
operation as the sequence of block commands R111 expands it into, run on the meanings of those commands. -/

namespace Sys2Proof.Machine

/-- What one attempt comes to (R253). -/
inductive AttemptEnd
  | got (r : Response)
  | rejected (code : Byte)
  | retryable (e : AttemptError)
  | final (e : DomainError)
  deriving DecidableEq, Repr

/-- How the loop ends (R253, R259). -/
inductive LoopEnd
  | got (r : Response)
  | failed (e : DomainError)
  | givenUp
  deriving DecidableEq, Repr

/-- The caller has abandoned the operation by now (R259). DESIGN CHOICE: an abandonment at exactly this instant, on which
the spec is silent, counts (notes/assumptions/30). -/
def abandonedBy (at? : Option Nat) (s : State) : Bool :=
  match at? with
  | none => false
  | some t => decide (t ≤ s.now)

/-- The master's attempt count, 0 at the start of a domain operation (R266). -/
def clearRetry (s : State) : State := { s with retry := 0 }

/-- The master's attempt count, one more after each exchange (R266). -/
def countAttempt (s : State) : State := { s with retry := s.retry + 1 }

/-- A transport error as an attempt's end: both are retryable (R254). -/
def transportEnd : TransportError → AttemptEnd
  | .noResponse => .retryable .noResponse
  | .truncatedResponse bs => .retryable (.truncatedResponse bs)

/-- What `DEC` made of a complete response as an attempt's end (R253 to R255). -/
def decodedEnd (retryMalformed : Bool) : Except FrameError Response → AttemptEnd
  | .ok r => .got r
  | .error .checksumMismatch => .retryable .checksumMismatch
  | .error .malformedFrame => if retryMalformed then .retryable .malformedFrame else .final .malformedFrame
  | .error (.protocolException _ _ code) => .rejected code

/-- One attempt (R253): the exchange of `txbuf` and the count; then, unless it ended in a transport error, `DEC` of what
came back complete. -/
def attemptOnce (nExp : Option Nat) (s : State) : Host.Outcome (State × AttemptEnd) Fault Refusal :=
  andThen (execSesXchg .txbuf .cfgTimeout s) fun s1 =>
    let s2 := countAttempt s1
    match s2.res with
    | .transportError e => .next (s2, transportEnd e)
    | _ =>
      andThen (execDec .rxbuf nExp s2) fun s3 =>
        .next (s3, decodedEnd s3.host.retryMalformed (decodeFrame (capturedBytes s2) nExp))

/-- The wait between two attempts (R267). DESIGN CHOICE: an operation abandoned during an attempt that fails retryably,
on which the spec is silent, still waits it out before it is given up (notes/assumptions/29). -/
def waitBackoff (s : State) : State := passTime (s.now + s.host.backoff) s

/-- The attempt loop (R253), at most as many attempts as remain, with the backoff between two of them; an abandoned
operation issues no further exchange (R259). -/
def attemptLoop (nExp : Option Nat) (abandonAt : Option Nat) :
    Nat → Option AttemptError → State → Host.Outcome (State × LoopEnd) Fault Refusal
  | 0, last, s => .next (s, .failed (.communicationFailure s.retry last))
  | n + 1, _, s =>
    if abandonedBy abandonAt s then .next (s, .givenUp)
    else andThen (attemptOnce nExp s) fun p =>
      match p.2 with
      | .got r => .next (p.1, .got r)
      | .rejected code => .next (p.1, .failed (.deviceRejected code))
      | .final e => .next (p.1, .failed e)
      | .retryable e => attemptLoop nExp abandonAt n (some e) (if n = 0 then p.1 else waitBackoff p.1)

/-- The whole loop, from attempt count 0 (R253, R266). -/
def attempts (nExp : Option Nat) (abandonAt : Option Nat) (s : State) :
    Host.Outcome (State × LoopEnd) Fault Refusal :=
  attemptLoop nExp abandonAt s.host.maxAttempts none (clearRetry s)

/-- The echo check of a write (R257): kind, slave address and register address; neither value nor count. -/
def echoOk : Request → Response → Bool
  | .wsr a g _, .wsr a' g' _ => a' == a && g' == g
  | .wmr a st _, .wmr a' st' _ => a' == a && st' == st
  | _, _ => false

/-- What a read answers from the loop's end (R251). -/
def readReply (m : MapperParams) (e : MapEntry) : LoopEnd → DomainReply
  | .got (.rhr _ values) => .value (toPhysical m e values)
  | .got _ => .error .unexpectedEcho
  | .failed err => .error err
  | .givenUp => .abandoned

/-- What a write answers from the loop's end (R252, R257). -/
def writeReply (q : Request) : LoopEnd → DomainReply
  | .got r => if echoOk q r then .success else .error .unexpectedEcho
  | .failed err => .error err
  | .givenUp => .abandoned

/-- `MST.READ` (R251). -/
def masterRead (v : Variant) (name : String) (abandonAt : Option Nat) (s : State) :
    Host.Outcome (State × DomainReply) Fault Refusal :=
  match resolve v name s.host with
  | .error e => .next (s, .error e)
  | .ok e =>
    andThen (execEncRhr s.host.slaveAddr e.address (BitVec.ofNat 16 (widthRegs e.width)) s) fun s1 =>
      andThen (attempts (some (widthRegs e.width)) abandonAt s1) fun p =>
        .next (p.1, readReply s.host.mapper e p.2)

/-- The Request of a write: function 0x06 for one register, 0x10 for two (R252). -/
def writeRequest (addr : Byte) (e : MapEntry) (raw : List U16) : Request :=
  match e.width with
  | .one => .wsr addr e.address (raw.getD 0 0#16)
  | .two => .wmr addr e.address raw

/-- The block command that encodes a Request (R252). -/
def encodeFor (q : Request) (s : State) : Host.Outcome State Fault Refusal :=
  match q with
  | .rhr addr start count => execEncRhr addr start count s
  | .wsr addr reg value => execEncWsr addr reg value s
  | .wmr addr start values => execEncWmr addr start values s

/-- `MST.WRITE` (R252). -/
def masterWrite (v : Variant) (name : String) (phys : Rat) (abandonAt : Option Nat) (s : State) :
    Host.Outcome (State × DomainReply) Fault Refusal :=
  match resolve v name s.host with
  | .error e => .next (s, .error e)
  | .ok e =>
    match toRaw s.host.mapper e phys with
    | .error err => .next (s, .error err)
    | .ok raw =>
      let q := writeRequest s.host.slaveAddr e raw
      andThen (encodeFor q s) fun s1 =>
        andThen (attempts none abandonAt s1) fun p => .next (p.1, writeReply q p.2)

/-- A domain operation (R251, R252). The attempt count is 0 at its start, whatever becomes of it (R36, R266). -/
def runOp (op : DomainOp) (abandonAt : Option Nat) (s : State) : Host.Outcome (State × DomainReply) Fault Refusal :=
  match op with
  | .read v name => masterRead v name abandonAt (clearRetry s)
  | .write v name phys => masterWrite v name phys abandonAt (clearRetry s)

/-- A queued domain operation, whole (R258): it is not started when its caller has already given up
(notes/assumptions/30), and what comes back to a caller that has is discarded (R259). The reply is a value for the caller (R260). -/
def serveRequest (r : DomainRequest) (s : State) : Host.Outcome State Fault Refusal :=
  let s0 := passTime r.time s
  let answer (reply : DomainReply) (t : State) : State :=
    { t with host := { t.host with replies := t.host.replies ++ [reply] } }
  if abandonedBy r.abandonAt s0 then .next (answer .abandoned s0)
  else andThen (runOp r.op r.abandonAt s0) fun p =>
    .next (answer (if abandonedBy r.abandonAt p.1 then .abandoned else p.2) p.1)

end Sys2Proof.Machine
end

