-- ==== Sys2Proof/Machine/Fetch.lean ====
section
/-! DEFINITION. Where the next instruction comes from (00_scope.md rules R8, R18; notes/assumptions/3): the command the
host issues next, once time has reached its issue; and what happens to bytes that decode to nothing. -/

namespace Sys2Proof.Machine

/-- The state in which a command is executed: it has left the port, and its issue time has come, every byte that
arrived by then having been dropped (R216). -/
def issueState (p : PortItem) (rest : List PortItem) (s : State) : State := passTime p.time { s with port := rest }

/-- Bytes on a channel that are no instruction. On the command port they are refused (R120, R296). On the request
channel too. A response frame the decoder rejects is classified: the error is a value, never a stop (R170, R280). -/
def rejectItem (bytes : Bytes) (e : DecodeError) (s : State) : Host.Outcome State Fault Refusal :=
  match e with
  | .unassignedCommand => .refused .unassignedCommand
  | .noCommand => .refused .badOperands
  | .missingOperand => .refused .badOperands
  | .badOperand => .refused .badOperands
  | .trailingBytes => .refused .badOperands
  | .notARequest => .refused .notARequest
  | .frame _ => .next (decodeBytes bytes none s)

/-- A command of the port. -/
def runItem (p : PortItem) (rest : List PortItem) (s : State) : Host.Outcome State Fault Refusal :=
  match decode p.channel p.bytes with
  | .ok i => exec i (issueState p rest s)
  | .error e => rejectItem p.bytes e (issueState p rest s)

/-- No command to execute: the next queued domain operation of the host (R258), which is the head of the queue (DESIGN
CHOICE: list order is arrival order, for operations of one instant too; notes/assumptions/33), else the next byte of the line, which
nobody waits for (R216), else nothing happens (R321). -/
def runIdle (s : State) : Host.Outcome State Fault Refusal :=
  match s.host.requests with
  | r :: rs => serveRequest r { s with host := { s.host with requests := rs } }
  | [] =>
    match s.line with
    | e :: _ => .next (passTime e.time s)
    | [] => .next s

/-- The next queued domain operation arrived before the next command of the port was issued: callers queue in arrival
order (R258, R328), so only the head of the queue is looked at (notes/assumptions/33). DESIGN CHOICE: at the same instant the command comes first (notes/assumptions/32). -/
def requestFirst (p : PortItem) (requests : List DomainRequest) : Bool :=
  match requests with
  | [] => false
  | r :: _ => decide (r.time < p.time)

/-- A command put at the head of the port, its issue time already come: before any other caller's. -/
def placeItem (c : Channel) (bytes : Bytes) (s : State) : State :=
  { s with port := { time := 0, channel := c, bytes := bytes } :: s.port }

end Sys2Proof.Machine
end

