-- ==== Sys2Proof/Machine/Step.lean ====
section
/-! DEFINITION. One step of the machine: the next command of the port, or what happens when there is none; and the
placing of an opcode-table word where the step fetches. -/

namespace Sys2Proof.Machine

/-- One step (00_scope.md rules R8, R18): one command at a time, the callers in arrival order (R328). -/
def step (s : State) : Host.Outcome State Fault Refusal :=
  match s.port with
  | p :: rest => if requestFirst p s.host.requests then runIdle s else runItem p rest s
  | [] => runIdle s

/-- `s` with the instruction of a table word at the head of the command port, so that the very next step runs it. -/
def State.withFetchWord (s : State) (nbits w : Nat) : State :=
  placeItem (tableItem nbits w).1 (tableItem nbits w).2 s

end Sys2Proof.Machine
end

