-- ==== Sys2Proof/Safety.lean ====
section
/-! DEFINITION. What the state satisfies between commands on every run: the invariant that rules out states no run
reaches (10_state.md rules R22, R28, R37, R42, R43; 20_memory.md rules R61, R62; 41_encode.md rule R156; 43_session.md
rules R201, R220, R225), what the line may deliver (20_memory.md rule R66), and what a safe outcome is. -/

namespace Sys2Proof.Machine

/-- The bytes on the line come one at a time: each strictly later than the one before, "at least 1 tick apart in a
timed model" (R66). -/
def LineOrdered (l : List TimedByte) : Prop := l.Pairwise fun a b => a.time < b.time

/-- The line holds only bytes still to arrive. -/
def LineAhead (s : State) : Prop := ∀ e ∈ s.line, s.now < e.time

/-- The invariant between commands. -/
structure Inv (s : State) : Prop where
  /-- "An observer between commands only ever sees `Idle`" (R28). -/
  fsm_idle : s.fsm = .idle
  /-- The lock is held only inside an exchange (R37). -/
  not_busy : s.busy = false
  /-- The shift counter is 0 between commands (R22). -/
  k_zero : s.k = 0
  /-- `txbuf` is in canonical form, within its 256 bytes (R24). -/
  txbuf_wf : memoryWf Config.maxFrame s.txbuf = true
  /-- `txbuf` holds nothing, or exactly the frame of a well-formed Request (R61, R156). -/
  txbuf_frame : s.txlen = 0 ∨ ∃ q : Request, q.wf = true ∧ readRun s.txbuf 0 s.txlen = some (requestFrame q)
  /-- `rxbuf` is in canonical form, within its 257 bytes (R25). -/
  rxbuf_wf : memoryWf Config.rxCap s.rxbuf = true
  /-- The captured bytes have values (R62). -/
  rxbuf_held : ∃ bs, readRun s.rxbuf 0 s.rxlen = some bs
  /-- `rxlen` is at most `RX_CAP` (R25, R43). -/
  rxlen_le : s.rxlen ≤ Config.rxCap
  /-- Nothing is captured before the first exchange (R41, R42). -/
  rx_unwritten : s.written.rxbuf = false → s.rxlen = 0
  /-- An open session is configured, and its last activity is not in the future (R201, R220). -/
  open_configured : s.handle = .opened →
    s.written.cfg = true ∧ s.written.tLast = true ∧ s.tLast ≤ s.now

/-- A safe outcome: a next state in which the invariant holds. -/
def SafeOutcome (o : Host.Outcome State Fault Refusal) : Prop :=
  match o with
  | .next t => Inv t
  | .fault _ => False
  | .refused _ => False

end Sys2Proof.Machine
end

