-- ==== Sys2Proof/Certificates/Slice0/Obligations.lean ====
section
/-! DEFINITION. The statements, one definition each: what the rules of spec/ say an instruction or the machine does. A
clause that rests on a choice of the model names its entry of notes/assumptions; where a rule marks its content as the
spec's own decision or derivation, the docstring says so. `written` says of each register that R41 leaves without a value after
reset whether it has been written since (R42): a command that writes `res` or `val` raises the mark with it, and where a
docstring names what a command changes, the mark goes with its register. -/

open Sys2Proof Sys2Proof.Machine

/-! ## Checksum Engine -/

/-- R131: the accumulator is set to 0xFFFF and the counter to 0, whatever they held, and nothing else changes; a
`CRC.READ` that follows delivers 0xFFFF. The command code is 0x01. -/
def Obligations.CrcInitSetsStartValue : Prop :=
  (encode .crcInit).2 = [0x01#8] ∧
  ∀ s : State,
    exec .crcInit s = .next { s with crc := 0xFFFF#16, k := 0 } ∧
    exec .crcRead { s with crc := 0xFFFF#16, k := 0 } =
      .next { s with crc := 0xFFFF#16, k := 0, res := .code 0xFFFF#16, written := { s.written with res := true } }

/-- R132: the byte is exclusive-ored into the accumulator, then eight times bit 0 as it was before the shift decides
whether 0xA001 is exclusive-ored after it; the counter returns to 0 and nothing else changes. The accumulator's new
value does not depend on the counter. The command code is 0x02. -/
def Obligations.CrcAbsorbShiftsEightTimes : Prop :=
  ∀ (b : Byte) (s : State), (encode (.crcAbsorb b)).2.head? = some 0x02#8 ∧
    exec (.crcAbsorb b) s = .next
      { s with
        crc := (fun c : U16 => if c.getLsbD 0 = true then (c >>> 1) ^^^ 0xA001#16 else c >>> 1)^[8]
          (s.crc ^^^ b.setWidth 16)
        k := 0 }

/-- R133: `CRC.READ` delivers the accumulator and does not reset it; only `res` changes. The command code is 0x03. -/
def Obligations.CrcReadDeliversAccumulator : Prop :=
  (encode .crcRead).2 = [0x03#8] ∧
    ∀ s : State, exec .crcRead s = .next { s with res := .code s.crc, written := { s.written with res := true } }

/-- R134: `CRC.COMPUTE` of a span is `CRC.INIT`, `CRC.ABSORB` of each byte in index order, and `CRC.READ`: the three
streaming commands, run one after another from the same state, end in the state it answers. The code depends on the span
alone: one code serves every state and every operand that holds the span. An empty operand is refused. The command code
is 0x04. -/
def Obligations.CrcComputeIsInitAbsorbRead : Prop :=
  (∀ (o : Operand) (s : State), (encode (.crcCompute o)).2.head? = some 0x04#8 ∧
    (operandLen o s = 0 → exec (.crcCompute o) s = .refused .emptySpan)) ∧
  ∀ bs : Bytes, bs ≠ [] → ∃ c : U16, ∀ (o : Operand) (s : State), operandBytes o s = some bs →
    exec (.crcCompute o) s =
      andThen (bs.foldl (fun out b => andThen out (exec (.crcAbsorb b))) (exec .crcInit s)) (exec .crcRead) ∧
    exec (.crcCompute o) s = .next
      { s with
        crc := c, k := 0, res := .code c
        written := { s.written with res := true } }

/-- R135: fewer than 3 bytes are refused; otherwise the code of all bytes but the last two is compared with the
last two read low byte first, and `val` and `res` tell whether they agree. A mismatch is the result false. The command code is 0x05. -/
def Obligations.CrcValidateComparesCodes : Prop :=
  ∀ (o : Operand) (s : State), (encode (.crcValidate o)).2.head? = some 0x05#8 ∧
    (operandLen o s < 3 → exec (.crcValidate o) s = .refused .emptySpan) ∧
    ∀ (span : Bytes) (lo hi : Byte), operandBytes o s = some (span ++ [lo, hi]) → span ≠ [] →
      ∃ c : U16, exec (.crcCompute (.lit span)) s = .next
        { s with
          crc := c, k := 0, res := .code c
          written := { s.written with res := true } } ∧
        exec (.crcValidate o) s = .next
          { s with
            crc := c, k := 0, val := (c == hi ++ lo), res := .bool (c == hi ++ lo)
            written := { s.written with val := true, res := true } }

/-- R135, R137 (b), which the spec marks as derived: a buffer validates exactly when the code over the whole of it,
trailing bytes included, is 0. -/
def Obligations.ValidBuffersHaveZeroResidue : Prop :=
  ∀ (bs : Bytes) (s : State), 3 ≤ bs.length →
    ∃ t u : State, exec (.crcValidate (.lit bs)) s = .next t ∧ exec (.crcCompute (.lit bs)) s = .next u ∧
      t.val = (u.crc == 0#16)

/-- R136, which the spec marks as derived: absorbing is linear over exclusive-or. -/
def Obligations.AbsorbIsLinear : Prop :=
  ∀ (s1 s2 : State) (b1 b2 : Byte),
    ∃ t1 t2 t3 : State, exec (.crcAbsorb b1) s1 = .next t1 ∧ exec (.crcAbsorb b2) s2 = .next t2 ∧
      exec (.crcAbsorb (b1 ^^^ b2)) { s1 with crc := s1.crc ^^^ s2.crc } = .next t3 ∧ t3.crc = t1.crc ^^^ t2.crc

/-- R137 (c): a buffer that validates, with any single bit flipped, fails to validate. -/
def Obligations.SingleBitErrorFailsValidation : Prop :=
  ∀ (bs : Bytes) (i j : Nat) (s t : State), i < bs.length → j < 8 →
    exec (.crcValidate (.lit bs)) s = .next t → t.val = true →
      ∃ u : State, exec (.crcValidate (.lit (bs.modify i (fun b => b ^^^ (1#8 <<< j))))) s = .next u ∧
        u.val = false

/-! ## Encoder -/

/-- R151, R154, R155: `ENC.RHR`. The frame is the address, 0x03, the two fields high byte first, and the code of these
six bytes low byte first; `txbuf` holds it, `txlen` and `res` are its length, `crc` its code; nothing else changes. An
illegal address is refused before an illegal count. -/
def Obligations.EncRhrEmitsItsFrame : Prop :=
  ∀ (addr : Byte) (start count : U16) (s : State), (encode (.encRhr addr start count)).2.head? = some 0x10#8 ∧
    (¬(1 ≤ addr.toNat ∧ addr.toNat ≤ 247) → exec (.encRhr addr start count) s = .refused .badSlaveAddress) ∧
    ((1 ≤ addr.toNat ∧ addr.toNat ≤ 247) → ¬(1 ≤ count.toNat ∧ count.toNat ≤ 125) →
      exec (.encRhr addr start count) s = .refused .badCount) ∧
    ((1 ≤ addr.toNat ∧ addr.toNat ≤ 247) → (1 ≤ count.toNat ∧ count.toNat ≤ 125) →
      ∃ (buf : Memory) (c : U16),
        exec (.crcCompute (.lit [addr, 0x03#8, start.extractLsb' 8 8, start.extractLsb' 0 8,
            count.extractLsb' 8 8, count.extractLsb' 0 8])) s =
          .next { s with crc := c, k := 0, res := .code c, written := { s.written with res := true } } ∧
        exec (.encRhr addr start count) s =
          .next
            { s with
              txbuf := buf, txlen := 8, crc := c, k := 0, res := .length 8
              written := { s.written with res := true } } ∧
        readRun buf 0 8 = some [addr, 0x03#8, start.extractLsb' 8 8, start.extractLsb' 0 8,
          count.extractLsb' 8 8, count.extractLsb' 0 8, c.extractLsb' 0 8, c.extractLsb' 8 8] ∧
        memoryWf 256 buf = true ∧ ∀ i, 8 ≤ i → readMem buf i = none)

/-- R152, R154, R155: `ENC.WSR`, as `ENC.RHR` with 0x06 and a value; every value is legal. -/
def Obligations.EncWsrEmitsItsFrame : Prop :=
  ∀ (addr : Byte) (reg value : U16) (s : State), (encode (.encWsr addr reg value)).2.head? = some 0x11#8 ∧
    (¬(1 ≤ addr.toNat ∧ addr.toNat ≤ 247) → exec (.encWsr addr reg value) s = .refused .badSlaveAddress) ∧
    ((1 ≤ addr.toNat ∧ addr.toNat ≤ 247) →
      ∃ (buf : Memory) (c : U16),
        exec (.crcCompute (.lit [addr, 0x06#8, reg.extractLsb' 8 8, reg.extractLsb' 0 8,
            value.extractLsb' 8 8, value.extractLsb' 0 8])) s =
          .next { s with crc := c, k := 0, res := .code c, written := { s.written with res := true } } ∧
        exec (.encWsr addr reg value) s =
          .next
            { s with
              txbuf := buf, txlen := 8, crc := c, k := 0, res := .length 8
              written := { s.written with res := true } } ∧
        readRun buf 0 8 = some [addr, 0x06#8, reg.extractLsb' 8 8, reg.extractLsb' 0 8,
          value.extractLsb' 8 8, value.extractLsb' 0 8, c.extractLsb' 0 8, c.extractLsb' 8 8] ∧
        memoryWf 256 buf = true ∧ ∀ i, 8 ≤ i → readMem buf i = none)

/-- R153, R154, R155: `ENC.WMR`. The body is the address, 0x10, the start register, 0x00 and the number of values, the
byte count, and the values in index order, each high byte first. -/
def Obligations.EncWmrEmitsItsFrame : Prop :=
  ∀ (addr : Byte) (start : U16) (values : List U16) (s : State),
    (encode (.encWmr addr start values)).2.head? = some 0x12#8 ∧
    (¬(1 ≤ addr.toNat ∧ addr.toNat ≤ 247) → exec (.encWmr addr start values) s = .refused .badSlaveAddress) ∧
    ((1 ≤ addr.toNat ∧ addr.toNat ≤ 247) → ¬(1 ≤ values.length ∧ values.length ≤ 123) →
      exec (.encWmr addr start values) s = .refused .badCount) ∧
    ((1 ≤ addr.toNat ∧ addr.toNat ≤ 247) → (1 ≤ values.length ∧ values.length ≤ 123) →
      ∃ (buf : Memory) (c : U16) (body : Bytes),
        body = [addr, 0x10#8, start.extractLsb' 8 8, start.extractLsb' 0 8, 0x00#8,
          BitVec.ofNat 8 values.length, BitVec.ofNat 8 (2 * values.length)] ++
          values.flatMap (fun v => [v.extractLsb' 8 8, v.extractLsb' 0 8]) ∧
        exec (.crcCompute (.lit body)) s = .next
          { s with
            crc := c, k := 0, res := .code c
            written := { s.written with res := true } } ∧
        exec (.encWmr addr start values) s =
          .next { s with txbuf := buf, txlen := 9 + 2 * values.length, crc := c, k := 0,
                         res := .length (9 + 2 * values.length), written := { s.written with res := true } } ∧
        readRun buf 0 (9 + 2 * values.length) = some (body ++ [c.extractLsb' 0 8, c.extractLsb' 8 8]) ∧
        memoryWf 256 buf = true ∧ ∀ i, 9 + 2 * values.length ≤ i → readMem buf i = none)

/-- The wire rows `REQ.*` (R92 to R94, R122): executing a well-formed request frame is its emission by the encoder, and
an ill-formed one is refused for its address or its count (R155). That a wire row is executed so is the model's reading
(notes/assumptions/1). -/
def Obligations.RequestFramesAreEmitted : Prop :=
  ∀ (q : Request) (s : State),
    (q.wf = true → ∃ (buf : Memory) (c : U16),
      exec (requestInstr q) s =
        .next { s with txbuf := buf, txlen := (requestFrame q).length, crc := c, k := 0,
                       res := .length (requestFrame q).length, written := { s.written with res := true } } ∧
      readRun buf 0 (requestFrame q).length = some (requestFrame q) ∧
      requestFrame q = requestBody q ++ [c.extractLsb' 0 8, c.extractLsb' 8 8]) ∧
    (q.wf = false →
      exec (requestInstr q) s = .refused .badSlaveAddress ∨ exec (requestInstr q) s = .refused .badCount)

/-- R156 (a) to (d), which the spec marks as derived: what holds of `txbuf` after any successful encoder command, and
that `CRC.VALIDATE` of it answers true. -/
def Obligations.EncodedFramesAreLegal : Prop :=
  ∀ (q : Request) (s t : State), encodeFor q s = .next t →
    8 ≤ t.txlen ∧ t.txlen ≤ 255 ∧
    (∃ a, readMem t.txbuf 0 = some a ∧ 1 ≤ a.toNat ∧ a.toNat ≤ 247) ∧
    (∃ fc, readMem t.txbuf 1 = some fc ∧ (fc = 0x03#8 ∨ fc = 0x06#8 ∨ fc = 0x10#8)) ∧
    ∃ u, exec (.crcValidate .txbuf) t = .next u ∧ u.val = true

/-- R156 (e), which the spec marks as derived: two different Requests never give the same frame. -/
def Obligations.EncodingIsInjective : Prop :=
  ∀ (q q' : Request) (s t t' : State), encodeFor q s = .next t → encodeFor q' s = .next t' →
    readRun t.txbuf 0 t.txlen = readRun t'.txbuf 0 t'.txlen → q = q'

/-! ## Decoder -/

/-- R172: a buffer of fewer than 4 or more than 256 bytes is `MalformedFrame` before any checksum work: `crc` and `k`
are untouched. Both results are the spec's decision D9. -/
def Obligations.DecChecksLengthFirst : Prop :=
  ∀ (o : Operand) (nExp : Option Nat) (bs : Bytes) (s : State), operandBytes o s = some bs →
    (bs.length < 4 ∨ 256 < bs.length) →
      exec (.dec o nExp) s = .next
        { s with
          res := .frameError .malformedFrame
          written := { s.written with res := true } }

/-- R173: with a legal length, when the code of all bytes but the last two differs from the last two read low byte
first, the result is `ChecksumMismatch`, whatever else is wrong; `crc` and `k` are scratch and `val` is not written. -/
def Obligations.DecReportsChecksumMismatch : Prop :=
  ∀ (o : Operand) (nExp : Option Nat) (span : Bytes) (lo hi : Byte) (s : State),
    operandBytes o s = some (span ++ [lo, hi]) → 2 ≤ span.length → span.length ≤ 254 →
      ∃ c : U16, exec (.crcCompute (.lit span)) s = .next
        { s with
          crc := c, k := 0, res := .code c
          written := { s.written with res := true } } ∧
        (c ≠ hi ++ lo →
          exec (.dec o nExp) s = .next
            { s with
              crc := c, k := 0, res := .frameError .checksumMismatch
              written := { s.written with res := true } })

/-- R174, R178: with a legal length and a good checksum, the exception flag alone selects the exception arm; one payload
byte is the exception code, whatever it is and whatever `n_exp`, and any other payload length is `MalformedFrame` (the
spec's decision D11). -/
def Obligations.DecExceptionArm : Prop :=
  ∀ (o : Operand) (nExp : Option Nat) (addr fc : Byte) (payload : Bytes) (s : State),
    operandBytes o s = some (withChecksum (addr :: fc :: payload)) → payload.length ≤ 252 →
    fc.getLsbD 7 = true →
      exec (.dec o nExp) s = .next
        { s with
          crc := crcOf (addr :: fc :: payload), k := 0
          res := .frameError (match payload with
            | [code] => .protocolException addr fc code
            | _ => .malformedFrame)
          written := { s.written with res := true } }

/-- R175: with a legal length, a good checksum and function code 0x03, the byte count must equal the bytes that follow,
be even and not 0, and give the expected register count when there is one; the values are assembled high byte first.
Otherwise `MalformedFrame`. -/
def Obligations.DecReadArm : Prop :=
  ∀ (o : Operand) (nExp : Option Nat) (addr : Byte) (payload : Bytes) (s : State),
    operandBytes o s = some (withChecksum (addr :: 0x03#8 :: payload)) → payload.length ≤ 252 →
      ((∃ values : List U16, values ≠ [] ∧ (∀ n, nExp = some n → values.length = n) ∧
          payload = BitVec.ofNat 8 (2 * values.length) ::
            values.flatMap (fun v => [v.extractLsb' 8 8, v.extractLsb' 0 8]) ∧
          exec (.dec o nExp) s = .next
            { s with
              crc := crcOf (addr :: 0x03#8 :: payload), k := 0, res := .response (.rhr addr values)
              written := { s.written with res := true } }) ∨
       ((¬∃ values : List U16, values ≠ [] ∧ (∀ n, nExp = some n → values.length = n) ∧
          payload = BitVec.ofNat 8 (2 * values.length) ::
            values.flatMap (fun v => [v.extractLsb' 8 8, v.extractLsb' 0 8])) ∧
          exec (.dec o nExp) s = .next
            { s with
              crc := crcOf (addr :: 0x03#8 :: payload), k := 0, res := .frameError .malformedFrame
              written := { s.written with res := true } }))

/-- R176, R177: with a legal length, a good checksum and function code 0x06 or 0x10, four payload bytes give the two
fields high byte first; any other payload length is `MalformedFrame`. `n_exp` is ignored. -/
def Obligations.DecWriteArms : Prop :=
  ∀ (o : Operand) (nExp : Option Nat) (addr : Byte) (payload : Bytes) (s : State), payload.length ≤ 252 →
    (operandBytes o s = some (withChecksum (addr :: 0x06#8 :: payload)) →
      exec (.dec o nExp) s = .next
        { s with
          crc := crcOf (addr :: 0x06#8 :: payload), k := 0
          written := { s.written with res := true }
          res := match payload with
            | [a, b, c, d] => .response (.wsr addr (a ++ b) (c ++ d))
            | _ => .frameError .malformedFrame }) ∧
    (operandBytes o s = some (withChecksum (addr :: 0x10#8 :: payload)) →
      exec (.dec o nExp) s = .next
        { s with
          crc := crcOf (addr :: 0x10#8 :: payload), k := 0
          written := { s.written with res := true }
          res := match payload with
            | [a, b, c, d] => .response (.wmr addr (a ++ b) (c ++ d))
            | _ => .frameError .malformedFrame })

/-- R179, R106: a function code with the high bit clear that is none of the three is `MalformedFrame` (the spec's
decision D10). -/
def Obligations.DecUnsupportedFunctionIsMalformed : Prop :=
  ∀ (o : Operand) (nExp : Option Nat) (addr fc : Byte) (payload : Bytes) (s : State),
    operandBytes o s = some (withChecksum (addr :: fc :: payload)) → payload.length ≤ 252 →
    fc.getLsbD 7 = false → fc ≠ 0x03#8 → fc ≠ 0x06#8 → fc ≠ 0x10#8 →
      exec (.dec o nExp) s = .next
        { s with
          crc := crcOf (addr :: fc :: payload), k := 0, res := .frameError .malformedFrame
          written := { s.written with res := true } }

/-- R180, R170, R289: on every byte sequence and every expected count, `DEC` answers a next state whose result is a
Response or a FrameError, and touches nothing but `res` and the scratch `crc` and `k`. -/
def Obligations.DecIsTotalAndPure : Prop :=
  ∀ (o : Operand) (nExp : Option Nat) (bs : Bytes) (s : State), operandBytes o s = some bs →
    ∃ (c : U16) (n : Nat) (r : Result), exec (.dec o nExp) s = .next
      { s with
        crc := c, k := n, res := r
        written := { s.written with res := true } } ∧
      ((∃ a, r = .response a) ∨ ∃ e, r = .frameError e)

/-- R183, which the spec marks as derived: a frame of legal length with a good checksum, with any single bit flipped, is
`ChecksumMismatch`. -/
def Obligations.SingleBitErrorIsChecksumMismatch : Prop :=
  ∀ (bs : Bytes) (i j : Nat) (nExp : Option Nat) (s v : State), 4 ≤ bs.length → bs.length ≤ 256 →
    exec (.crcValidate (.lit bs)) s = .next v → v.val = true → i < bs.length → j < 8 →
      ∃ t, exec (.dec (.lit (bs.modify i (fun b => b ^^^ (1#8 <<< j)))) nExp) s = .next t ∧
        t.res = .frameError .checksumMismatch

/-- R157 and R182, which the spec marks as derived: the decoder on the encoder's own output. A single-write request
decodes to its own fields; a read request and a multiple-write request are always `MalformedFrame`. -/
def Obligations.DecodingEncodedRequests : Prop :=
  ∀ (q : Request) (nExp : Option Nat) (s t : State), encodeFor q s = .next t →
    ∃ u, exec (.dec .txbuf nExp) t = .next u ∧
      u.res = (match q with
        | .wsr addr reg value => .response (.wsr addr reg value)
        | .rhr _ _ _ => .frameError .malformedFrame
        | .wmr _ _ _ => .frameError .malformedFrame)

/-- R157 (4), which the spec marks as derived: the response frames of R96 to R98 decode to their fields, with the right
expected count or with none. -/
def Obligations.ResponseFramesDecodeToTheirFields : Prop :=
  ∀ (r : Response) (nExp : Option Nat) (s : State),
    (∀ addr values, r = .rhr addr values →
      1 ≤ values.length ∧ values.length ≤ 125 ∧ (nExp = none ∨ nExp = some values.length)) →
      ∃ c, exec (.dec (.lit (responseFrame r)) nExp) s = .next
        { s with
          crc := c, k := 0, res := .response r
          written := { s.written with res := true } }

/-- The wire rows `RSP.*` (R96 to R99, R122, R174 to R177): executing a well-formed response frame delivers what the
decoder's arm makes of it, with the scratch effect of R140, and changes nothing else. That a wire row is executed so is
the model's reading (notes/assumptions/1). -/
def Obligations.ResponseRowsDeliverTheirResults : Prop :=
  ∀ s : State,
    (∀ (addr fc code : Byte), fc.getLsbD 7 = true →
      exec (.rspExc addr fc code) s = .next
        { s with
          crc := crcOf [addr, fc, code], k := 0, res := .frameError (.protocolException addr fc code)
          written := { s.written with res := true } }) ∧
    (∀ (addr : Byte) (values : List U16), 1 ≤ values.length → values.length ≤ 125 →
      exec (.rspRhr addr values) s = .next
        { s with
          crc := crcOf (responseBody (.rhr addr values)), k := 0, res := .response (.rhr addr values)
          written := { s.written with res := true } }) ∧
    (∀ (addr : Byte) (reg value : U16),
      exec (.rspWsr addr reg value) s = .next
        { s with
          crc := crcOf (responseBody (.wsr addr reg value)), k := 0, res := .response (.wsr addr reg value)
          written := { s.written with res := true } }) ∧
    (∀ (addr : Byte) (start count : U16),
      exec (.rspWmr addr start count) s = .next
        { s with
          crc := crcOf (responseBody (.wmr addr start count)), k := 0, res := .response (.wmr addr start count)
          written := { s.written with res := true } })

/-- R42, R296: reading state that was never written stops with `NoValue`: `DEC rxbuf` before any exchange, the host's read
of `res` before any command, and its read of `val` before any `CRC.VALIDATE` (93_implementation_defined.md U8); once
written they are read as they are. `DEC txbuf` before any encoder command reads no byte (notes/assumptions/10): the empty
sequence is `MalformedFrame` (R172). -/
def Obligations.DecOfUnwrittenBufferHasNoValue : Prop :=
  ∀ (nExp : Option Nat) (s : State),
    (s.written.rxbuf = false → exec (.dec .rxbuf nExp) s = .fault .noValue) ∧
    (s.txlen = 0 → exec (.dec .txbuf nExp) s = .next
      { s with
        res := .frameError .malformedFrame
        written := { s.written with res := true } }) ∧
    readRes s = (if s.written.res = true then .ok s.res else .error .noValue) ∧
    readVal s = (if s.written.val = true then .ok s.val else .error .noValue)

/-! ## Transport Session -/

/-- R201: `SES.OPEN` takes a closed handle and a positive baud rate, and is refused otherwise. The command code is
0x20. -/
def Obligations.SesOpenConfiguresTheSession : Prop :=
  ∀ (baud : Nat) (parity : Parity) (stop timeout : Nat) (s : State),
    (encode (.sesOpen baud parity stop timeout)).2.head? = some 0x20#8 ∧
    (s.handle = .opened → exec (.sesOpen baud parity stop timeout) s = .refused .alreadyOpen) ∧
    (s.handle = .closed → baud = 0 → exec (.sesOpen baud parity stop timeout) s = .refused .badConfig) ∧
    (s.handle = .closed → ∀ h : 0 < baud, exec (.sesOpen baud parity stop timeout) s = .next
      { s with
        cfg := { baud := ⟨baud, h⟩, parity := parity, stop := stop, timeout := timeout }
        handle := .opened, fsm := .idle, busy := false, retry := 0, rxlen := 0, rxOvf := false, tLast := s.now
        written := { s.written with cfg := true, tLast := true } })

/-- R202: `SES.CLOSE` closes the handle and keeps everything else; it is refused with an exchange in flight. Afterwards
`SES.XCHG` is refused. The command code is 0x21. -/
def Obligations.SesCloseReleasesTheHandle : Prop :=
  (encode .sesClose).2 = [0x21#8] ∧
  ∀ s : State,
    (s.busy = true → exec .sesClose s = .refused .busy) ∧
    (s.busy = false → exec .sesClose s = .next { s with handle := .closed }) ∧
    ∀ (frame : Operand) (timeout : TimeoutArg),
      exec (.sesXchg frame timeout) { s with handle := .closed } = .refused .closed

/-- R203: the three preconditions of `SES.XCHG` in their order. -/
def Obligations.SesXchgPreconditions : Prop :=
  ∀ (frame : Operand) (timeout : TimeoutArg) (s : State),
    (s.handle = .closed → exec (.sesXchg frame timeout) s = .refused .closed) ∧
    (s.handle = .opened → (s.busy = true ∨ s.fsm ≠ .idle) → exec (.sesXchg frame timeout) s = .refused .busy) ∧
    (s.handle = .opened → s.busy = false → s.fsm = .idle → (operandLen frame s = 0 ∨ 256 < operandLen frame s) →
      exec (.sesXchg frame timeout) s = .refused .badFrameLength)

/-- R203, R225, R290: on an open session with no exchange in flight, every exchange of a frame of 1 to 256 bytes that has
a value answers a next state, back in `Idle` with the lock released, and leaves alone everything an exchange does not
own: the engine, the transmit buffer, the configuration, the handle, the retry counter, the port and the host. With
`STALE_RX = track` too: that the line falls silent, which R216 has a proof assume, is the model's finite line
(notes/assumptions/28). -/
def Obligations.SesXchgReturnsToIdle : Prop :=
  ∀ (frame : Operand) (timeout : TimeoutArg) (bs : Bytes) (s : State), s.handle = .opened → s.busy = false →
    s.fsm = .idle → operandBytes frame s = some bs → 1 ≤ bs.length → bs.length ≤ 256 →
      ∃ t, exec (.sesXchg frame timeout) s = .next t ∧ t.fsm = .idle ∧ t.busy = false ∧
        t.crc = s.crc ∧ t.k = s.k ∧ t.val = s.val ∧ t.txbuf = s.txbuf ∧ t.txlen = s.txlen ∧ t.cfg = s.cfg ∧
        t.handle = s.handle ∧ t.retry = s.retry ∧ t.params = s.params ∧ t.port = s.port ∧ t.host = s.host ∧
        t.written = { s.written with tLast := true, timers := true, rxbuf := true, res := true }

/-- R221, which the spec marks as derived: for either form of the timeout and either value of `STALE_RX`, with the line's
bytes in time order, what an exchange leaves in `res` and the instant it returns at are the outcome function's, from
`t_aw` the end of the transmission, with its deadline the timeout after that (R208; `cfg.timeout` for the form R203 calls
normal). The last activity it leaves is the end of the transmission, or the last byte captured (R207, R209, R220). With
stale bytes discarded the transmission begins exactly when the command is issued or, if later, `T35` after
the last activity (R205). That it ends `L * T_CHAR` later is the exact timing R207 lets a model weaken
(notes/assumptions/25); that an exchange returns under `track` is the model's finite line (notes/assumptions/28). -/
def Obligations.ExchangeRefinesOutcomeFunction : Prop :=
  ∀ (frame : Operand) (timeout : TimeoutArg) (ticks tChar t35 : Nat) (bs : Bytes) (s t : State),
    LineOrdered s.line → operandBytes frame s = some bs → charTimes s = (tChar, t35) →
    (timeout = .ticks ticks ∨ timeout = .cfgTimeout ∧ s.cfg.timeout = ticks) →
    exec (.sesXchg frame timeout) s = .next t →
      (s.params.staleRx = .discard → t.tAw = max s.now (s.tLast + t35) + bs.length * tChar) ∧
      t.tTxend = t.tAw ∧ t.tDl = t.tAw + ticks ∧ t.tLast = (if t.rxlen = 0 then t.tTxend else t.tRx) ∧
      t.res = outcomeResult (outcome t.tAw ticks t35 s.line).1 ∧ t.now = (outcome t.tAw ticks t35 s.line).2

/-- R74, R207, R217, R76, R78, R84: one exchange puts exactly its frame on the transmit stream, once, in index order,
back to back, starting at least `T35` after the last activity; and the `retry` register is not read. With
`STALE_RX = discard` the start is exactly the later of the issue and the end of that silence. That byte `i` starts at
`t_s + i * T_CHAR` exactly is the model's choice (notes/assumptions/25): R207 lets a model weaken it. -/
def Obligations.ExchangeSendsItsFrameOnce : Prop :=
  ∀ (frame : Operand) (timeout : TimeoutArg) (tChar t35 : Nat) (bs : Bytes) (s t : State), LineAhead s →
    s.tLast ≤ s.now → LineOrdered s.line → operandBytes frame s = some bs → charTimes s = (tChar, t35) →
    exec (.sesXchg frame timeout) s = .next t →
      (∃ ts, max s.now (s.tLast + t35) ≤ ts ∧
        (s.params.staleRx = .discard → ts = max s.now (s.tLast + t35)) ∧
        t.tx = s.tx ++ bs.mapIdx (fun i b => { time := ts + i * tChar, byte := b }) ∧
        t.tTxend = ts + bs.length * tChar) ∧
      ∀ r : Nat, exec (.sesXchg frame timeout) { s with retry := r } = .next { t with retry := r }

/-- R219, which the spec marks as derived: with stale bytes discarded, an exchange lasts at least the transmission and
at most the silence, the transmission and the timeout, for either form of the timeout. -/
def Obligations.ExchangeDurationIsBounded : Prop :=
  ∀ (frame : Operand) (timeout : TimeoutArg) (ticks tChar t35 : Nat) (bs : Bytes) (s t : State),
    s.params.staleRx = .discard → s.tLast ≤ s.now → operandBytes frame s = some bs →
    charTimes s = (tChar, t35) → (timeout = .ticks ticks ∨ timeout = .cfgTimeout ∧ s.cfg.timeout = ticks) →
    exec (.sesXchg frame timeout) s = .next t →
      s.now + bs.length * tChar ≤ t.now ∧ t.now ≤ s.now + t35 + bs.length * tChar + ticks

/-- R200, R214, R215, R224: the three-way outcome. `NoResponse` exactly when nothing was captured; otherwise the
captured bytes, 1 to 257 of them, complete or truncated. -/
def Obligations.ExchangeHasThreeWayOutcome : Prop :=
  ∀ (frame : Operand) (timeout : TimeoutArg) (s t : State), exec (.sesXchg frame timeout) s = .next t →
    (t.res = .transportError .noResponse ∧ t.rxlen = 0) ∨
    ∃ got : Bytes, readRun t.rxbuf 0 t.rxlen = some got ∧ 1 ≤ got.length ∧ got.length ≤ 257 ∧
      (t.res = .bytes got ∨ t.res = .transportError (.truncatedResponse got))

/-- R82, R84, R209, R216: every byte an exchange returns arrived on the line strictly after its transmission ended and
strictly before its deadline, in arrival order; none from before is returned. -/
def Obligations.CapturedBytesArrivedInTheWindow : Prop :=
  ∀ (frame : Operand) (timeout : TimeoutArg) (s t : State) (got : Bytes),
    exec (.sesXchg frame timeout) s = .next t → readRun t.rxbuf 0 t.rxlen = some got →
      got.Sublist ((s.line.filter (fun e => decide (t.tAw < e.time) && decide (e.time < t.tDl))).map
        TimedByte.byte)

/-- R215, R213 (d), D0's silent line: when nothing arrives, or the timeout is 0, an exchange ends `NoResponse` at the
deadline, which is the timeout after the end of the transmission, for either form of the timeout. -/
def Obligations.SilentLineGivesNoResponse : Prop :=
  ∀ (frame : Operand) (timeout : TimeoutArg) (ticks : Nat) (s t : State),
    (timeout = .ticks ticks ∨ timeout = .cfgTimeout ∧ s.cfg.timeout = ticks) →
    exec (.sesXchg frame timeout) s = .next t → LineOrdered s.line → (s.line = [] ∨ ticks = 0) →
      t.res = .transportError .noResponse ∧ t.rxlen = 0 ∧ t.now = t.tAw + ticks

/-- R204: the transitions of the state machine and no others, each from its state and under its condition on time. T0
holds in `Idle` only before the start time, a byte that arrives then or while sending changes no state of the machine,
and capture never leaves `AwaitingResponse`. T2 clears the capture buffer and its overflow flag, makes the end of the
transmission the last activity, and arms the deadline (R207, R208). -/
def Obligations.OnlyTheTransitionsOfTheTable : Prop :=
  ∀ (x : Exchange) (s : State), s.busy = true →
    (s.fsm = .idle →
      ((tick x s).fsm = .idle ∧ (∃ e ∈ s.line, e.time < startTime x s)) ∨
      ((tick x s).fsm = .transmitting ∧ startTime x s ≤ (tick x s).now)) ∧
    (s.fsm = .transmitting →
      ((tick x s).fsm = .transmitting ∧ (∃ e ∈ s.line, e.time ≤ s.tTxend)) ∨
      ((tick x s).fsm = .awaitingResponse ∧ s.tTxend ≤ (tick x s).now ∧ (tick x s).rxlen = 0 ∧
        (∀ i, readMem (tick x s).rxbuf i = none) ∧ (tick x s).rxOvf = false ∧ (tick x s).tLast = s.tTxend ∧
        (tick x s).tAw = s.tTxend ∧ (tick x s).tDl = s.tTxend + x.timeout)) ∧
    (s.fsm = .awaitingResponse →
      ((tick x s).fsm = .awaitingResponse ∧ s.line ≠ []) ∨
      ((tick x s).fsm = .complete ∧ 1 ≤ s.rxlen ∧ s.tRx + x.t35 ≤ (tick x s).now ∧ s.tRx + x.t35 ≤ s.tDl) ∨
      ((tick x s).fsm = .timedOut ∧ s.tDl ≤ (tick x s).now)) ∧
    ((s.fsm = .complete ∨ s.fsm = .timedOut) → (tick x s).fsm = .idle ∧ (tick x s).busy = false) ∧
    ((tick x s).tx ≠ s.tx → s.fsm = .idle ∧ (tick x s).fsm = .transmitting) ∧
    ((tick x s).rxlen ≠ s.rxlen ∨ (tick x s).rxOvf ≠ s.rxOvf →
      s.fsm = .awaitingResponse ∨ (s.fsm = .transmitting ∧ (tick x s).rxlen = 0 ∧ (tick x s).rxOvf = false))

/-- R209, with R210's full buffer: the capture of one byte. In `AwaitingResponse` a byte strictly inside the interval is
stored at `rxlen` when there is room, else only `rx_ovf` is set; either way it restarts the silence interval and is the
last activity. A byte at `t_aw` or earlier is taken off the line and not captured. (A byte at or after the other end of
the interval stays on the line: `WaitEndsBySilenceOrDeadline`.) -/
def Obligations.CaptureStoresOrOverflows : Prop :=
  ∀ (x : Exchange) (s : State) (e : TimedByte) (rest : List TimedByte), s.fsm = .awaitingResponse →
    s.line = e :: rest →
    (s.tAw < e.time → e.time < s.tDl → (1 ≤ s.rxlen → e.time < s.tRx + x.t35) →
      (tick x s).tRx = e.time ∧ (tick x s).tLast = e.time ∧ (tick x s).line = rest ∧
      (tick x s).fsm = .awaitingResponse ∧
      (s.rxlen < 257 → (tick x s).rxlen = s.rxlen + 1 ∧ readMem (tick x s).rxbuf s.rxlen = some e.byte ∧
        (∀ i, i ≠ s.rxlen → readMem (tick x s).rxbuf i = readMem s.rxbuf i) ∧ (tick x s).rxOvf = s.rxOvf) ∧
      (257 ≤ s.rxlen → (tick x s).rxlen = s.rxlen ∧ (tick x s).rxbuf = s.rxbuf ∧ (tick x s).rxOvf = true)) ∧
    (e.time ≤ s.tAw →
      (tick x s).line = rest ∧ (tick x s).fsm = .awaitingResponse ∧ (tick x s).rxbuf = s.rxbuf ∧
      (tick x s).rxlen = s.rxlen ∧ (tick x s).rxOvf = s.rxOvf ∧ (tick x s).tRx = s.tRx)

/-- R211, R212, R213: with no byte left to capture, the wait ends in `Complete` at the end of the silence when it comes
no later than the deadline, ties included, and in `TimedOut` at the deadline otherwise. A byte at exactly the end of the
silence or at the deadline is not captured and stays on the line. -/
def Obligations.WaitEndsBySilenceOrDeadline : Prop :=
  ∀ (x : Exchange) (s : State), s.fsm = .awaitingResponse →
    (∀ e rest, s.line = e :: rest → s.tAw < e.time ∧
      (s.tDl ≤ e.time ∨ (1 ≤ s.rxlen ∧ s.tRx + x.t35 ≤ e.time))) →
      tick x s = if 1 ≤ s.rxlen ∧ s.tRx + x.t35 ≤ s.tDl
        then { s with fsm := .complete, now := max s.now (s.tRx + x.t35) }
        else { s with fsm := .timedOut, now := max s.now s.tDl }

/-- R214, R215: the two returns to `Idle`, each latching its result and releasing the lock in the same step. -/
def Obligations.TerminalStatesLatchAndReturn : Prop :=
  ∀ (x : Exchange) (s : State) (got : Bytes), readRun s.rxbuf 0 s.rxlen = some got →
    (s.fsm = .complete → tick x s =
      { s with res := .bytes got, fsm := .idle, busy := false, written := { s.written with res := true } }) ∧
    (s.fsm = .timedOut → tick x s =
      { s with
        res := .transportError (if s.rxlen = 0 then .noResponse else .truncatedResponse got)
        fsm := .idle, busy := false, written := { s.written with res := true } })

/-- R216, R284: a byte that arrives with nothing to execute is dropped and never stored; it changes no state but time,
except that with the handle `Open` and `STALE_RX = track` it is the last activity. The bytes of the line come one after
the other (R66), the first of them not before now. -/
def Obligations.StaleBytesAreDropped : Prop :=
  ∀ (s : State) (e : TimedByte) (rest : List TimedByte), s.port = [] → s.host.requests = [] → s.line = e :: rest →
    LineOrdered s.line → s.now ≤ e.time →
      step s = .next
        { s with
          line := rest, now := e.time
          tLast := if s.handle = .opened ∧ s.params.staleRx = .track then e.time else s.tLast }

/-- R12: the character times of a session under the formula, rounded up, for every tick resolution; with the times given
directly, those; and both at least 1 either way. -/
def Obligations.CharacterTimesFollowTheFormula : Prop :=
  ∀ s : State, (1 ≤ (charTimes s).1 ∧ 1 ≤ (charTimes s).2) ∧
    (∀ tps : PNat, s.params.timing = .formula tps →
      let bits := 1 + 8 + (if s.cfg.parity = .none then 0 else 1) + s.cfg.stop
      let tChar := (charTimes s).1
      let t35 := (charTimes s).2
      (bits * tps ≤ tChar * s.cfg.baud ∧ tChar * s.cfg.baud < bits * tps + s.cfg.baud) ∧
      (7 * bits * tps ≤ t35 * (2 * s.cfg.baud) ∧ t35 * (2 * s.cfg.baud) < 7 * bits * tps + 2 * s.cfg.baud)) ∧
    (∀ tChar t35 : PNat, s.params.timing = .direct tChar t35 → charTimes s = ((tChar : Nat), (t35 : Nat)))

/-! ## The machine -/

/-- R321: the state after power-on reset. What R41 leaves without a value is not marked written, and holds the values of
notes/assumptions/9, which this statement does not mention. -/
def Obligations.ResetLeavesTheBlockIdle : Prop :=
  State.reset.fsm = .idle ∧ State.reset.handle = .closed ∧ State.reset.busy = false ∧ State.reset.retry = 0 ∧
  State.reset.crc = 0xFFFF#16 ∧ State.reset.k = 0 ∧ State.reset.txlen = 0 ∧ State.reset.rxlen = 0 ∧
  State.reset.rxOvf = false ∧ State.reset.txbuf = [] ∧ State.reset.rxbuf = [] ∧
  State.reset.written = { val := false, cfg := false, tLast := false, timers := false, rxbuf := false, res := false } ∧
  State.reset.port = [] ∧ step State.reset = .next State.reset

/-- The invariant holds after reset. -/
def Obligations.ResetSatisfiesTheInvariant : Prop := Inv State.reset

/-- Every step from a state in which the invariant holds that answers a next state answers one in which it holds:
commands of the port, domain operations of the host, and bytes nobody waits for. -/
def Obligations.EveryStepKeepsTheInvariant : Prop := ∀ s t : State, Inv s → step s = .next t → Inv t

/-- A step runs the decoded instruction: when the bytes of the next port item decode to `i` and no queued domain operation
arrived before it (R328), the step is `exec i` at the state in which that item has left the port and its issue time has
been reached (R8, R18). That a command comes before an operation of the same instant, and
that the head of the queue is the operation that arrived first, are the model's choices (notes/assumptions/32 and 33). -/
def Obligations.StepRunsTheDecodedInstruction : Prop :=
  ∀ (s : State) (p : PortItem) (rest : List PortItem) (i : Instr), s.port = p :: rest →
    (∀ r ∈ s.host.requests.head?, p.time ≤ r.time) → decode p.channel p.bytes = .ok i →
      step s = exec i (passTime p.time { s with port := rest })

/-- Between two commands the passing of time touches nothing but the line, the time and the last activity, and time
never goes back (R38, R216). -/
def Obligations.PassingTimeTouchesOnlyTheLine : Prop :=
  ∀ (s : State) (t : Nat), ∃ (line : List TimedByte) (tLast : Nat),
    passTime t s = { s with line := line, now := (passTime t s).now, tLast := tLast } ∧
    s.now ≤ (passTime t s).now ∧ t ≤ (passTime t s).now ∧ line <:+ s.line ∧
    (s.params.staleRx = .discard ∨ s.handle = .closed → tLast = s.tLast)

/-- R120, R296: a command code that the table does not list is refused, whatever follows it, when its turn comes. That
the code is the first byte on the command channel, that a command comes before a domain operation of the same instant, and
that the head of the queue arrived first, are the model's choices (notes/assumptions/2, 32 and 33). -/
def Obligations.UnassignedCommandsAreRefused : Prop :=
  ∀ (s : State) (p : PortItem) (rest : List PortItem) (code : Byte) (operands : Bytes), s.port = p :: rest →
    (∀ r ∈ s.host.requests.head?, p.time ≤ r.time) → p.channel = .cmd → p.bytes = code :: operands →
    code ∉ [0x01#8, 0x02#8, 0x03#8, 0x04#8, 0x05#8, 0x10#8, 0x11#8, 0x12#8, 0x18#8, 0x20#8, 0x21#8, 0x22#8] →
      step s = .refused .unassignedCommand

/-- Decoding an encoded well-formed instruction gives it back, for every instruction of the table and every operand
value. The operand layout of the commands is the model's (notes/assumptions/2); the frames are those of R92 to R99. -/
def Obligations.DecodeInvertsEncode : Prop :=
  ∀ i : Instr, i.wf = true → decode (encode i).1 (encode i).2 = .ok i

/-- Command codes of R120, and frames written out from the spec's vectors V20, V22, V23, V37, V41 and V51, decode to the
instructions they stand for. The channels, the operand bytes after a command code and the reading of a request frame are
the model's (notes/assumptions/2 and 23). -/
def Obligations.WrittenOutWordsDecode : Prop :=
  decode .cmd [0x01#8] = .ok .crcInit ∧
  decode .cmd [0x21#8] = .ok .sesClose ∧
  decode .cmd [0x10#8, 0x01#8, 0x00#8, 0x64#8, 0x00#8, 0x01#8] = .ok (.encRhr 0x01#8 0x0064#16 0x0001#16) ∧
  decode .req [0x01#8, 0x03#8, 0x00#8, 0x00#8, 0x00#8, 0x01#8, 0x84#8, 0x0A#8] =
    .ok (.reqRhr 0x01#8 0x0000#16 0x0001#16) ∧
  decode .req [0x01#8, 0x06#8, 0x01#8, 0x2C#8, 0x00#8, 0x64#8, 0x48#8, 0x14#8] =
    .ok (.reqWsr 0x01#8 0x012C#16 0x0064#16) ∧
  decode .req [0x11#8, 0x10#8, 0x00#8, 0x01#8, 0x00#8, 0x02#8, 0x04#8, 0x00#8, 0x0A#8, 0x01#8, 0x02#8, 0xC6#8,
    0xF0#8] = .ok (.reqWmr 0x11#8 0x0001#16 [0x000A#16, 0x0102#16]) ∧
  decode .rsp [0x01#8, 0x03#8, 0x02#8, 0x03#8, 0xED#8, 0x78#8, 0xF9#8] = .ok (.rspRhr 0x01#8 [0x03ED#16]) ∧
  decode .rsp [0x01#8, 0x86#8, 0x02#8, 0xC3#8, 0xA1#8] = .ok (.rspExc 0x01#8 0x86#8 0x02#8) ∧
  decode .rsp [0x11#8, 0x10#8, 0x00#8, 0x01#8, 0x00#8, 0x02#8, 0x12#8, 0x98#8] =
    .ok (.rspWmr 0x11#8 0x0001#16 0x0002#16)

/-- R18, R297: the instructions outside the SES family change no session state, no captured byte, no time, no transmit
stream, no configuration and no host state, whatever they answer. -/
def Obligations.OnlySessionCommandsTouchTheSession : Prop :=
  ∀ (i : Instr) (s t : State), exec i s = .next t →
    (∀ baud parity stop timeout, i ≠ .sesOpen baud parity stop timeout) → i ≠ .sesClose →
    (∀ frame timeout, i ≠ .sesXchg frame timeout) →
      t = { s with
        crc := t.crc, k := t.k, val := t.val, txbuf := t.txbuf, txlen := t.txlen, res := t.res
        written := { s.written with val := t.written.val, res := t.written.res } }

/-- R23, R24, R325: who writes what. `val` changes only by `CRC.VALIDATE`, `txbuf` and `txlen` only by the encoder and
the request frames (notes/assumptions/1), the transmit stream and `rxbuf` only by `SES.XCHG`, the configuration and the
retry counter only by `SES.OPEN`, and the handle only by `SES.OPEN` and `SES.CLOSE`. -/
def Obligations.EveryRegisterHasItsWriters : Prop :=
  ∀ (i : Instr) (s t : State), exec i s = .next t →
    (t.val ≠ s.val → ∃ buf, i = .crcValidate buf) ∧
    (t.txbuf ≠ s.txbuf ∨ t.txlen ≠ s.txlen →
      (∃ q, i = requestInstr q) ∨ (∃ addr start count, i = .encRhr addr start count) ∨
        (∃ addr reg value, i = .encWsr addr reg value) ∨ ∃ addr start values, i = .encWmr addr start values) ∧
    (t.tx ≠ s.tx ∨ t.rxbuf ≠ s.rxbuf → ∃ frame timeout, i = .sesXchg frame timeout) ∧
    (t.cfg ≠ s.cfg ∨ t.retry ≠ s.retry → ∃ baud parity stop timeout, i = .sesOpen baud parity stop timeout) ∧
    (t.handle ≠ s.handle → i = .sesClose ∨ ∃ baud parity stop timeout, i = .sesOpen baud parity stop timeout)

/-- R38: no step takes time back. -/
def Obligations.TimeNeverDecreases : Prop := ∀ s t : State, step s = .next t → s.now ≤ t.now

/-- R42, R296: in the states a run reaches, the only instruction that faults is `DEC rxbuf` before any
exchange. -/
def Obligations.FaultsOnlyByUnwrittenBuffers : Prop :=
  ∀ (i : Instr) (s : State) (f : Fault), Inv s → exec i s = .fault f →
    ∃ nExp, i = .dec .rxbuf nExp ∧ s.written.rxbuf = false

/-! ## The host layer -/

/-- R264: `physical = raw * scale`, delivered in the open float format. What the raw integer of one register is, and of
two, the spec leaves open (R265): the signedness, the word order and the format are parameters, and two's complement, the
two orders and the formats they range over are the model's (notes/assumptions/17). -/
def Obligations.ToPhysicalMultipliesByScale : Prop :=
  ∀ (m : MapperParams) (e : MapEntry) (a b : U16),
    (∀ vs, toPhysical m e vs = inFormat m.float (exactPhysical m e vs)) ∧
    (e.width = .one → exactPhysical m e [a] = ((if m.signed then a.toInt else (a.toNat : Int)) : Rat) * e.scale) ∧
    (e.width = .two → m.order = .highFirst →
      exactPhysical m e [a, b] = ((if m.signed then (a ++ b).toInt else ((a ++ b).toNat : Int)) : Rat) * e.scale) ∧
    (e.width = .two → m.order = .lowFirst →
      exactPhysical m e [a, b] = ((if m.signed then (b ++ a).toInt else ((b ++ a).toNat : Int)) : Rat) * e.scale) ∧
    (m.float = .exact → ∀ vs, toPhysical m e vs = exactPhysical m e vs)

/-- R263: `MAP.TO_RAW` answers registers whose raw integer is a nearest one to `phys / scale`; it answers `OutOfRange`
only when the nearest integer fits none; and scaling back gives the value up to half a step (D0's property). Exact
rationals, the signedness and the word order are those of notes/assumptions/17. A scale of 0 is outside this statement:
its raw value is free. -/
def Obligations.ToRawRoundsToNearest : Prop :=
  ∀ (m : MapperParams) (e : MapEntry) (phys : Rat), e.scale ≠ 0 →
    (∀ vs, toRaw m e phys = .ok vs →
      vs.length = widthRegs e.width ∧ |(rawInt m e.width vs : Rat) - phys / e.scale| ≤ 1 / 2 ∧
      |exactPhysical m e vs - phys| ≤ |e.scale| / 2) ∧
    (∀ err, toRaw m e phys = .error err → err = .outOfRange ∧
      ∃ r : Int, |(r : Rat) - phys / e.scale| ≤ 1 / 2 ∧ ∀ vs, vs.length = widthRegs e.width → rawInt m e.width vs ≠ r)

/-- From R263 and R264: scaling registers to a physical value and back gives the same registers. It holds exactly because
the model's arithmetic is in exact rationals (notes/assumptions/17), and says nothing of another float format. A scale of
0 is outside this statement: every register then has the physical value 0, whose raw value is free. -/
def Obligations.ToRawInvertsToPhysical : Prop :=
  ∀ (m : MapperParams) (e : MapEntry) (vs : List U16), e.scale ≠ 0 → vs.length = widthRegs e.width →
    toRaw m e (exactPhysical m e vs) = .ok vs

/-- R253, R256, R266: the attempt loop makes at most `MAX_ATTEMPTS` exchanges, each counted in `retry` and each sending
the frame in `txbuf` whole and once: the bytes added to the transmit stream are `retry` copies of it, and none when
`txbuf` is empty or has no value. `CommunicationFailure` carries the count of attempts, which is then `MAX_ATTEMPTS`, and a last
error. -/
def Obligations.AttemptsAreBounded : Prop :=
  ∀ (nExp : Option Nat) (abandonAt : Option Nat) (s t : State) (fin : LoopEnd),
    attempts nExp abandonAt s = .next (t, fin) →
      t.retry ≤ s.host.maxAttempts ∧
      (∀ frame, operandBytes .txbuf s = some frame →
        t.tx.map TimedByte.byte = s.tx.map TimedByte.byte ++ (List.replicate t.retry frame).flatten) ∧
      (s.txlen = 0 ∨ operandBytes .txbuf s = none → t.retry = 0 ∧ t.tx = s.tx) ∧
      ∀ n last, fin = .failed (.communicationFailure n last) → n = s.host.maxAttempts ∧ t.retry = n ∧ last ≠ none

/-- R255: a protocol exception ends the loop at once as `DeviceRejected` with its code, whichever attempt it answers
and however many are left: no further exchange. -/
def Obligations.ProtocolExceptionIsNotRetried : Prop :=
  ∀ (nExp : Option Nat) (abandonAt : Option Nat) (left : Nat) (last : Option AttemptError) (s t : State)
    (fin : AttemptEnd) (addr fc code : Byte), abandonedBy abandonAt s = false →
    attemptOnce nExp s = .next (t, fin) → t.res = .frameError (.protocolException addr fc code) →
      attemptLoop nExp abandonAt (left + 1) last s = .next (t, .failed (.deviceRejected code))

/-- R262: `MAP.RESOLVE` is a lookup in the one of two distinct tables that the variant selects: a name the table holds is
found, what is found has the name asked for and stands in that table, and an unknown name ends the operation, abandoned
later or not, before any frame is built or sent; the attempt count is then 0 (R266). Which of two entries with one name is
found is not said here (notes/assumptions/31). -/
def Obligations.UnknownRegisterSendsNothing : Prop :=
  ∀ (op : DomainOp) (abandonAt : Option Nat) (s : State) (v : Variant) (name : String) (table : List MapEntry),
    table = (match v with | .f4 => s.host.tableF4 | .w93 => s.host.table93) →
    ((∃ e ∈ table, e.name = name) → ∃ e, resolve v name s.host = .ok e) ∧
    (∀ e : MapEntry, resolve v name s.host = .ok e → e.name = name ∧ e ∈ table) ∧
    ((∀ e ∈ table, e.name ≠ name) → resolve v name s.host = .error .unknownRegister ∧
      ((op = .read v name ∨ ∃ phys, op = .write v name phys) →
        runOp op abandonAt s = .next ({ s with retry := 0 }, .error .unknownRegister)))
end

