-- ==== Sys2Proof/Laws/Codec.lean ====
section
/-! SUPPORT. The codec: byte halves and their assembly, the checksum of a frame, runs of 16-bit fields, and each
operand reader against its writer. -/

namespace Sys2Proof.Laws

/-! ### Halves of a 16-bit value -/

theorem pairWord_getLsbD (h l : Byte) (i : Nat) :
    (pairWord h l).getLsbD i = if i < 8 then l.getLsbD i else h.getLsbD (i - 8) :=
  BitVec.getLsbD_append (x := h) (y := l)

@[simp] theorem pairWord_hiByte_loByte (v : U16) : pairWord (hiByte v) (loByte v) = v := by
  apply BitVec.eq_of_getLsbD_eq
  intro i hi
  rw [pairWord_getLsbD]
  split
  · next h => simp [loByte, h]
  · next h => simp [hiByte, show i - 8 < 8 by omega, show 8 + (i - 8) = i by omega]

@[simp] theorem hiByte_pairWord (h l : Byte) : hiByte (pairWord h l) = h := by
  apply BitVec.eq_of_getLsbD_eq
  intro i hi
  rw [hiByte, BitVec.getLsbD_extractLsb', pairWord_getLsbD]
  simp [hi]

@[simp] theorem loByte_pairWord (h l : Byte) : loByte (pairWord h l) = l := by
  apply BitVec.eq_of_getLsbD_eq
  intro i hi
  rw [loByte, BitVec.getLsbD_extractLsb', pairWord_getLsbD]
  simp [hi]

@[simp] theorem wordBytes_length (vs : List U16) : (wordBytes vs).length = 2 * vs.length := by
  induction vs with
  | nil => rfl
  | cons v vs ih => simp only [wordBytes, List.length_cons, ih]; omega

/-! ### The engine and frame checksums -/

/-- The shift counter is 0 after any absorbed byte. -/
@[simp] theorem engineAbsorb_k (e : Engine) (b : Byte) : (engineAbsorb e b).k = 0 := rfl

/-- The shift counter is 0 after any span. -/
@[simp] theorem engineRun_k (bs : Bytes) : (engineRun bs).k = 0 := by
  have h : ∀ (l : Bytes) (e : Engine), e.k = 0 → (l.foldl engineAbsorb e).k = 0 := by
    intro l
    induction l with
    | nil => intro e he; exact he
    | cons b l ih => intro e _; exact ih _ rfl
  exact h bs _ rfl

/-- The shift counter does not enter the accumulator's shifts. -/
theorem engineShifts_crc (n : Nat) (e : Engine) : (engineShifts n e).crc = shift1^[n] e.crc := by
  induction n generalizing e with
  | zero => rfl
  | succ n ih => simp only [engineShifts, ih, engineShift, Function.iterate_succ, Function.comp]

/-- The accumulator after one absorbed byte, as R136 writes it. -/
theorem engineAbsorb_crc (e : Engine) (b : Byte) :
    (engineAbsorb e b).crc = shift1^[8] (e.crc ^^^ b.setWidth 16) := engineShifts_crc _ _

@[simp] theorem codeBytes_length (c : U16) : (codeBytes c).length = 2 := rfl

@[simp] theorem withChecksum_length (body : Bytes) : (withChecksum body).length = body.length + 2 := by
  simp [withChecksum]

@[simp] theorem spanOf_withChecksum (body : Bytes) : spanOf (withChecksum body) = body := by
  simp [spanOf, withChecksum]

@[simp] theorem trailingCode_withChecksum (body : Bytes) : trailingCode (withChecksum body) = crcOf body := by
  simp [trailingCode, withChecksum, codeBytes, byteAt, List.getD_eq_getElem?_getD]

/-- A body with its checksum passes the checksum check. -/
@[simp] theorem checksumGood_withChecksum (body : Bytes) : checksumGood (withChecksum body) = true := by
  simp [checksumGood]

/-- A byte of the body is where the body had it. -/
theorem byteAt_withChecksum {body : Bytes} {i : Nat} (h : i < body.length) :
    byteAt (withChecksum body) i = byteAt body i := by
  simp [byteAt, withChecksum, List.getD_eq_getElem?_getD, List.getElem?_append_left h]

/-! ### Runs of 16-bit fields -/

/-- Fields written after a prefix read back from its end. -/
theorem wordsAt_append (pre : Bytes) (vs : List U16) (suf : Bytes) :
    wordsAt (pre ++ (wordBytes vs ++ suf)) pre.length vs.length = vs := by
  induction vs generalizing pre with
  | nil => rfl
  | cons v vs ih =>
    have hw : wordAt (pre ++ (wordBytes (v :: vs) ++ suf)) pre.length = v := by
      simp [wordAt, byteAt, wordBytes, List.getD_eq_getElem?_getD]
    have ht : wordsAt (pre ++ (wordBytes (v :: vs) ++ suf)) (pre.length + 2) vs.length = vs := by
      have := ih (pre ++ [hiByte v, loByte v])
      simpa [wordBytes, List.append_assoc] using this
    simp only [List.length_cons, wordsAt, hw, ht]

/-! ### Operand readers and writers -/

@[simp] theorem readMap_ok {α β : Type} (f : α → β) (a : α) (rest : Bytes) :
    readMap f (.ok (a, rest)) = .ok (f a, rest) := rfl

@[simp] theorem readThen_ok {α β : Type} (a : α) (rest : Bytes) (f : α → Bytes → Reading β) :
    readThen (.ok (a, rest)) f = f a rest := rfl

@[simp] theorem readByte_cons (b : Byte) (rest : Bytes) : readByte (b :: rest) = .ok (b, rest) := rfl

@[simp] theorem readU16_writeU16 (v : U16) (rest : Bytes) : readU16 (writeU16 v ++ rest) = .ok (v, rest) := by
  simp [writeU16, readU16]

theorem readNat_writeNatFuel (fuel n : Nat) (rest : Bytes) (h : n ≤ fuel) :
    readNat (writeNatFuel fuel n ++ rest) = .ok (n, rest) := by
  induction fuel generalizing n with
  | zero =>
    obtain rfl : n = 0 := by omega
    simp [writeNatFuel, readNat]
  | succ f ih =>
    simp only [writeNatFuel]
    split
    · next hn => simp [readNat, BitVec.toNat_ofNat, Nat.mod_eq_of_lt (show n < 256 by omega), hn]
    · next hn =>
      have hb : (BitVec.ofNat 8 (128 + n % 128)).toNat = 128 + n % 128 := by
        rw [BitVec.toNat_ofNat]; omega
      simp only [List.cons_append, readNat, hb, ih (n / 128) (by omega)]
      rw [if_neg (by omega)]
      simp only [readMap_ok, Except.ok.injEq, Prod.mk.injEq, and_true]
      omega

/-- A natural-number operand reads back. -/
@[simp] theorem readNat_writeNat (n : Nat) (rest : Bytes) : readNat (writeNat n ++ rest) = .ok (n, rest) :=
  readNat_writeNatFuel n n rest (Nat.le_refl n)

@[simp] theorem readBytes_append (bs rest : Bytes) : readBytes bs.length (bs ++ rest) = .ok (bs, rest) := by
  induction bs with
  | nil => rfl
  | cons b bs ih => simp [readBytes, ih]

@[simp] theorem readU16s_wordBytes (vs : List U16) (rest : Bytes) :
    readU16s vs.length (wordBytes vs ++ rest) = .ok (vs, rest) := by
  induction vs with
  | nil => rfl
  | cons v vs ih => simp [wordBytes, readU16s, ih]

@[simp] theorem readParity_writeParity (p : Parity) (rest : Bytes) :
    readParity (writeParity p ++ rest) = .ok (p, rest) := by
  cases p <;> simp [writeParity, readParity]

@[simp] theorem readOperand_writeOperand (o : Operand) (rest : Bytes) :
    readOperand (writeOperand o ++ rest) = .ok (o, rest) := by
  cases o <;> simp [writeOperand, readOperand]

@[simp] theorem readTimeout_writeTimeout (t : TimeoutArg) (rest : Bytes) :
    readTimeout (writeTimeout t ++ rest) = .ok (t, rest) := by
  cases t <;> simp [writeTimeout, readTimeout]

/-- An expected count within its range reads back. -/
theorem readExpected_writeExpected (n : Option Nat) (rest : Bytes) (h : expectedOk n = true) :
    readExpected (writeExpected n ++ rest) = .ok (n, rest) := by
  cases n with
  | none => simp [writeExpected, readExpected]
  | some n =>
    have h' : 1 ≤ n ∧ n ≤ 125 := by
      simp only [expectedOk, readCountOk, Bool.and_eq_true] at h
      exact ⟨of_decide_eq_true h.1, of_decide_eq_true h.2⟩
    have ht : (BitVec.ofNat 8 n).toNat = n := by
      rw [BitVec.toNat_ofNat]; exact Nat.mod_eq_of_lt (by omega)
    have hz : BitVec.ofNat 8 n ≠ 0#8 := by
      intro hc
      have := congrArg BitVec.toNat hc
      rw [ht] at this
      simp only [BitVec.toNat_ofNat, Nat.zero_mod] at this
      omega
    simp only [writeExpected, readExpected, List.cons_append, List.nil_append, readByte_cons, readThen_ok, if_neg hz,
      ht, Config.rhrMax, if_pos h'.2]

@[simp] theorem readValues_written (vs : List U16) (rest : Bytes) :
    readValues (writeNat vs.length ++ (wordBytes vs ++ rest)) = .ok (vs, rest) := by
  simp [readValues]

end Sys2Proof.Laws
end

