-- ==== Sys2Proof/Laws/Checksum.lean ====
section
/-! SUPPORT. The checksum as a fold over bytes, its linearity over exclusive-or (40_crc.md rule R136), and when the code
over a whole frame is 0 (R137). -/

namespace Sys2Proof.Laws

/-! ### One shift -/

theorem shift1_xor (a b : U16) : shift1 (a ^^^ b) = shift1 a ^^^ shift1 b := by
  unfold shift1
  have h : (a ^^^ b) >>> 1 = (a >>> 1) ^^^ (b >>> 1) := by
    apply BitVec.eq_of_getLsbD_eq
    intro i hi
    simp
  rw [BitVec.getLsbD_xor, h]
  cases a.getLsbD 0 <;> cases b.getLsbD 0 <;> simp
  · ac_rfl
  · ac_rfl
  · apply BitVec.eq_of_getLsbD_eq
    intro i hi
    simp only [BitVec.getLsbD_xor]
    cases Config.crcPoly.getLsbD i <;> simp

theorem shift1_iterate_xor (n : Nat) (a b : U16) : shift1^[n] (a ^^^ b) = shift1^[n] a ^^^ shift1^[n] b := by
  induction n generalizing a b with
  | zero => rfl
  | succ n ih => simp only [Function.iterate_succ, Function.comp, shift1_xor, ih]

/-- A shift loses nothing: bit 15 of the result tells whether the constant was applied. -/
theorem eq_zero_of_shift1 {x : U16} (h : shift1 x = 0#16) : x = 0#16 := by
  unfold shift1 at h
  split at h
  · have := congrArg (fun v : U16 => v.getLsbD 15) h
    simp [Config.crcPoly] at this
  · next h0 =>
    apply BitVec.eq_of_getLsbD_eq
    intro i hi
    cases i with
    | zero => simpa using h0
    | succ i =>
      have := congrArg (fun v : U16 => v.getLsbD i) h
      simpa [Nat.add_comm] using this

theorem eq_zero_of_shift1_iterate {n : Nat} {x : U16} (h : shift1^[n] x = 0#16) : x = 0#16 := by
  induction n generalizing x with
  | zero => exact h
  | succ n ih => exact eq_zero_of_shift1 (ih h)

/-! ### The code as a fold -/

/-- The accumulator after one absorbed byte. -/
def absorbCode (c : U16) (b : Byte) : U16 := shift1^[8] (c ^^^ b.setWidth 16)

theorem foldl_engineAbsorb_crc (bs : Bytes) (e : Engine) :
    (bs.foldl engineAbsorb e).crc = bs.foldl absorbCode e.crc := by
  induction bs generalizing e with
  | nil => rfl
  | cons b bs ih => simp only [List.foldl_cons, ih, engineAbsorb_crc, absorbCode]

theorem crcOf_eq_foldl (bs : Bytes) : crcOf bs = bs.foldl absorbCode 0xFFFF#16 := foldl_engineAbsorb_crc bs _

/-- A difference in the accumulator travels through a span by shifts alone. -/
theorem foldl_absorbCode_xor (bs : Bytes) (c d : U16) :
    bs.foldl absorbCode (c ^^^ d) = bs.foldl absorbCode c ^^^ (fun x => shift1^[8] x)^[bs.length] d := by
  induction bs generalizing c d with
  | nil => rfl
  | cons b bs ih =>
    rw [List.foldl_cons, List.foldl_cons, List.length_cons, Function.iterate_succ_apply, ← ih]
    congr 1
    unfold absorbCode
    rw [← shift1_iterate_xor]
    congr 1
    ac_rfl

/-! ### Trailing codes -/

@[simp] theorem trailingCode_append (span : Bytes) (lo hi : Byte) :
    trailingCode (span ++ [lo, hi]) = pairWord hi lo := by
  simp [trailingCode, byteAt, List.getD_eq_getElem?_getD]

@[simp] theorem spanOf_append (span : Bytes) (lo hi : Byte) : spanOf (span ++ [lo, hi]) = span := by
  simp [spanOf]

/-- Two bytes or more are a span and its last two bytes. -/
theorem exists_span {bs : Bytes} (h : 2 ≤ bs.length) : ∃ span lo hi, bs = span ++ [lo, hi] := by
  refine ⟨bs.take (bs.length - 2), bs[bs.length - 2], bs[bs.length - 1], ?_⟩
  conv_lhs => rw [← List.take_append_drop (bs.length - 2) bs]
  congr 1
  rw [List.drop_eq_getElem_cons (by omega), List.drop_eq_getElem_cons (by omega), List.drop_of_length_le (by omega)]
  congr 3
  omega

theorem shift1_iterate_high (h : Byte) : shift1^[8] (pairWord h 0#8) = h.setWidth 16 := by
  revert h
  decide

/-- Two bytes absorbed low byte first are sixteen shifts of the accumulator and the code they spell. -/
theorem absorbCode_pair (c : U16) (lo hi : Byte) :
    absorbCode (absorbCode c lo) hi = shift1^[8] (shift1^[8] (c ^^^ pairWord hi lo)) := by
  unfold absorbCode
  rw [← shift1_iterate_high hi, ← shift1_iterate_xor]
  congr 2
  rw [BitVec.xor_assoc]
  congr 1
  apply BitVec.eq_of_getLsbD_eq
  intro i hi
  rw [BitVec.getLsbD_xor, pairWord_getLsbD, pairWord_getLsbD, BitVec.getLsbD_setWidth]
  split <;> simp_all

/-- The code over a span and two bytes after it is 0 exactly when they are the span's code, low byte first. -/
theorem crcOf_append_eq_zero (span : Bytes) (lo hi : Byte) :
    crcOf (span ++ [lo, hi]) = 0#16 ↔ crcOf span = pairWord hi lo := by
  rw [crcOf_eq_foldl, crcOf_eq_foldl, List.foldl_append]
  simp only [List.foldl_cons, List.foldl_nil]
  rw [absorbCode_pair]
  constructor
  · intro h
    exact BitVec.xor_eq_zero_iff.mp (eq_zero_of_shift1_iterate (eq_zero_of_shift1_iterate h))
  · intro h
    rw [h, BitVec.xor_self]
    decide +kernel

end Sys2Proof.Laws
end

