-- ==== Sys2Proof/Laws/Memory.lean ====
section
/-! SUPPORT. The buffers: what a write changes and what it leaves, that every operation keeps the canonical form, and
runs of bytes. -/

namespace Sys2Proof.Laws

open Sys2Proof.Machine

/-- A write gives the written index its byte and leaves every other index alone. -/
theorem readMem_writeMem (m : Memory) (i j : Nat) (v : Byte) :
    readMem (writeMem m i v) j = if i = j then some v else readMem m j := by
  induction m with
  | nil => simp [writeMem, readMem]
  | cons c m ih =>
    obtain ⟨a, b⟩ := c
    simp only [writeMem]
    split
    · simp [readMem]
    · split
      · next h => subst h; by_cases hj : i = j <;> simp [readMem, hj]
      · next h1 h2 =>
        by_cases ha : a = j
        · subst ha; simp [readMem, h2]
        · simp [readMem, ha, ih]

theorem readMem_writeMem_same (m : Memory) (i : Nat) (v : Byte) : readMem (writeMem m i v) i = some v := by
  simp [readMem_writeMem]

theorem readMem_writeMem_ne (m : Memory) {i j : Nat} (v : Byte) (h : i ≠ j) :
    readMem (writeMem m i v) j = readMem m j := by
  simp [readMem_writeMem, h]

/-- Nothing is listed below the bound a rising list starts from. -/
theorem readMem_of_risingFrom {m : Memory} {lo i : Nat} (h : risingFrom lo m = true) (hi : i < lo) :
    readMem m i = none := by
  induction m generalizing lo with
  | nil => rfl
  | cons c m ih =>
    obtain ⟨a, b⟩ := c
    simp only [risingFrom, Bool.and_eq_true, decide_eq_true_eq] at h
    have : a ≠ i := by omega
    simp [readMem, this, ih h.2 (by omega)]

theorem risingFrom_mono {m : Memory} {lo lo' : Nat} (h : risingFrom lo m = true) (hl : lo' ≤ lo) :
    risingFrom lo' m = true := by
  cases m with
  | nil => rfl
  | cons c m =>
    obtain ⟨a, b⟩ := c
    simp only [risingFrom, Bool.and_eq_true, decide_eq_true_eq] at h ⊢
    exact ⟨by omega, h.2⟩

theorem risingFrom_writeMem {m : Memory} {lo i : Nat} (v : Byte) (h : risingFrom lo m = true) (hi : lo ≤ i) :
    risingFrom lo (writeMem m i v) = true := by
  induction m generalizing lo with
  | nil => simp [writeMem, risingFrom, hi]
  | cons c m ih =>
    obtain ⟨a, b⟩ := c
    simp only [risingFrom, Bool.and_eq_true, decide_eq_true_eq] at h
    simp only [writeMem]
    split
    · simp only [risingFrom, Bool.and_eq_true, decide_eq_true_eq]
      exact ⟨hi, by omega, h.2⟩
    · split
      · next hia => subst hia; simpa [risingFrom] using ⟨hi, h.2⟩
      · simp only [risingFrom, Bool.and_eq_true, decide_eq_true_eq]
        exact ⟨h.1, ih h.2 (by omega)⟩

theorem all_lt_writeMem {m : Memory} {cap i : Nat} (v : Byte) (h : (m.all fun c => decide (c.1 < cap)) = true)
    (hi : i < cap) : ((writeMem m i v).all fun c => decide (c.1 < cap)) = true := by
  induction m with
  | nil => simpa [writeMem] using hi
  | cons c m ih =>
    obtain ⟨a, b⟩ := c
    simp only [List.all_cons, Bool.and_eq_true, decide_eq_true_eq] at h
    simp only [writeMem]
    split
    · simp only [List.all_cons, Bool.and_eq_true, decide_eq_true_eq]
      exact ⟨hi, h.1, h.2⟩
    · split
      · simp only [List.all_cons, Bool.and_eq_true, decide_eq_true_eq]
        exact ⟨hi, h.2⟩
      · simp only [List.all_cons, Bool.and_eq_true, decide_eq_true_eq]
        exact ⟨h.1, ih h.2⟩

/-- A write below the capacity keeps the canonical form. -/
theorem memoryWf_writeMem {m : Memory} {cap i : Nat} (v : Byte) (h : memoryWf cap m = true) (hi : i < cap) :
    memoryWf cap (writeMem m i v) = true := by
  simp only [memoryWf, Bool.and_eq_true] at h ⊢
  exact ⟨risingFrom_writeMem v h.1 (Nat.zero_le i), all_lt_writeMem v h.2 hi⟩

/-- The empty buffer is in canonical form. -/
theorem memoryWf_nil (cap : Nat) : memoryWf cap [] = true := rfl

/-- A run of bytes that ends below the capacity keeps the canonical form. -/
theorem memoryWf_writeRun {m : Memory} {cap i : Nat} {bs : Bytes} (h : memoryWf cap m = true)
    (hi : i + bs.length ≤ cap) : memoryWf cap (writeRun m i bs) = true := by
  induction bs generalizing m i with
  | nil => exact h
  | cons b bs ih =>
    simp only [List.length_cons] at hi
    exact ih (memoryWf_writeMem b h (by omega)) (by omega)

/-- A run of bytes leaves every index before it alone. -/
theorem readMem_writeRun_lt {m : Memory} {i j : Nat} {bs : Bytes} (h : j < i) :
    readMem (writeRun m i bs) j = readMem m j := by
  induction bs generalizing m i with
  | nil => rfl
  | cons b bs ih =>
    rw [writeRun, ih (by omega), readMem_writeMem_ne m b (by omega)]

/-- What a run of bytes wrote reads back. -/
theorem readRun_writeRun (m : Memory) (i : Nat) (bs : Bytes) :
    readRun (writeRun m i bs) i bs.length = some bs := by
  induction bs generalizing m i with
  | nil => rfl
  | cons b bs ih =>
    have hb : readMem (writeRun (writeMem m i b) (i + 1) bs) i = some b := by
      rw [readMem_writeRun_lt (by omega), readMem_writeMem_same]
    simp only [writeRun, List.length_cons, readRun, hb, ih]

/-- A read run has the length asked for. -/
theorem readRun_length {m : Memory} {i n : Nat} {bs : Bytes} (h : readRun m i n = some bs) : bs.length = n := by
  induction n generalizing i bs with
  | zero => simp only [readRun, Option.some.injEq] at h; subst h; rfl
  | succ n ih =>
    simp only [readRun] at h
    split at h
    · next b bs' hb hbs =>
      simp only [Option.some.injEq] at h
      subst h
      simp [ih hbs]
    · cases h

/-- A write at or above the end of a run leaves the run alone. -/
theorem readRun_writeMem_ge {m : Memory} {i n j : Nat} (v : Byte) (h : i + n ≤ j) :
    readRun (writeMem m j v) i n = readRun m i n := by
  induction n generalizing i with
  | zero => rfl
  | succ n ih =>
    simp only [readRun]
    rw [readMem_writeMem_ne m v (by omega), ih (by omega)]

/-- A byte written at the end of a run extends the run by that byte. -/
theorem readRun_writeMem_end {m : Memory} {i n : Nat} {bs : Bytes} (v : Byte) (h : readRun m i n = some bs) :
    readRun (writeMem m (i + n) v) i (n + 1) = some (bs ++ [v]) := by
  induction n generalizing i bs with
  | zero =>
    simp only [readRun, Option.some.injEq] at h
    subst h
    simp [readRun, readMem_writeMem]
  | succ n ih =>
    rw [readRun] at h
    split at h
    · next b bs' hb hbs =>
      simp only [Option.some.injEq] at h
      subst h
      have h1 : readMem (writeMem m (i + (n + 1)) v) i = some b := by
        rw [readMem_writeMem_ne m v (by omega), hb]
      have h2 : readRun (writeMem m (i + (n + 1)) v) (i + 1) (n + 1) = some (bs' ++ [v]) := by
        have := ih hbs
        rwa [show i + 1 + n = i + (n + 1) by omega] at this
      rw [readRun, h1, h2]
      rfl
    · cases h

end Sys2Proof.Laws
end

