-- ==== Sys2Proof/Laws/State.lean ====
section
/-! SUPPORT. One lemma per field for each named update of the state, so that no proof unfolds a record update. -/

namespace Sys2Proof.Laws

open Sys2Proof.Machine

/-! ### setEngine -/

@[simp] theorem setEngine_crc (e : Engine) (s : State) : (setEngine e s).crc = e.crc := rfl
@[simp] theorem setEngine_k (e : Engine) (s : State) : (setEngine e s).k = e.k := rfl
@[simp] theorem setEngine_val (e : Engine) (s : State) : (setEngine e s).val = s.val := rfl
@[simp] theorem setEngine_txbuf (e : Engine) (s : State) : (setEngine e s).txbuf = s.txbuf := rfl
@[simp] theorem setEngine_txlen (e : Engine) (s : State) : (setEngine e s).txlen = s.txlen := rfl
@[simp] theorem setEngine_rxbuf (e : Engine) (s : State) : (setEngine e s).rxbuf = s.rxbuf := rfl
@[simp] theorem setEngine_rxlen (e : Engine) (s : State) : (setEngine e s).rxlen = s.rxlen := rfl
@[simp] theorem setEngine_rxOvf (e : Engine) (s : State) : (setEngine e s).rxOvf = s.rxOvf := rfl
@[simp] theorem setEngine_res (e : Engine) (s : State) : (setEngine e s).res = s.res := rfl
@[simp] theorem setEngine_fsm (e : Engine) (s : State) : (setEngine e s).fsm = s.fsm := rfl
@[simp] theorem setEngine_handle (e : Engine) (s : State) : (setEngine e s).handle = s.handle := rfl
@[simp] theorem setEngine_cfg (e : Engine) (s : State) : (setEngine e s).cfg = s.cfg := rfl
@[simp] theorem setEngine_tLast (e : Engine) (s : State) : (setEngine e s).tLast = s.tLast := rfl
@[simp] theorem setEngine_retry (e : Engine) (s : State) : (setEngine e s).retry = s.retry := rfl
@[simp] theorem setEngine_tTxend (e : Engine) (s : State) : (setEngine e s).tTxend = s.tTxend := rfl
@[simp] theorem setEngine_tAw (e : Engine) (s : State) : (setEngine e s).tAw = s.tAw := rfl
@[simp] theorem setEngine_tDl (e : Engine) (s : State) : (setEngine e s).tDl = s.tDl := rfl
@[simp] theorem setEngine_tRx (e : Engine) (s : State) : (setEngine e s).tRx = s.tRx := rfl
@[simp] theorem setEngine_busy (e : Engine) (s : State) : (setEngine e s).busy = s.busy := rfl
@[simp] theorem setEngine_written (e : Engine) (s : State) : (setEngine e s).written = s.written := rfl
@[simp] theorem setEngine_params (e : Engine) (s : State) : (setEngine e s).params = s.params := rfl
@[simp] theorem setEngine_now (e : Engine) (s : State) : (setEngine e s).now = s.now := rfl
@[simp] theorem setEngine_line (e : Engine) (s : State) : (setEngine e s).line = s.line := rfl
@[simp] theorem setEngine_tx (e : Engine) (s : State) : (setEngine e s).tx = s.tx := rfl
@[simp] theorem setEngine_port (e : Engine) (s : State) : (setEngine e s).port = s.port := rfl
@[simp] theorem setEngine_host (e : Engine) (s : State) : (setEngine e s).host = s.host := rfl

/-! ### deliver -/

@[simp] theorem deliver_crc (r : Result) (s : State) : (deliver r s).crc = s.crc := rfl
@[simp] theorem deliver_k (r : Result) (s : State) : (deliver r s).k = s.k := rfl
@[simp] theorem deliver_val (r : Result) (s : State) : (deliver r s).val = s.val := rfl
@[simp] theorem deliver_txbuf (r : Result) (s : State) : (deliver r s).txbuf = s.txbuf := rfl
@[simp] theorem deliver_txlen (r : Result) (s : State) : (deliver r s).txlen = s.txlen := rfl
@[simp] theorem deliver_rxbuf (r : Result) (s : State) : (deliver r s).rxbuf = s.rxbuf := rfl
@[simp] theorem deliver_rxlen (r : Result) (s : State) : (deliver r s).rxlen = s.rxlen := rfl
@[simp] theorem deliver_rxOvf (r : Result) (s : State) : (deliver r s).rxOvf = s.rxOvf := rfl
@[simp] theorem deliver_res (r : Result) (s : State) : (deliver r s).res = r := rfl
@[simp] theorem deliver_fsm (r : Result) (s : State) : (deliver r s).fsm = s.fsm := rfl
@[simp] theorem deliver_handle (r : Result) (s : State) : (deliver r s).handle = s.handle := rfl
@[simp] theorem deliver_cfg (r : Result) (s : State) : (deliver r s).cfg = s.cfg := rfl
@[simp] theorem deliver_tLast (r : Result) (s : State) : (deliver r s).tLast = s.tLast := rfl
@[simp] theorem deliver_retry (r : Result) (s : State) : (deliver r s).retry = s.retry := rfl
@[simp] theorem deliver_tTxend (r : Result) (s : State) : (deliver r s).tTxend = s.tTxend := rfl
@[simp] theorem deliver_tAw (r : Result) (s : State) : (deliver r s).tAw = s.tAw := rfl
@[simp] theorem deliver_tDl (r : Result) (s : State) : (deliver r s).tDl = s.tDl := rfl
@[simp] theorem deliver_tRx (r : Result) (s : State) : (deliver r s).tRx = s.tRx := rfl
@[simp] theorem deliver_busy (r : Result) (s : State) : (deliver r s).busy = s.busy := rfl
@[simp] theorem deliver_written (r : Result) (s : State) : (deliver r s).written = { s.written with res := true } := rfl
@[simp] theorem deliver_params (r : Result) (s : State) : (deliver r s).params = s.params := rfl
@[simp] theorem deliver_now (r : Result) (s : State) : (deliver r s).now = s.now := rfl
@[simp] theorem deliver_line (r : Result) (s : State) : (deliver r s).line = s.line := rfl
@[simp] theorem deliver_tx (r : Result) (s : State) : (deliver r s).tx = s.tx := rfl
@[simp] theorem deliver_port (r : Result) (s : State) : (deliver r s).port = s.port := rfl
@[simp] theorem deliver_host (r : Result) (s : State) : (deliver r s).host = s.host := rfl

/-! ### raiseTransport -/

@[simp] theorem raiseTransport_crc (e : TransportError) (s : State) : (raiseTransport e s).crc = s.crc := rfl
@[simp] theorem raiseTransport_k (e : TransportError) (s : State) : (raiseTransport e s).k = s.k := rfl
@[simp] theorem raiseTransport_val (e : TransportError) (s : State) : (raiseTransport e s).val = s.val := rfl
@[simp] theorem raiseTransport_txbuf (e : TransportError) (s : State) : (raiseTransport e s).txbuf = s.txbuf := rfl
@[simp] theorem raiseTransport_txlen (e : TransportError) (s : State) : (raiseTransport e s).txlen = s.txlen := rfl
@[simp] theorem raiseTransport_rxbuf (e : TransportError) (s : State) : (raiseTransport e s).rxbuf = s.rxbuf := rfl
@[simp] theorem raiseTransport_rxlen (e : TransportError) (s : State) : (raiseTransport e s).rxlen = s.rxlen := rfl
@[simp] theorem raiseTransport_rxOvf (e : TransportError) (s : State) : (raiseTransport e s).rxOvf = s.rxOvf := rfl
@[simp] theorem raiseTransport_res (e : TransportError) (s : State) : (raiseTransport e s).res = .transportError e := rfl
@[simp] theorem raiseTransport_fsm (e : TransportError) (s : State) : (raiseTransport e s).fsm = s.fsm := rfl
@[simp] theorem raiseTransport_handle (e : TransportError) (s : State) : (raiseTransport e s).handle = s.handle := rfl
@[simp] theorem raiseTransport_cfg (e : TransportError) (s : State) : (raiseTransport e s).cfg = s.cfg := rfl
@[simp] theorem raiseTransport_tLast (e : TransportError) (s : State) : (raiseTransport e s).tLast = s.tLast := rfl
@[simp] theorem raiseTransport_retry (e : TransportError) (s : State) : (raiseTransport e s).retry = s.retry := rfl
@[simp] theorem raiseTransport_tTxend (e : TransportError) (s : State) : (raiseTransport e s).tTxend = s.tTxend := rfl
@[simp] theorem raiseTransport_tAw (e : TransportError) (s : State) : (raiseTransport e s).tAw = s.tAw := rfl
@[simp] theorem raiseTransport_tDl (e : TransportError) (s : State) : (raiseTransport e s).tDl = s.tDl := rfl
@[simp] theorem raiseTransport_tRx (e : TransportError) (s : State) : (raiseTransport e s).tRx = s.tRx := rfl
@[simp] theorem raiseTransport_busy (e : TransportError) (s : State) : (raiseTransport e s).busy = s.busy := rfl
@[simp] theorem raiseTransport_written (e : TransportError) (s : State) :
    (raiseTransport e s).written = { s.written with res := true } := rfl
@[simp] theorem raiseTransport_params (e : TransportError) (s : State) : (raiseTransport e s).params = s.params := rfl
@[simp] theorem raiseTransport_now (e : TransportError) (s : State) : (raiseTransport e s).now = s.now := rfl
@[simp] theorem raiseTransport_line (e : TransportError) (s : State) : (raiseTransport e s).line = s.line := rfl
@[simp] theorem raiseTransport_tx (e : TransportError) (s : State) : (raiseTransport e s).tx = s.tx := rfl
@[simp] theorem raiseTransport_port (e : TransportError) (s : State) : (raiseTransport e s).port = s.port := rfl
@[simp] theorem raiseTransport_host (e : TransportError) (s : State) : (raiseTransport e s).host = s.host := rfl

/-! ### setVal -/

@[simp] theorem setVal_crc (b : Bool) (s : State) : (setVal b s).crc = s.crc := rfl
@[simp] theorem setVal_k (b : Bool) (s : State) : (setVal b s).k = s.k := rfl
@[simp] theorem setVal_val (b : Bool) (s : State) : (setVal b s).val = b := rfl
@[simp] theorem setVal_txbuf (b : Bool) (s : State) : (setVal b s).txbuf = s.txbuf := rfl
@[simp] theorem setVal_txlen (b : Bool) (s : State) : (setVal b s).txlen = s.txlen := rfl
@[simp] theorem setVal_rxbuf (b : Bool) (s : State) : (setVal b s).rxbuf = s.rxbuf := rfl
@[simp] theorem setVal_rxlen (b : Bool) (s : State) : (setVal b s).rxlen = s.rxlen := rfl
@[simp] theorem setVal_rxOvf (b : Bool) (s : State) : (setVal b s).rxOvf = s.rxOvf := rfl
@[simp] theorem setVal_res (b : Bool) (s : State) : (setVal b s).res = s.res := rfl
@[simp] theorem setVal_fsm (b : Bool) (s : State) : (setVal b s).fsm = s.fsm := rfl
@[simp] theorem setVal_handle (b : Bool) (s : State) : (setVal b s).handle = s.handle := rfl
@[simp] theorem setVal_cfg (b : Bool) (s : State) : (setVal b s).cfg = s.cfg := rfl
@[simp] theorem setVal_tLast (b : Bool) (s : State) : (setVal b s).tLast = s.tLast := rfl
@[simp] theorem setVal_retry (b : Bool) (s : State) : (setVal b s).retry = s.retry := rfl
@[simp] theorem setVal_tTxend (b : Bool) (s : State) : (setVal b s).tTxend = s.tTxend := rfl
@[simp] theorem setVal_tAw (b : Bool) (s : State) : (setVal b s).tAw = s.tAw := rfl
@[simp] theorem setVal_tDl (b : Bool) (s : State) : (setVal b s).tDl = s.tDl := rfl
@[simp] theorem setVal_tRx (b : Bool) (s : State) : (setVal b s).tRx = s.tRx := rfl
@[simp] theorem setVal_busy (b : Bool) (s : State) : (setVal b s).busy = s.busy := rfl
@[simp] theorem setVal_written (b : Bool) (s : State) : (setVal b s).written = { s.written with val := true } := rfl
@[simp] theorem setVal_params (b : Bool) (s : State) : (setVal b s).params = s.params := rfl
@[simp] theorem setVal_now (b : Bool) (s : State) : (setVal b s).now = s.now := rfl
@[simp] theorem setVal_line (b : Bool) (s : State) : (setVal b s).line = s.line := rfl
@[simp] theorem setVal_tx (b : Bool) (s : State) : (setVal b s).tx = s.tx := rfl
@[simp] theorem setVal_port (b : Bool) (s : State) : (setVal b s).port = s.port := rfl
@[simp] theorem setVal_host (b : Bool) (s : State) : (setVal b s).host = s.host := rfl

/-! ### setOverflow -/

@[simp] theorem setOverflow_crc (s : State) : (setOverflow s).crc = s.crc := rfl
@[simp] theorem setOverflow_k (s : State) : (setOverflow s).k = s.k := rfl
@[simp] theorem setOverflow_val (s : State) : (setOverflow s).val = s.val := rfl
@[simp] theorem setOverflow_txbuf (s : State) : (setOverflow s).txbuf = s.txbuf := rfl
@[simp] theorem setOverflow_txlen (s : State) : (setOverflow s).txlen = s.txlen := rfl
@[simp] theorem setOverflow_rxbuf (s : State) : (setOverflow s).rxbuf = s.rxbuf := rfl
@[simp] theorem setOverflow_rxlen (s : State) : (setOverflow s).rxlen = s.rxlen := rfl
@[simp] theorem setOverflow_rxOvf (s : State) : (setOverflow s).rxOvf = true := rfl
@[simp] theorem setOverflow_res (s : State) : (setOverflow s).res = s.res := rfl
@[simp] theorem setOverflow_fsm (s : State) : (setOverflow s).fsm = s.fsm := rfl
@[simp] theorem setOverflow_handle (s : State) : (setOverflow s).handle = s.handle := rfl
@[simp] theorem setOverflow_cfg (s : State) : (setOverflow s).cfg = s.cfg := rfl
@[simp] theorem setOverflow_tLast (s : State) : (setOverflow s).tLast = s.tLast := rfl
@[simp] theorem setOverflow_retry (s : State) : (setOverflow s).retry = s.retry := rfl
@[simp] theorem setOverflow_tTxend (s : State) : (setOverflow s).tTxend = s.tTxend := rfl
@[simp] theorem setOverflow_tAw (s : State) : (setOverflow s).tAw = s.tAw := rfl
@[simp] theorem setOverflow_tDl (s : State) : (setOverflow s).tDl = s.tDl := rfl
@[simp] theorem setOverflow_tRx (s : State) : (setOverflow s).tRx = s.tRx := rfl
@[simp] theorem setOverflow_busy (s : State) : (setOverflow s).busy = s.busy := rfl
@[simp] theorem setOverflow_written (s : State) : (setOverflow s).written = s.written := rfl
@[simp] theorem setOverflow_params (s : State) : (setOverflow s).params = s.params := rfl
@[simp] theorem setOverflow_now (s : State) : (setOverflow s).now = s.now := rfl
@[simp] theorem setOverflow_line (s : State) : (setOverflow s).line = s.line := rfl
@[simp] theorem setOverflow_tx (s : State) : (setOverflow s).tx = s.tx := rfl
@[simp] theorem setOverflow_port (s : State) : (setOverflow s).port = s.port := rfl
@[simp] theorem setOverflow_host (s : State) : (setOverflow s).host = s.host := rfl

/-! ### takeLock -/

@[simp] theorem takeLock_crc (s : State) : (takeLock s).crc = s.crc := rfl
@[simp] theorem takeLock_k (s : State) : (takeLock s).k = s.k := rfl
@[simp] theorem takeLock_val (s : State) : (takeLock s).val = s.val := rfl
@[simp] theorem takeLock_txbuf (s : State) : (takeLock s).txbuf = s.txbuf := rfl
@[simp] theorem takeLock_txlen (s : State) : (takeLock s).txlen = s.txlen := rfl
@[simp] theorem takeLock_rxbuf (s : State) : (takeLock s).rxbuf = s.rxbuf := rfl
@[simp] theorem takeLock_rxlen (s : State) : (takeLock s).rxlen = s.rxlen := rfl
@[simp] theorem takeLock_rxOvf (s : State) : (takeLock s).rxOvf = s.rxOvf := rfl
@[simp] theorem takeLock_res (s : State) : (takeLock s).res = s.res := rfl
@[simp] theorem takeLock_fsm (s : State) : (takeLock s).fsm = s.fsm := rfl
@[simp] theorem takeLock_handle (s : State) : (takeLock s).handle = s.handle := rfl
@[simp] theorem takeLock_cfg (s : State) : (takeLock s).cfg = s.cfg := rfl
@[simp] theorem takeLock_tLast (s : State) : (takeLock s).tLast = s.tLast := rfl
@[simp] theorem takeLock_retry (s : State) : (takeLock s).retry = s.retry := rfl
@[simp] theorem takeLock_tTxend (s : State) : (takeLock s).tTxend = s.tTxend := rfl
@[simp] theorem takeLock_tAw (s : State) : (takeLock s).tAw = s.tAw := rfl
@[simp] theorem takeLock_tDl (s : State) : (takeLock s).tDl = s.tDl := rfl
@[simp] theorem takeLock_tRx (s : State) : (takeLock s).tRx = s.tRx := rfl
@[simp] theorem takeLock_busy (s : State) : (takeLock s).busy = true := rfl
@[simp] theorem takeLock_written (s : State) : (takeLock s).written = s.written := rfl
@[simp] theorem takeLock_params (s : State) : (takeLock s).params = s.params := rfl
@[simp] theorem takeLock_now (s : State) : (takeLock s).now = s.now := rfl
@[simp] theorem takeLock_line (s : State) : (takeLock s).line = s.line := rfl
@[simp] theorem takeLock_tx (s : State) : (takeLock s).tx = s.tx := rfl
@[simp] theorem takeLock_port (s : State) : (takeLock s).port = s.port := rfl
@[simp] theorem takeLock_host (s : State) : (takeLock s).host = s.host := rfl

/-! ### releaseLock -/

@[simp] theorem releaseLock_crc (s : State) : (releaseLock s).crc = s.crc := rfl
@[simp] theorem releaseLock_k (s : State) : (releaseLock s).k = s.k := rfl
@[simp] theorem releaseLock_val (s : State) : (releaseLock s).val = s.val := rfl
@[simp] theorem releaseLock_txbuf (s : State) : (releaseLock s).txbuf = s.txbuf := rfl
@[simp] theorem releaseLock_txlen (s : State) : (releaseLock s).txlen = s.txlen := rfl
@[simp] theorem releaseLock_rxbuf (s : State) : (releaseLock s).rxbuf = s.rxbuf := rfl
@[simp] theorem releaseLock_rxlen (s : State) : (releaseLock s).rxlen = s.rxlen := rfl
@[simp] theorem releaseLock_rxOvf (s : State) : (releaseLock s).rxOvf = s.rxOvf := rfl
@[simp] theorem releaseLock_res (s : State) : (releaseLock s).res = s.res := rfl
@[simp] theorem releaseLock_fsm (s : State) : (releaseLock s).fsm = s.fsm := rfl
@[simp] theorem releaseLock_handle (s : State) : (releaseLock s).handle = s.handle := rfl
@[simp] theorem releaseLock_cfg (s : State) : (releaseLock s).cfg = s.cfg := rfl
@[simp] theorem releaseLock_tLast (s : State) : (releaseLock s).tLast = s.tLast := rfl
@[simp] theorem releaseLock_retry (s : State) : (releaseLock s).retry = s.retry := rfl
@[simp] theorem releaseLock_tTxend (s : State) : (releaseLock s).tTxend = s.tTxend := rfl
@[simp] theorem releaseLock_tAw (s : State) : (releaseLock s).tAw = s.tAw := rfl
@[simp] theorem releaseLock_tDl (s : State) : (releaseLock s).tDl = s.tDl := rfl
@[simp] theorem releaseLock_tRx (s : State) : (releaseLock s).tRx = s.tRx := rfl
@[simp] theorem releaseLock_busy (s : State) : (releaseLock s).busy = false := rfl
@[simp] theorem releaseLock_written (s : State) : (releaseLock s).written = s.written := rfl
@[simp] theorem releaseLock_params (s : State) : (releaseLock s).params = s.params := rfl
@[simp] theorem releaseLock_now (s : State) : (releaseLock s).now = s.now := rfl
@[simp] theorem releaseLock_line (s : State) : (releaseLock s).line = s.line := rfl
@[simp] theorem releaseLock_tx (s : State) : (releaseLock s).tx = s.tx := rfl
@[simp] theorem releaseLock_port (s : State) : (releaseLock s).port = s.port := rfl
@[simp] theorem releaseLock_host (s : State) : (releaseLock s).host = s.host := rfl

/-! ### reach -/

@[simp] theorem reach_crc (t : Nat) (s : State) : (reach t s).crc = s.crc := rfl
@[simp] theorem reach_k (t : Nat) (s : State) : (reach t s).k = s.k := rfl
@[simp] theorem reach_val (t : Nat) (s : State) : (reach t s).val = s.val := rfl
@[simp] theorem reach_txbuf (t : Nat) (s : State) : (reach t s).txbuf = s.txbuf := rfl
@[simp] theorem reach_txlen (t : Nat) (s : State) : (reach t s).txlen = s.txlen := rfl
@[simp] theorem reach_rxbuf (t : Nat) (s : State) : (reach t s).rxbuf = s.rxbuf := rfl
@[simp] theorem reach_rxlen (t : Nat) (s : State) : (reach t s).rxlen = s.rxlen := rfl
@[simp] theorem reach_rxOvf (t : Nat) (s : State) : (reach t s).rxOvf = s.rxOvf := rfl
@[simp] theorem reach_res (t : Nat) (s : State) : (reach t s).res = s.res := rfl
@[simp] theorem reach_fsm (t : Nat) (s : State) : (reach t s).fsm = s.fsm := rfl
@[simp] theorem reach_handle (t : Nat) (s : State) : (reach t s).handle = s.handle := rfl
@[simp] theorem reach_cfg (t : Nat) (s : State) : (reach t s).cfg = s.cfg := rfl
@[simp] theorem reach_tLast (t : Nat) (s : State) : (reach t s).tLast = s.tLast := rfl
@[simp] theorem reach_retry (t : Nat) (s : State) : (reach t s).retry = s.retry := rfl
@[simp] theorem reach_tTxend (t : Nat) (s : State) : (reach t s).tTxend = s.tTxend := rfl
@[simp] theorem reach_tAw (t : Nat) (s : State) : (reach t s).tAw = s.tAw := rfl
@[simp] theorem reach_tDl (t : Nat) (s : State) : (reach t s).tDl = s.tDl := rfl
@[simp] theorem reach_tRx (t : Nat) (s : State) : (reach t s).tRx = s.tRx := rfl
@[simp] theorem reach_busy (t : Nat) (s : State) : (reach t s).busy = s.busy := rfl
@[simp] theorem reach_written (t : Nat) (s : State) : (reach t s).written = s.written := rfl
@[simp] theorem reach_params (t : Nat) (s : State) : (reach t s).params = s.params := rfl
@[simp] theorem reach_now (t : Nat) (s : State) : (reach t s).now = max s.now t := rfl
@[simp] theorem reach_line (t : Nat) (s : State) : (reach t s).line = s.line := rfl
@[simp] theorem reach_tx (t : Nat) (s : State) : (reach t s).tx = s.tx := rfl
@[simp] theorem reach_port (t : Nat) (s : State) : (reach t s).port = s.port := rfl
@[simp] theorem reach_host (t : Nat) (s : State) : (reach t s).host = s.host := rfl

/-! ### clearRetry -/

@[simp] theorem clearRetry_crc (s : State) : (clearRetry s).crc = s.crc := rfl
@[simp] theorem clearRetry_k (s : State) : (clearRetry s).k = s.k := rfl
@[simp] theorem clearRetry_val (s : State) : (clearRetry s).val = s.val := rfl
@[simp] theorem clearRetry_txbuf (s : State) : (clearRetry s).txbuf = s.txbuf := rfl
@[simp] theorem clearRetry_txlen (s : State) : (clearRetry s).txlen = s.txlen := rfl
@[simp] theorem clearRetry_rxbuf (s : State) : (clearRetry s).rxbuf = s.rxbuf := rfl
@[simp] theorem clearRetry_rxlen (s : State) : (clearRetry s).rxlen = s.rxlen := rfl
@[simp] theorem clearRetry_rxOvf (s : State) : (clearRetry s).rxOvf = s.rxOvf := rfl
@[simp] theorem clearRetry_res (s : State) : (clearRetry s).res = s.res := rfl
@[simp] theorem clearRetry_fsm (s : State) : (clearRetry s).fsm = s.fsm := rfl
@[simp] theorem clearRetry_handle (s : State) : (clearRetry s).handle = s.handle := rfl
@[simp] theorem clearRetry_cfg (s : State) : (clearRetry s).cfg = s.cfg := rfl
@[simp] theorem clearRetry_tLast (s : State) : (clearRetry s).tLast = s.tLast := rfl
@[simp] theorem clearRetry_retry (s : State) : (clearRetry s).retry = 0 := rfl
@[simp] theorem clearRetry_tTxend (s : State) : (clearRetry s).tTxend = s.tTxend := rfl
@[simp] theorem clearRetry_tAw (s : State) : (clearRetry s).tAw = s.tAw := rfl
@[simp] theorem clearRetry_tDl (s : State) : (clearRetry s).tDl = s.tDl := rfl
@[simp] theorem clearRetry_tRx (s : State) : (clearRetry s).tRx = s.tRx := rfl
@[simp] theorem clearRetry_busy (s : State) : (clearRetry s).busy = s.busy := rfl
@[simp] theorem clearRetry_written (s : State) : (clearRetry s).written = s.written := rfl
@[simp] theorem clearRetry_params (s : State) : (clearRetry s).params = s.params := rfl
@[simp] theorem clearRetry_now (s : State) : (clearRetry s).now = s.now := rfl
@[simp] theorem clearRetry_line (s : State) : (clearRetry s).line = s.line := rfl
@[simp] theorem clearRetry_tx (s : State) : (clearRetry s).tx = s.tx := rfl
@[simp] theorem clearRetry_port (s : State) : (clearRetry s).port = s.port := rfl
@[simp] theorem clearRetry_host (s : State) : (clearRetry s).host = s.host := rfl

/-! ### countAttempt -/

@[simp] theorem countAttempt_crc (s : State) : (countAttempt s).crc = s.crc := rfl
@[simp] theorem countAttempt_k (s : State) : (countAttempt s).k = s.k := rfl
@[simp] theorem countAttempt_val (s : State) : (countAttempt s).val = s.val := rfl
@[simp] theorem countAttempt_txbuf (s : State) : (countAttempt s).txbuf = s.txbuf := rfl
@[simp] theorem countAttempt_txlen (s : State) : (countAttempt s).txlen = s.txlen := rfl
@[simp] theorem countAttempt_rxbuf (s : State) : (countAttempt s).rxbuf = s.rxbuf := rfl
@[simp] theorem countAttempt_rxlen (s : State) : (countAttempt s).rxlen = s.rxlen := rfl
@[simp] theorem countAttempt_rxOvf (s : State) : (countAttempt s).rxOvf = s.rxOvf := rfl
@[simp] theorem countAttempt_res (s : State) : (countAttempt s).res = s.res := rfl
@[simp] theorem countAttempt_fsm (s : State) : (countAttempt s).fsm = s.fsm := rfl
@[simp] theorem countAttempt_handle (s : State) : (countAttempt s).handle = s.handle := rfl
@[simp] theorem countAttempt_cfg (s : State) : (countAttempt s).cfg = s.cfg := rfl
@[simp] theorem countAttempt_tLast (s : State) : (countAttempt s).tLast = s.tLast := rfl
@[simp] theorem countAttempt_retry (s : State) : (countAttempt s).retry = s.retry + 1 := rfl
@[simp] theorem countAttempt_tTxend (s : State) : (countAttempt s).tTxend = s.tTxend := rfl
@[simp] theorem countAttempt_tAw (s : State) : (countAttempt s).tAw = s.tAw := rfl
@[simp] theorem countAttempt_tDl (s : State) : (countAttempt s).tDl = s.tDl := rfl
@[simp] theorem countAttempt_tRx (s : State) : (countAttempt s).tRx = s.tRx := rfl
@[simp] theorem countAttempt_busy (s : State) : (countAttempt s).busy = s.busy := rfl
@[simp] theorem countAttempt_written (s : State) : (countAttempt s).written = s.written := rfl
@[simp] theorem countAttempt_params (s : State) : (countAttempt s).params = s.params := rfl
@[simp] theorem countAttempt_now (s : State) : (countAttempt s).now = s.now := rfl
@[simp] theorem countAttempt_line (s : State) : (countAttempt s).line = s.line := rfl
@[simp] theorem countAttempt_tx (s : State) : (countAttempt s).tx = s.tx := rfl
@[simp] theorem countAttempt_port (s : State) : (countAttempt s).port = s.port := rfl
@[simp] theorem countAttempt_host (s : State) : (countAttempt s).host = s.host := rfl

/-! ### Engine registers of the state -/

@[simp] theorem engineOf_crc (s : State) : (engineOf s).crc = s.crc := rfl
@[simp] theorem engineOf_k (s : State) : (engineOf s).k = s.k := rfl

end Sys2Proof.Laws
end

