-- ==== Sys2Proof/Laws/Ops.lean ====
section
/-! SUPPORT. What the shared operations do, one lemma each: operands, the encoder's tail and refusals, the decoder on the
state, and the arms that call them. -/

namespace Sys2Proof.Laws

open Sys2Proof.Machine

/-! ### Ranges -/

theorem addrOk_iff {a : Byte} : addrOk a = true ↔ 1 ≤ a.toNat ∧ a.toNat ≤ 247 := by
  unfold addrOk
  rw [Bool.and_eq_true, decide_eq_true_iff, decide_eq_true_iff]
  rfl

theorem readCountOk_iff {n : Nat} : readCountOk n = true ↔ 1 ≤ n ∧ n ≤ 125 := by
  unfold readCountOk
  rw [Bool.and_eq_true, decide_eq_true_iff, decide_eq_true_iff]
  rfl

theorem writeCountOk_iff {n : Nat} : writeCountOk n = true ↔ 1 ≤ n ∧ n ≤ 123 := by
  unfold writeCountOk
  rw [Bool.and_eq_true, decide_eq_true_iff, decide_eq_true_iff]
  rfl

theorem frameLengthOk_iff {n : Nat} : frameLengthOk n = true ↔ 4 ≤ n ∧ n ≤ 256 := by
  unfold frameLengthOk
  rw [Bool.and_eq_true, decide_eq_true_iff, decide_eq_true_iff]
  rfl

/-! ### Operands -/

/-- The length a command checks is the length of the bytes it then reads. -/
theorem operandLen_of_bytes {o : Operand} {s : State} {bs : Bytes} (h : operandBytes o s = some bs) :
    operandLen o s = bs.length := by
  cases o with
  | lit l =>
    simp only [operandBytes, Option.some.injEq] at h
    subst h
    rfl
  | txbuf =>
    exact (readRun_length h).symm
  | rxbuf =>
    simp only [operandBytes] at h
    split at h
    · exact (readRun_length h).symm
    · cases h

/-- Before any `ENC.*` the transmit buffer is the empty sequence (R24, R41). -/
theorem operandBytes_txbuf_empty {s : State} (h : s.txlen = 0) : operandBytes .txbuf s = some [] := by
  simp only [operandBytes, h, readRun]

@[simp] theorem operandBytes_lit (bs : Bytes) (s : State) : operandBytes (.lit bs) s = some bs := rfl
@[simp] theorem operandLen_lit (bs : Bytes) (s : State) : operandLen (.lit bs) s = bs.length := rfl

theorem onBytes_some {o : Operand} {s : State} {bs : Bytes} (h : operandBytes o s = some bs)
    (f : Bytes → Host.Outcome State Fault Refusal) : onBytes o s f = f bs := by
  simp only [onBytes, h]

theorem onBytes_none {o : Operand} {s : State} (h : operandBytes o s = none)
    (f : Bytes → Host.Outcome State Fault Refusal) : onBytes o s f = .fault .noValue := by
  simp only [onBytes, h]

/-- A byte of a run that has a value. -/
theorem readMem_of_readRun {m : Memory} {i n : Nat} {bs : Bytes} (h : readRun m i n = some bs) (j : Nat)
    (hj : j < n) : readMem m (i + j) = bs[j]? := by
  induction n generalizing i bs j with
  | zero => omega
  | succ n ih =>
    rw [readRun] at h
    split at h
    · next b bs' hb hbs =>
      cases h
      cases j with
      | zero => simpa using hb
      | succ j =>
        have := ih hbs j (by omega)
        simpa [Nat.add_assoc, Nat.add_comm 1] using this
    · cases h

/-- A run of bytes leaves every index after it alone. -/
theorem readMem_writeRun_ge {m : Memory} {i j : Nat} {bs : Bytes} (h : i + bs.length ≤ j) :
    readMem (writeRun m i bs) j = readMem m j := by
  induction bs generalizing m i with
  | nil => rfl
  | cons b bs ih =>
    simp only [List.length_cons] at h
    rw [writeRun, ih (by omega), readMem_writeMem_ne _ _ (by omega)]

/-! ### The encoder -/

/-- All of `emit`. -/
theorem emit_eq (body : Bytes) (s : State) :
    emit body s =
      { s with
        txbuf := writeRun [] 0 (withChecksum body)
        txlen := (withChecksum body).length
        crc := crcOf body
        k := 0
        res := .length (withChecksum body).length
        written := { s.written with res := true } } := by
  simp only [emit, deliver, runEngine, setEngine, engineRun_k]
  rfl

/-- What `emit` leaves in the transmit buffer. -/
theorem readRun_emit (body : Bytes) (s : State) :
    readRun (emit body s).txbuf 0 (emit body s).txlen = some (withChecksum body) := by
  rw [emit_eq]
  exact readRun_writeRun _ _ _

/-- The transmit buffer as an operand after `emit`. -/
theorem operandBytes_emit (body : Bytes) (s : State) : operandBytes .txbuf (emit body s) = some (withChecksum body) := by
  exact readRun_emit body s

theorem requestRefusal_eq_none (q : Request) : requestRefusal q = none ↔ q.wf = true := by
  cases q with
  | rhr a _ c =>
    simp only [requestRefusal, Request.wf]
    cases addrOk a <;> cases readCountOk c.toNat <;> simp
  | wsr a _ _ =>
    simp only [requestRefusal, Request.wf]
    cases addrOk a <;> simp
  | wmr a _ vs =>
    simp only [requestRefusal, Request.wf]
    cases addrOk a <;> cases writeCountOk vs.length <;> simp

/-- Everything `encodeRequest` can do. -/
theorem encodeRequest_cases (q : Request) (s : State) :
    (q.wf = true ∧ encodeRequest q s = .next (emit (requestBody q) s)) ∨
    (q.wf = false ∧ ∃ r, requestRefusal q = some r ∧ encodeRequest q s = .refused r) := by
  unfold encodeRequest
  cases hr : requestRefusal q with
  | none => exact .inl ⟨(requestRefusal_eq_none q).mp hr, rfl⟩
  | some r =>
    refine .inr ⟨?_, r, rfl, rfl⟩
    by_contra h
    rw [(requestRefusal_eq_none q).mpr (by simpa using h)] at hr
    cases hr

/-- The request rows and the encoder commands are the one encoder. -/
theorem exec_requestInstr (q : Request) (s : State) : exec (requestInstr q) s = encodeRequest q s := by
  cases q <;> rfl

theorem encodeFor_eq (q : Request) (s : State) : encodeFor q s = encodeRequest q s := by
  cases q <;> rfl

@[simp] theorem requestBody_wmr_length (a : Byte) (st : U16) (vs : List U16) :
    (requestBody (.wmr a st vs)).length = 7 + 2 * vs.length := by
  simp [requestBody]
  omega

/-- The body of a well-formed Request and its checksum fit a frame. -/
theorem requestBody_length {q : Request} (h : q.wf = true) :
    6 ≤ (requestBody q).length ∧ (requestBody q).length ≤ 253 := by
  cases q with
  | rhr a st c => simp [requestBody]
  | wsr a r v => simp [requestBody]
  | wmr a st vs =>
    simp only [Request.wf, Bool.and_eq_true, writeCountOk_iff] at h
    rw [requestBody_wmr_length]
    omega

theorem wordBytes_eq_flatMap (vs : List U16) :
    wordBytes vs = vs.flatMap (fun v => [v.extractLsb' 8 8, v.extractLsb' 0 8]) := by
  induction vs with
  | nil => rfl
  | cons v vs ih => simp [wordBytes, ih, hiByte, loByte]

/-! ### The decoder -/

/-- What `DEC` puts in `res`. -/
def decResult (r : Except FrameError Response) : Result :=
  match r with
  | .ok a => .response a
  | .error e => .frameError e

/-- All of `decodeBytes`. -/
theorem decodeBytes_eq (bs : Bytes) (n : Option Nat) (s : State) :
    decodeBytes bs n s =
      if frameLengthOk bs.length = true then
        { s with
          crc := crcOf (spanOf bs), k := 0, res := decResult (decodeFrame bs n)
          written := { s.written with res := true } }
      else { s with res := decResult (decodeFrame bs n), written := { s.written with res := true } } := by
  simp only [decodeBytes]
  split <;> cases decodeFrame bs n <;> simp [raiseOrDeliver, deliver, decResult, runEngine, setEngine] <;> rfl

/-- The decoder on a body of legal length with its own checksum. -/
theorem decodeBytes_withChecksum {body : Bytes} (n : Option Nat) (s : State) (h2 : 2 ≤ body.length)
    (h254 : body.length ≤ 254) :
    decodeBytes (withChecksum body) n s =
      { s with
        crc := crcOf body, k := 0, res := decResult (decodeArm (withChecksum body) n)
        written := { s.written with res := true } } := by
  have hl : frameLengthOk (withChecksum body).length = true := by
    rw [frameLengthOk_iff, withChecksum_length]
    omega
  rw [decodeBytes_eq, if_pos hl]
  rw [withChecksum_length] at hl
  simp [decodeFrame, hl]

@[simp] theorem wordsAt_length (buf : Bytes) (o n : Nat) : (wordsAt buf o n).length = n := by
  induction n generalizing o with
  | zero => rfl
  | succ n ih => simp only [wordsAt, List.length_cons, ih]

/-- Fields read from a byte offset spell the bytes that stand there. -/
theorem wordBytes_wordsAt (buf : Bytes) (o n : Nat) (h : o + 2 * n ≤ buf.length) :
    wordBytes (wordsAt buf o n) = (buf.drop o).take (2 * n) := by
  induction n generalizing o with
  | zero => simp [wordsAt, wordBytes]
  | succ n ih =>
    simp only [wordsAt, wordBytes, wordAt, hiByte_pairWord, loByte_pairWord]
    rw [ih _ (by omega), List.drop_eq_getElem_cons (show o < buf.length by omega),
      List.drop_eq_getElem_cons (show o + 1 < buf.length by omega), show 2 * (n + 1) = 2 * n + 1 + 1 by omega,
      List.take_succ_cons, List.take_succ_cons]
    simp [byteAt, List.getD_eq_getElem?_getD, show o < buf.length by omega, show o + 1 < buf.length by omega]

/-- Bit 0 of a byte is its parity. -/
theorem getLsbD_zero_eq (b : Byte) : b.getLsbD 0 = decide (b.toNat % 2 = 1) := by
  simp [BitVec.getLsbD, Nat.testBit_zero]

/-! ### Sequencing -/

@[simp] theorem andThen_next {α β : Type} (a : α) (f : α → Host.Outcome β Fault Refusal) :
    andThen (.next a) f = f a := rfl
@[simp] theorem andThen_fault {α β : Type} (e : Fault) (f : α → Host.Outcome β Fault Refusal) :
    andThen (.fault e) f = .fault e := rfl
@[simp] theorem andThen_refused {α β : Type} (r : Refusal) (f : α → Host.Outcome β Fault Refusal) :
    andThen (.refused r) f = .refused r := rfl

/-- A sequence answers a next state only through one of its first part. -/
theorem andThen_eq_next {α β : Type} {o : Host.Outcome α Fault Refusal} {f : α → Host.Outcome β Fault Refusal}
    {b : β} (h : andThen o f = .next b) : ∃ a, o = .next a ∧ f a = .next b := by
  cases o with
  | next a => exact ⟨a, rfl, h⟩
  | fault e => cases h
  | refused r => cases h

/-- Everything `SES.XCHG` can answer. -/
theorem execSesXchg_cases (frame : Operand) (timeout : TimeoutArg) (s : State) :
    (s.handle = .closed ∧ execSesXchg frame timeout s = .refused .closed) ∨
    (s.handle = .opened ∧ sessionBusy s = true ∧ execSesXchg frame timeout s = .refused .busy) ∨
    (s.handle = .opened ∧ sessionBusy s = false ∧ (operandLen frame s = 0 ∨ 256 < operandLen frame s) ∧
      execSesXchg frame timeout s = .refused .badFrameLength) ∨
    (s.handle = .opened ∧ sessionBusy s = false ∧ 1 ≤ operandLen frame s ∧ operandLen frame s ≤ 256 ∧
      operandBytes frame s = none ∧ execSesXchg frame timeout s = .fault .noValue) ∨
    ∃ bs, s.handle = .opened ∧ sessionBusy s = false ∧ operandBytes frame s = some bs ∧ 1 ≤ bs.length ∧
      bs.length ≤ 256 ∧
      execSesXchg frame timeout s =
        .next (exchange { frame := bs, timeout := timeoutTicks timeout s, t0 := s.now, tChar := (charTimes s).1,
                          t35 := (charTimes s).2 } s) := by
  cases hh : s.handle with
  | closed => exact .inl ⟨rfl, by simp [execSesXchg, hh]⟩
  | opened =>
    cases hb : sessionBusy s with
    | true => exact .inr (.inl ⟨rfl, rfl, by simp [execSesXchg, hh, hb]⟩)
    | false =>
      by_cases hl : operandLen frame s = 0 ∨ 256 < operandLen frame s
      · exact .inr (.inr (.inl ⟨rfl, rfl, hl, by simp [execSesXchg, hh, hb, Config.maxFrame, hl]⟩))
      · refine .inr (.inr (.inr ?_))
        have hx : execSesXchg frame timeout s = onBytes frame s fun bs =>
            .next (exchange { frame := bs, timeout := timeoutTicks timeout s, t0 := s.now, tChar := (charTimes s).1,
                              t35 := (charTimes s).2 } s) := by
          simp only [execSesXchg, hh, hb, Config.maxFrame, ne_eq, not_true_eq_false, if_false, Bool.false_eq_true]
          exact if_neg hl
        cases ho : operandBytes frame s with
        | none => exact .inl ⟨rfl, rfl, by omega, by omega, rfl, by rw [hx, onBytes_none ho]⟩
        | some bs =>
          have hlen := operandLen_of_bytes ho
          exact .inr ⟨bs, rfl, rfl, rfl, by omega, by omega, by rw [hx, onBytes_some ho]⟩

end Sys2Proof.Laws
end

