-- ==== Sys2Proof/Laws/Session.lean ====
section
/-! SUPPORT. What one tick of an exchange can do, that an exchange returns, and how a property of every tick becomes one
of the whole exchange. -/

namespace Sys2Proof.Laws

open Sys2Proof.Machine

/-! ### Dropping a byte nobody waits for -/

/-- Everything `dropByte` can do. -/
theorem dropByte_cases (e : TimedByte) (rest : List TimedByte) (s : State) :
    (s.handle = .opened ∧ s.params.staleRx = .track ∧
      dropByte e rest s = { s with line := rest, now := max s.now e.time, tLast := e.time }) ∨
    (¬(s.handle = .opened ∧ s.params.staleRx = .track) ∧
      dropByte e rest s = { s with line := rest, now := max s.now e.time }) := by
  by_cases h : s.handle = .opened ∧ s.params.staleRx = .track
  · exact .inl ⟨h.1, h.2, by simp only [dropByte, if_pos h, reach]⟩
  · exact .inr ⟨h, by simp only [dropByte, if_neg h, reach]⟩

@[simp] theorem dropByte_line (e : TimedByte) (rest : List TimedByte) (s : State) :
    (dropByte e rest s).line = rest := by
  obtain ⟨-, -, h⟩ | ⟨-, h⟩ := dropByte_cases e rest s <;> rw [h]

@[simp] theorem dropByte_now (e : TimedByte) (rest : List TimedByte) (s : State) :
    (dropByte e rest s).now = max s.now e.time := by
  obtain ⟨-, -, h⟩ | ⟨-, h⟩ := dropByte_cases e rest s <;> rw [h]

/-- A dropped byte touches the line, the time and, tracked, the last activity; nothing else. -/
theorem dropByte_frame (e : TimedByte) (rest : List TimedByte) (s : State) :
    dropByte e rest s =
      { s with line := rest, now := max s.now e.time, tLast := (dropByte e rest s).tLast } := by
  obtain ⟨-, -, h⟩ | ⟨-, h⟩ := dropByte_cases e rest s <;> rw [h]

theorem dropUntil_exists (t : Nat) (l : List TimedByte) (s : State) :
    ∃ line now tLast, dropUntil t l s = { s with line := line, now := now, tLast := tLast } := by
  induction l generalizing s with
  | nil => exact ⟨_, _, _, rfl⟩
  | cons e rest ih =>
    simp only [dropUntil]
    split
    · obtain ⟨a, b, c, h⟩ := ih (dropByte e rest s)
      rw [h, dropByte_frame]
      exact ⟨_, _, _, rfl⟩
    · exact ⟨_, _, _, rfl⟩

/-- Bytes dropped up to an instant touch the line, the time and the last activity; nothing else. -/
theorem dropUntil_frame (t : Nat) (l : List TimedByte) (s : State) :
    dropUntil t l s =
      { s with
        line := (dropUntil t l s).line
        now := (dropUntil t l s).now
        tLast := (dropUntil t l s).tLast } := by
  obtain ⟨a, b, c, h⟩ := dropUntil_exists t l s
  rw [h]

/-- The passing of time touches the line, the time and the last activity; nothing else. -/
theorem passTime_frame (t : Nat) (s : State) :
    passTime t s =
      { s with
        line := (passTime t s).line
        now := (passTime t s).now
        tLast := (passTime t s).tLast } := by
  obtain ⟨a, b, c, h⟩ := dropUntil_exists (max s.now t) s.line s
  simp only [passTime, reach, h]

theorem dropUntil_now_le (t : Nat) (l : List TimedByte) (s : State) : s.now ≤ (dropUntil t l s).now := by
  induction l generalizing s with
  | nil => exact Nat.le_refl _
  | cons e rest ih =>
    simp only [dropUntil]
    split
    · exact Nat.le_trans (by simp) (ih _)
    · exact Nat.le_refl _

/-- Time never goes back. -/
theorem passTime_now_le (t : Nat) (s : State) : s.now ≤ (passTime t s).now :=
  Nat.le_trans (dropUntil_now_le (max s.now t) s.line s) (by simp [passTime])

/-! ### One tick -/

/-- Everything a tick can do. -/
theorem tick_cases (x : Exchange) (s : State) :
    (∃ e rest, s.line = e :: rest ∧ s.fsm = .idle ∧ e.time < startTime x s ∧ tick x s = dropByte e rest s) ∨
    (s.fsm = .idle ∧ (∀ e rest, s.line = e :: rest → startTime x s ≤ e.time) ∧
      tick x s = enterTransmitting x s) ∨
    (∃ e rest, s.line = e :: rest ∧ s.fsm = .transmitting ∧ e.time ≤ s.tTxend ∧ tick x s = dropByte e rest s) ∨
    (s.fsm = .transmitting ∧ (∀ e rest, s.line = e :: rest → s.tTxend < e.time) ∧
      tick x s = enterAwaiting x s) ∨
    (∃ e rest, s.line = e :: rest ∧ s.fsm = .awaitingResponse ∧ captures x s e = true ∧
      tick x s = captureByte e rest s) ∨
    (∃ e rest, s.line = e :: rest ∧ s.fsm = .awaitingResponse ∧ captures x s e = false ∧ e.time ≤ s.tAw ∧
      tick x s = dropByte e rest s) ∨
    (s.fsm = .awaitingResponse ∧
      (∀ e rest, s.line = e :: rest → captures x s e = false ∧ s.tAw < e.time) ∧ tick x s = endWait x s) ∨
    (s.fsm = .complete ∧ tick x s = finishComplete s) ∨
    (s.fsm = .timedOut ∧ tick x s = finishTimedOut s) := by
  unfold tick
  cases hf : s.fsm with
  | idle =>
    cases hl : s.line with
    | nil => exact .inr (.inl ⟨rfl, by simp, rfl⟩)
    | cons e rest =>
      by_cases h : e.time < startTime x s
      · exact .inl ⟨e, rest, rfl, rfl, h, by simp only [if_pos h]⟩
      · refine .inr (.inl ⟨rfl, ?_, by simp only [if_neg h]⟩)
        rintro e' rest' h'
        cases h'
        omega
  | transmitting =>
    cases hl : s.line with
    | nil => exact .inr (.inr (.inr (.inl ⟨rfl, by simp, rfl⟩)))
    | cons e rest =>
      by_cases h : e.time ≤ s.tTxend
      · exact .inr (.inr (.inl ⟨e, rest, rfl, rfl, h, by simp only [if_pos h]⟩))
      · refine .inr (.inr (.inr (.inl ⟨rfl, ?_, by simp only [if_neg h]⟩)))
        rintro e' rest' h'
        cases h'
        omega
  | awaitingResponse =>
    cases hl : s.line with
    | nil => exact .inr (.inr (.inr (.inr (.inr (.inr (.inl ⟨rfl, by simp, rfl⟩))))))
    | cons e rest =>
      by_cases hc : captures x s e = true
      · exact .inr (.inr (.inr (.inr (.inl ⟨e, rest, rfl, rfl, hc, by simp only [hc, if_true]⟩))))
      · have hc' : captures x s e = false := by simpa using hc
        by_cases h : e.time ≤ s.tAw
        · exact .inr (.inr (.inr (.inr (.inr (.inl ⟨e, rest, rfl, rfl, hc', h, by
            simp only [hc', if_pos h, Bool.false_eq_true, if_false]⟩)))))
        · refine .inr (.inr (.inr (.inr (.inr (.inr (.inl ⟨rfl, ?_, by
            simp only [hc', if_neg h, Bool.false_eq_true, if_false]⟩))))))
          rintro e' rest' h'
          cases h'
          exact ⟨hc', by omega⟩
  | complete => exact .inr (.inr (.inr (.inr (.inr (.inr (.inr (.inl ⟨rfl, rfl⟩)))))))
  | timedOut => exact .inr (.inr (.inr (.inr (.inr (.inr (.inr (.inr ⟨rfl, rfl⟩)))))))

/-! ### An exchange returns -/

/-- How many transitions are left. -/
def phasesLeft : Fsm → Nat
  | .idle => 4
  | .transmitting => 3
  | .awaitingResponse => 2
  | .complete => 1
  | .timedOut => 1

/-- How many ticks are left at most. -/
def ticksLeft (s : State) : Nat := s.line.length + phasesLeft s.fsm

/-- A tick either ends the exchange in `Idle` or leaves fewer ticks to do. -/
theorem tick_progress (x : Exchange) (s : State) (hb : s.busy = true) :
    ((tick x s).busy = false ∧ (tick x s).fsm = .idle) ∨
    ((tick x s).busy = true ∧ ticksLeft (tick x s) < ticksLeft s) := by
  have hd : ∀ e rest, s.line = e :: rest →
      (dropByte e rest s).busy = true ∧ ticksLeft (dropByte e rest s) < ticksLeft s := by
    intro e rest hl
    rw [dropByte_frame]
    refine ⟨hb, ?_⟩
    simp [ticksLeft, hl]
  obtain ⟨e, rest, hl, -, -, h⟩ | ⟨hf, -, h⟩ | ⟨e, rest, hl, -, -, h⟩ | ⟨hf, -, h⟩ | ⟨e, rest, hl, hf, -, h⟩ |
    ⟨e, rest, hl, -, -, -, h⟩ | ⟨hf, -, h⟩ | ⟨hf, h⟩ | ⟨hf, h⟩ := tick_cases x s
  · rw [h]; exact .inr (hd e rest hl)
  · rw [h]; exact .inr ⟨hb, by simp [enterTransmitting, ticksLeft, hf, phasesLeft]⟩
  · rw [h]; exact .inr (hd e rest hl)
  · rw [h]; exact .inr ⟨hb, by simp [enterAwaiting, ticksLeft, hf, phasesLeft]⟩
  · rw [h]
    refine .inr ?_
    simp only [captureByte]
    split <;> simp [ticksLeft, hf, hl, hb, phasesLeft]
  · rw [h]; exact .inr (hd e rest hl)
  · rw [h]
    refine .inr ?_
    simp only [endWait]
    split <;> simp [ticksLeft, hf, hb, phasesLeft]
  · rw [h]; exact .inl ⟨rfl, rfl⟩
  · rw [h]; exact .inl ⟨rfl, rfl⟩

/-- Enough ticks bring an exchange back to `Idle` with the lock released (R219, R225). -/
theorem runExchange_returns (x : Exchange) (n : Nat) (s : State) (hb : s.busy = true) (hn : ticksLeft s ≤ n) :
    (runExchange x n s).busy = false ∧ (runExchange x n s).fsm = .idle := by
  induction n generalizing s with
  | zero =>
    have : 0 < phasesLeft s.fsm := by cases s.fsm <;> decide
    simp only [ticksLeft] at hn
    omega
  | succ n ih =>
    simp only [runExchange, hb, if_true]
    obtain ⟨h1, h2⟩ | ⟨h1, h2⟩ := tick_progress x s hb
    · cases n with
      | zero => exact ⟨h1, h2⟩
      | succ n => simpa [runExchange, h1] using h2
    · exact ih _ h1 (by omega)

/-- The ticks an exchange is given are enough. -/
theorem exchange_returns (x : Exchange) (s : State) (hf : s.fsm = .idle) :
    (exchange x s).busy = false ∧ (exchange x s).fsm = .idle := by
  refine runExchange_returns x _ _ rfl ?_
  simp [ticksLeft, exchangeTicks, issueExchange, hf, phasesLeft]

/-- A property every tick keeps is a property of what the exchange leaves. -/
theorem runExchange_keeps {P : State → Prop} (x : Exchange) (step : ∀ s, P s → P (tick x s)) (n : Nat) (s : State)
    (h : P s) : P (runExchange x n s) := by
  induction n generalizing s with
  | zero => exact h
  | succ n ih =>
    simp only [runExchange]
    split
    · exact ih _ (step s h)
    · exact h

end Sys2Proof.Laws
end

