-- ==== Sys2Proof/Laws/Master.lean ====
section
/-! SUPPORT. What the host's master can do in one attempt and between two, character times, and which caller a step serves. -/

namespace Sys2Proof.Laws

open Sys2Proof.Machine

/-- Everything an attempt that answers can do: the exchange ended in a transport error, or `DEC` ran on what came back. -/
theorem attemptOnce_next {nExp : Option Nat} {s t : State} {fin : AttemptEnd}
    (h : attemptOnce nExp s = .next (t, fin)) :
    ∃ s1, execSesXchg .txbuf .cfgTimeout s = .next s1 ∧
      ((∃ e, s1.res = .transportError e ∧ t = countAttempt s1 ∧ fin = transportEnd e) ∨
       (∃ x, (∀ e, s1.res ≠ .transportError e) ∧ operandBytes .rxbuf (countAttempt s1) = some x ∧
          t = decodeBytes x nExp (countAttempt s1) ∧
          fin = decodedEnd t.host.retryMalformed (decodeFrame x nExp))) := by
  obtain ⟨s1, hx, h⟩ := andThen_eq_next h
  refine ⟨s1, hx, ?_⟩
  simp only [countAttempt_res] at h
  split at h
  · next e he =>
    cases h
    exact .inl ⟨e, he, rfl, rfl⟩
  · next hne =>
    obtain ⟨s3, hd, h⟩ := andThen_eq_next h
    cases h
    cases ho : operandBytes .rxbuf (countAttempt s1) with
    | none =>
      rw [execDec, onBytes_none ho] at hd
      cases hd
    | some x =>
      rw [execDec, onBytes_some ho] at hd
      cases hd
      have hc : capturedBytes (countAttempt s1) = x := by
        simp only [operandBytes] at ho
        split at ho
        · simp only [capturedBytes, ho, Option.getD_some]
        · cases ho
      exact .inr ⟨x, hne, rfl, rfl, by rw [hc]⟩

/-- The backoff touches the line, the time and the last activity; nothing else. -/
theorem waitBackoff_frame (s : State) :
    waitBackoff s =
      { s with
        line := (waitBackoff s).line
        now := (waitBackoff s).now
        tLast := (waitBackoff s).tLast } :=
  passTime_frame _ s

/-- Division rounded up, of something by something. -/
theorem ceilDiv_pos {a b : Nat} (ha : 0 < a) (hb : 0 < b) : 1 ≤ ceilDiv a b := Nat.div_pos (by omega) hb

/-- A character and the silence last at least one tick (R12). -/
theorem charTimes_pos (s : State) : 1 ≤ (charTimes s).1 ∧ 1 ≤ (charTimes s).2 := by
  unfold charTimes
  split
  · exact ⟨PNat.pos _, PNat.pos _⟩
  · next tps _ =>
    have ht := tps.pos
    have hb := s.cfg.baud.pos
    have hp : 0 < bitsPerChar s.cfg := by unfold bitsPerChar; omega
    exact ⟨ceilDiv_pos (by positivity) hb, ceilDiv_pos (by positivity) (by omega)⟩

/-- No queued domain operation goes before a command exactly when the first of them arrived no earlier. -/
theorem requestFirst_eq_false {p : PortItem} {rs : List DomainRequest} :
    requestFirst p rs = false ↔ ∀ r ∈ rs.head?, p.time ≤ r.time := by
  cases rs <;> simp [requestFirst]

/-- Everything a step can be. -/
theorem step_cases (s : State) :
    (∃ p rest, s.port = p :: rest ∧ (∀ r ∈ s.host.requests.head?, p.time ≤ r.time) ∧ step s = runItem p rest s) ∨
    ((∀ p rest, s.port = p :: rest → requestFirst p s.host.requests = true) ∧ step s = runIdle s) := by
  cases hp : s.port with
  | nil => exact .inr ⟨by simp, by simp only [step, hp]⟩
  | cons p rest =>
    cases hr : requestFirst p s.host.requests with
    | false => exact .inl ⟨p, rest, rfl, requestFirst_eq_false.mp hr, by simp only [step, hp, hr]; rfl⟩
    | true =>
      refine .inr ⟨?_, by simp only [step, hp, hr]; rfl⟩
      rintro p' rest' h
      cases h
      exact hr

end Sys2Proof.Laws
end

