-- ==== Sys2Proof/Laws/PerInstr.lean ====
section
/-! SUPPORT. Per instruction: the channel its encoding goes to and the byte there that names it, the command code of
30_encoding.md rule R120 or the function code at offset 1 of a frame (R90, R104). -/

namespace Sys2Proof.Laws.EncodeHead

/-- Which channel, at which offset, which byte. -/
def head : Instr → Channel × Nat × Byte
  | .reqRhr _ _ _ => (.req, 1, 0x03#8)
  | .reqWsr _ _ _ => (.req, 1, 0x06#8)
  | .reqWmr _ _ _ => (.req, 1, 0x10#8)
  | .rspExc _ fc _ => (.rsp, 1, fc)
  | .rspRhr _ _ => (.rsp, 1, 0x03#8)
  | .rspWsr _ _ _ => (.rsp, 1, 0x06#8)
  | .rspWmr _ _ _ => (.rsp, 1, 0x10#8)
  | .crcInit => (.cmd, 0, 0x01#8)
  | .crcAbsorb _ => (.cmd, 0, 0x02#8)
  | .crcRead => (.cmd, 0, 0x03#8)
  | .crcCompute _ => (.cmd, 0, 0x04#8)
  | .crcValidate _ => (.cmd, 0, 0x05#8)
  | .encRhr _ _ _ => (.cmd, 0, 0x10#8)
  | .encWsr _ _ _ => (.cmd, 0, 0x11#8)
  | .encWmr _ _ _ => (.cmd, 0, 0x12#8)
  | .dec _ _ => (.cmd, 0, 0x18#8)
  | .sesOpen _ _ _ _ => (.cmd, 0, 0x20#8)
  | .sesClose => (.cmd, 0, 0x21#8)
  | .sesXchg _ _ => (.cmd, 0, 0x22#8)

/-- The encoding of an instruction goes to its channel and carries its code. -/
def Statement (i : Instr) : Prop :=
  (encode i).1 = (head i).1 ∧ (encode i).2[(head i).2.1]? = some (head i).2.2

theorem reqRhr (addr : Byte) (start count : U16) : Statement (.reqRhr addr start count) := ⟨rfl, rfl⟩
theorem reqWsr (addr : Byte) (reg value : U16) : Statement (.reqWsr addr reg value) := ⟨rfl, rfl⟩
theorem reqWmr (addr : Byte) (start : U16) (values : List U16) : Statement (.reqWmr addr start values) := ⟨rfl, rfl⟩
theorem rspExc (addr fc code : Byte) : Statement (.rspExc addr fc code) := ⟨rfl, rfl⟩
theorem rspRhr (addr : Byte) (values : List U16) : Statement (.rspRhr addr values) := ⟨rfl, rfl⟩
theorem rspWsr (addr : Byte) (reg value : U16) : Statement (.rspWsr addr reg value) := ⟨rfl, rfl⟩
theorem rspWmr (addr : Byte) (start count : U16) : Statement (.rspWmr addr start count) := ⟨rfl, rfl⟩
theorem crcInit : Statement .crcInit := ⟨rfl, rfl⟩
theorem crcAbsorb (b : Byte) : Statement (.crcAbsorb b) := ⟨rfl, rfl⟩
theorem crcRead : Statement .crcRead := ⟨rfl, rfl⟩
theorem crcCompute (span : Operand) : Statement (.crcCompute span) := ⟨rfl, rfl⟩
theorem crcValidate (buf : Operand) : Statement (.crcValidate buf) := ⟨rfl, rfl⟩
theorem encRhr (addr : Byte) (start count : U16) : Statement (.encRhr addr start count) := ⟨rfl, rfl⟩
theorem encWsr (addr : Byte) (reg value : U16) : Statement (.encWsr addr reg value) := ⟨rfl, rfl⟩
theorem encWmr (addr : Byte) (start : U16) (values : List U16) : Statement (.encWmr addr start values) := ⟨rfl, rfl⟩
theorem dec (buf : Operand) (nExp : Option Nat) : Statement (.dec buf nExp) := ⟨rfl, rfl⟩
theorem sesOpen (baud : Nat) (parity : Parity) (stop timeout : Nat) : Statement (.sesOpen baud parity stop timeout) :=
  ⟨rfl, rfl⟩
theorem sesClose : Statement .sesClose := ⟨rfl, rfl⟩
theorem sesXchg (frame : Operand) (timeout : TimeoutArg) : Statement (.sesXchg frame timeout) := ⟨rfl, rfl⟩

end Sys2Proof.Laws.EncodeHead
end

