-- ==== Sys2Proof/Tests/Slice0.lean ====
section
/-! SUPPORT. Tests: the refusal of an ill-formed term by each check, words written out from the encodings of the spec,
small runs whose expected results are the vectors V1 to V74 and P1 to P6 of 95_test_vectors.md or the rule named, and
for every statement with hypotheses a witness that meets them. -/

namespace Sys2Proof.Tests

open Sys2Proof.Machine

set_option Elab.async false

/-! ## Helpers -/

/-- The outcome is a next state with a property. -/
def nextWith (o : Host.Outcome State Fault Refusal) (p : State → Bool) : Bool :=
  match o with
  | .next t => p t
  | _ => false

/-- The outcome is a given refusal. -/
def refusedWith (o : Host.Outcome State Fault Refusal) (r : Refusal) : Bool :=
  match o with
  | .refused r' => r' == r
  | _ => false

/-- The property of a next state as a proposition. -/
theorem exists_of_nextWith {o : Host.Outcome State Fault Refusal} {p : State → Bool} (h : nextWith o p = true) :
    ∃ t, o = .next t ∧ p t = true := by
  cases o with
  | next t => exact ⟨t, rfl, h⟩
  | fault _ => cases h
  | refused _ => cases h

/-- Bytes on the line, the first at a given time and ten ticks apart. -/
def lineFrom : Nat → Bytes → List TimedByte
  | _, [] => []
  | t, b :: bs => { time := t, byte := b } :: lineFrom (t + 10) bs

/-- The bench of the vectors of section 5: an open session with `T_CHAR` = 10 and `T35` = 35. -/
def bench (tLast now : Nat) (line : List TimedByte) : State :=
  { State.reset with
    handle := .opened, tLast := tLast, now := now, line := line
    cfg := { baud := 9600, parity := .none, stop := 1, timeout := 1000 }
    written := { State.reset.written with cfg := true, tLast := true }
    params := { timing := .direct 10 35, staleRx := .discard } }

/-- The same bench with stale bytes tracked. -/
def benchTrack (tLast now : Nat) (line : List TimedByte) : State :=
  { bench tLast now line with params := { timing := .direct 10 35, staleRx := .track } }

/-- The read request of V21. -/
def frameV21 : Bytes := [0x01#8, 0x03#8, 0x00#8, 0x64#8, 0x00#8, 0x01#8, 0xC5#8, 0xD5#8]

/-- The read response of V37. -/
def frameV37 : Bytes := [0x01#8, 0x03#8, 0x02#8, 0x03#8, 0xED#8, 0x78#8, 0xF9#8]

/-- The single-write frame of V22 and V36. -/
def frameV22 : Bytes := [0x01#8, 0x06#8, 0x01#8, 0x2C#8, 0x00#8, 0x64#8, 0x48#8, 0x14#8]

/-- The multiple-write request of V23. -/
def frameV23 : Bytes :=
  [0x11#8, 0x10#8, 0x00#8, 0x01#8, 0x00#8, 0x02#8, 0x04#8, 0x00#8, 0x0A#8, 0x01#8, 0x02#8, 0xC6#8, 0xF0#8]

/-- The multiple-write response of V51. -/
def frameV51 : Bytes := [0x11#8, 0x10#8, 0x00#8, 0x01#8, 0x00#8, 0x02#8, 0x12#8, 0x98#8]

/-- The exception response of V41. -/
def frameV41 : Bytes := [0x01#8, 0x86#8, 0x02#8, 0xC3#8, 0xA1#8]

/-- A state after an exchange that captured the bytes of V37. -/
def received : State :=
  { bench 260 295 [] with
    rxbuf := writeRun [] 0 frameV37, rxlen := 7, written := { (bench 0 0 []).written with rxbuf := true } }

/-- A state after `ENC.RHR 1, 0x0064, 1` (V21). -/
def encoded : State := { bench 0 100 [] with txbuf := writeRun [] 0 frameV21, txlen := 8 }

/-- The exchange the vectors of section 5 make, as its issue fixes it. -/
def xchg100 : Exchange := { frame := frameV21, timeout := 100, t0 := 100, tChar := 10, t35 := 35 }

/-- An exchange in `AwaitingResponse` with one byte captured at 250, its deadline at 280. -/
def awaiting (line : List TimedByte) : State :=
  { bench 250 250 line with
    fsm := .awaitingResponse, busy := true, tTxend := 180, tAw := 180, tDl := 280, tRx := 250
    rxbuf := [(0, 0x55#8)], rxlen := 1 }

/-- A register map entry: one register at 0x0064, scale 1/10 (P1). -/
def entryP1 : MapEntry := { name := "process-value", address := 0x0064#16, width := .one, scale := 1 / 10 }

/-- A port item issued at once. -/
def itemOf (c : Channel) (bs : Bytes) : PortItem := { time := 0, channel := c, bytes := bs }

/-! ## Smoke: each check refuses an ill-formed term -/

theorem test_wf_address_zero : Instr.wf (.reqRhr 0#8 0#16 1#16) = false := by decide
theorem test_wf_address_248 : Instr.wf (.encWsr 248#8 0#16 1#16) = false := by decide
theorem test_wf_read_count_zero : Instr.wf (.encRhr 1#8 0#16 0#16) = false := by decide
theorem test_wf_read_count_126 : Instr.wf (.encRhr 1#8 0#16 126#16) = false := by decide
theorem test_wf_write_count_zero : Instr.wf (.encWmr 1#8 0#16 []) = false := by decide
theorem test_wf_write_count_124 : Instr.wf (.reqWmr 1#8 0#16 (List.replicate 124 0#16)) = false := by decide +kernel
theorem test_wf_exception_flag : Instr.wf (.rspExc 1#8 0x06#8 2#8) = false := by decide
theorem test_wf_response_empty : Instr.wf (.rspRhr 1#8 []) = false := by decide
theorem test_wf_span_empty : Instr.wf (.crcCompute (.lit [])) = false := by decide
theorem test_wf_validate_two_bytes : Instr.wf (.crcValidate (.lit [0x7E#8, 0x80#8])) = false := by decide
theorem test_wf_expected_zero : Instr.wf (.dec .rxbuf (some 0)) = false := by decide
theorem test_wf_expected_126 : Instr.wf (.dec .rxbuf (some 126)) = false := by decide
theorem test_wf_baud_zero : Instr.wf (.sesOpen 0 .none 1 1000) = false := by decide
theorem test_wf_frame_empty : Instr.wf (.sesXchg (.lit []) .cfgTimeout) = false := by decide
theorem test_wf_frame_257 : Instr.wf (.sesXchg (.lit (List.replicate 257 0#8)) .cfgTimeout) = false := by decide +kernel
theorem test_wf_accepts_limits :
    Instr.wf (.encRhr 247#8 0xFFFF#16 125#16) = true ∧ Instr.wf (.encWmr 1#8 0#16 (List.replicate 123 0#16)) = true ∧
    Instr.wf (.sesXchg (.lit (List.replicate 256 0#8)) (.ticks 0)) = true := by decide +kernel

/-! ## Decoding: one word for every constructor, written out from the spec's encoding -/

theorem test_decode_reqRhr : decode .req frameV21 = .ok (.reqRhr 0x01#8 0x0064#16 0x0001#16) := by decide +kernel
theorem test_decode_reqWsr : decode .req frameV22 = .ok (.reqWsr 0x01#8 0x012C#16 0x0064#16) := by decide +kernel
theorem test_decode_reqWmr : decode .req frameV23 = .ok (.reqWmr 0x11#8 0x0001#16 [0x000A#16, 0x0102#16]) := by
  decide +kernel
theorem test_decode_rspExc : decode .rsp frameV41 = .ok (.rspExc 0x01#8 0x86#8 0x02#8) := by decide +kernel
theorem test_decode_rspRhr : decode .rsp frameV37 = .ok (.rspRhr 0x01#8 [0x03ED#16]) := by decide +kernel
theorem test_decode_rspWsr : decode .rsp frameV22 = .ok (.rspWsr 0x01#8 0x012C#16 0x0064#16) := by decide +kernel
theorem test_decode_rspWmr : decode .rsp frameV51 = .ok (.rspWmr 0x11#8 0x0001#16 0x0002#16) := by decide +kernel
theorem test_decode_crcInit : decode .cmd [0x01#8] = .ok .crcInit := by decide
theorem test_decode_crcAbsorb : decode .cmd [0x02#8, 0x41#8] = .ok (.crcAbsorb 0x41#8) := by decide
theorem test_decode_crcRead : decode .cmd [0x03#8] = .ok .crcRead := by decide
theorem test_decode_crcCompute :
    decode .cmd [0x04#8, 0x00#8, 0x02#8, 0x01#8, 0x03#8] = .ok (.crcCompute (.lit [0x01#8, 0x03#8])) := by decide
theorem test_decode_crcValidate : decode .cmd [0x05#8, 0x01#8] = .ok (.crcValidate .txbuf) := by decide
theorem test_decode_encRhr :
    decode .cmd [0x10#8, 0x01#8, 0x00#8, 0x64#8, 0x00#8, 0x01#8] = .ok (.encRhr 0x01#8 0x0064#16 0x0001#16) := by
  decide
theorem test_decode_encWsr :
    decode .cmd [0x11#8, 0x01#8, 0x01#8, 0x2C#8, 0x00#8, 0x64#8] = .ok (.encWsr 0x01#8 0x012C#16 0x0064#16) := by
  decide
theorem test_decode_encWmr :
    decode .cmd [0x12#8, 0x11#8, 0x00#8, 0x01#8, 0x02#8, 0x00#8, 0x0A#8, 0x01#8, 0x02#8] =
      .ok (.encWmr 0x11#8 0x0001#16 [0x000A#16, 0x0102#16]) := by decide
theorem test_decode_dec : decode .cmd [0x18#8, 0x02#8, 0x01#8] = .ok (.dec .rxbuf (some 1)) := by decide
/-- 9600 is 75 * 128 + 0 and 1000 is 7 * 128 + 104, low group first (notes/assumptions/2). -/
theorem test_decode_sesOpen :
    decode .cmd [0x20#8, 0x80#8, 0x4B#8, 0x01#8, 0x01#8, 0xE8#8, 0x07#8] = .ok (.sesOpen 9600 .even 1 1000) := by
  decide
theorem test_decode_sesClose : decode .cmd [0x21#8] = .ok .sesClose := by decide
theorem test_decode_sesXchg : decode .cmd [0x22#8, 0x01#8, 0x01#8] = .ok (.sesXchg .txbuf .cfgTimeout) := by decide

/-- R120: codes the table does not list, a command with an operand missing and one with a byte too many. -/
theorem test_decode_rejects_commands :
    decode .cmd [0x00#8] = .error .unassignedCommand ∧ decode .cmd [0x06#8] = .error .unassignedCommand ∧
    decode .cmd [0x02#8] = .error .missingOperand ∧ decode .cmd [0x01#8, 0x00#8] = .error .trailingBytes ∧
    decode .cmd [0x18#8, 0x02#8, 0x7E#8] = .error .badOperand := by decide
/-- V48 and V46: a bad checksum, and an unsupported function code. -/
theorem test_decode_rejects_frames :
    decode .rsp [0x01#8, 0x03#8, 0x02#8, 0x03#8, 0xED#8, 0x78#8, 0xF8#8] = .error (.frame .checksumMismatch) ∧
    decode .rsp [0x01#8, 0x04#8, 0x02#8, 0x00#8, 0x00#8, 0xB9#8, 0x30#8] = .error (.frame .malformedFrame) ∧
    decode .req frameV37 = .error .notARequest := by decide +kernel

/-- The opcode table's rows that have words of their own (R122). -/
theorem test_tableWord_rows :
    decodeTableWord 16 0x0003 = some (.reqRhr 0#8 0#16 0#16) ∧ decodeTableWord 8 0x80 = some (.rspExc 0#8 0x80#8 0#8) ∧
    decodeTableWord 16 0x0010 = some (.rspWmr 0#8 0#16 0#16) ∧ decodeTableWord 8 0x21 = some .sesClose ∧
    decodeTableWord 8 0x00 = none := by decide +kernel

/-! ## The CRC family -/

/-- R131. -/
theorem test_crcInit : nextWith (exec .crcInit { State.reset with crc := 0x1234#16 }) (fun t => t.crc == 0xFFFF#16) := by
  decide +kernel
/-- V2. -/
theorem test_crcAbsorb : nextWith (exec (.crcAbsorb 0x01#8) State.reset) (fun t => t.crc == 0x807E#16) := by
  decide +kernel
/-- R133: the accumulator is delivered and stays. -/
theorem test_crcRead :
    nextWith (exec .crcRead { State.reset with crc := 0x2140#16 })
      (fun t => t.res == .code 0x2140#16 && t.crc == 0x2140#16) := by decide +kernel
/-- V6, the catalogue check value. -/
theorem test_crcCompute :
    nextWith (exec (.crcCompute (.lit [0x31#8, 0x32#8, 0x33#8, 0x34#8, 0x35#8, 0x36#8, 0x37#8, 0x38#8, 0x39#8]))
      State.reset) (fun t => t.res == .code 0x4B37#16) := by decide +kernel
/-- V19. -/
theorem test_crcCompute_empty : refusedWith (exec (.crcCompute (.lit [])) State.reset) .emptySpan := by decide +kernel
/-- V2a, the shortest legal buffer. -/
theorem test_crcValidate :
    nextWith (exec (.crcValidate (.lit [0x01#8, 0x7E#8, 0x80#8])) State.reset) (fun t => t.val && t.res == .bool true) :=
  by decide +kernel
/-- V7b: the checksum bytes swapped. -/
theorem test_crcValidate_swapped :
    nextWith (exec (.crcValidate (.lit [0x01#8, 0x03#8, 0x00#8, 0x00#8, 0x00#8, 0x01#8, 0x0A#8, 0x84#8])) State.reset)
      (fun t => !t.val && t.res == .bool false) := by decide +kernel

/-! ## The encoder and the request rows -/

/-- V24. -/
theorem test_encRhr :
    nextWith (exec (.encRhr 247#8 0xFFFF#16 125#16) State.reset) (fun t =>
      t.txlen == 8 &&
      readRun t.txbuf 0 8 == some [0xF7#8, 0x03#8, 0xFF#8, 0xFF#8, 0x00#8, 0x7D#8, 0x91#8, 0x59#8]) := by decide +kernel
/-- V29c. -/
theorem test_encRhr_count : refusedWith (exec (.encRhr 1#8 0#16 0#16) State.reset) .badCount := by decide +kernel
/-- V22. -/
theorem test_encWsr :
    nextWith (exec (.encWsr 1#8 0x012C#16 0x0064#16) State.reset) (fun t => readRun t.txbuf 0 t.txlen == some frameV22) :=
  by decide +kernel
/-- V23. -/
theorem test_encWmr :
    nextWith (exec (.encWmr 0x11#8 0x0001#16 [0x000A#16, 0x0102#16]) State.reset)
      (fun t => readRun t.txbuf 0 t.txlen == some frameV23) := by decide +kernel
/-- V21. -/
theorem test_reqRhr :
    nextWith (exec (.reqRhr 1#8 0x0064#16 1#16) State.reset) (fun t => readRun t.txbuf 0 t.txlen == some frameV21) := by
  decide +kernel
/-- V26: the value is not limited. -/
theorem test_reqWsr :
    nextWith (exec (.reqWsr 1#8 0x012C#16 0xFFFF#16) State.reset) (fun t =>
      readRun t.txbuf 0 8 == some [0x01#8, 0x06#8, 0x01#8, 0x2C#8, 0xFF#8, 0xFF#8, 0x48#8, 0x4F#8]) := by decide +kernel
/-- V23. -/
theorem test_reqWmr :
    nextWith (exec (.reqWmr 0x11#8 0x0001#16 [0x000A#16, 0x0102#16]) State.reset) (fun t => t.txlen == 13) := by
  decide +kernel

/-! ## The decoder and the response rows -/

/-- V37. -/
theorem test_dec :
    nextWith (exec (.dec .rxbuf (some 1)) received) (fun t => t.res == .response (.rhr 1#8 [0x03ED#16])) := by
  decide +kernel
/-- V39: one register came, two expected. -/
theorem test_dec_expected :
    nextWith (exec (.dec .rxbuf (some 2)) received) (fun t => t.res == .frameError .malformedFrame) := by decide +kernel
/-- V41. -/
theorem test_rspExc :
    nextWith (exec (.rspExc 1#8 0x86#8 2#8) State.reset)
      (fun t => t.res == .frameError (.protocolException 1#8 0x86#8 2#8) && t.crc == 0xA1C3#16) := by decide +kernel
/-- V59b: 0xFFFF is 65535, not sign-extended, and the address is not checked. -/
theorem test_rspRhr :
    nextWith (exec (.rspRhr 255#8 [0xFFFF#16]) State.reset) (fun t => t.res == .response (.rhr 255#8 [0xFFFF#16])) := by
  decide +kernel
/-- V36. -/
theorem test_rspWsr :
    nextWith (exec (.rspWsr 1#8 0x012C#16 0x0064#16) State.reset)
      (fun t => t.res == .response (.wsr 1#8 0x012C#16 0x0064#16) && t.crc == 0x1448#16) := by decide +kernel
/-- V51. -/
theorem test_rspWmr :
    nextWith (exec (.rspWmr 0x11#8 1#16 2#16) State.reset) (fun t => t.res == .response (.wmr 0x11#8 1#16 2#16)) := by
  decide +kernel

/-! ## The session -/

/-- R201. -/
theorem test_sesOpen :
    nextWith (exec (.sesOpen 9600 .even 1 500) { State.reset with now := 77, retry := 3 }) (fun t =>
      t.handle == .opened && t.tLast == 77 && t.retry == 0 &&
      t.cfg == { baud := 9600, parity := .even, stop := 1, timeout := 500 }) := by decide +kernel
/-- R201's example: 10 bits a character at 9600 baud, 1000 ticks a second. -/
theorem test_charTimes :
    charTimes { bench 0 0 [] with params := { timing := .formula 1000, staleRx := .discard } } = (2, 4) := by
  decide +kernel
/-- R202. -/
theorem test_sesClose : nextWith (exec .sesClose (bench 0 0 [])) (fun t => t.handle == .closed) := by decide +kernel
/-- V64: three bytes before the deadline, no silence. -/
theorem test_sesXchg_truncated :
    nextWith (exec (.sesXchg (.lit frameV21) (.ticks 100)) (bench 0 100 (lineFrom 250 [1#8, 2#8, 3#8, 4#8, 5#8])))
      (fun t => t.res == .transportError (.truncatedResponse [1#8, 2#8, 3#8]) && t.now == 280 && t.tLast == 270) := by
  decide +kernel
/-- V65: the silence ends at the deadline. -/
theorem test_sesXchg_tie :
    nextWith (exec (.sesXchg (.lit frameV21) (.ticks 100)) (bench 0 100 (lineFrom 225 [1#8, 2#8, 3#8])))
      (fun t => t.res == .bytes [1#8, 2#8, 3#8] && t.now == 280 && t.tLast == 245) := by decide +kernel

/-! ## The machine and the host -/

/-- P1, the whole read of the host's master: the value is 100.5. -/
theorem test_master_read :
    nextWith (step { bench 0 0 (lineFrom 200 frameV37) with
        host := { HostSide.reset with
          tableF4 := [entryP1]
          requests := [{ time := 0, op := .read .f4 "process-value", abandonAt := none }] } })
      (fun t => t.host.replies == [.value (201 / 2)] && t.retry == 1 && t.now == 295) := by decide +kernel
/-- P3: three timeouts. -/
theorem test_master_timeouts :
    nextWith (step { bench 0 0 [] with
        host := { HostSide.reset with
          tableF4 := [entryP1], backoff := 50
          requests := [{ time := 0, op := .read .f4 "process-value", abandonAt := none }] } })
      (fun t => t.host.replies == [.error (.communicationFailure 3 (some .noResponse))] && t.now == 3375 &&
        t.tx.length == 24) := by decide +kernel
/-- R328: a command issued at 1000 waits for a read that arrived at 10 (P1's read, on the bench); R36, R266: the read of an
unknown register leaves the attempt count at 0. -/
theorem test_arrival_order :
    nextWith (step { bench 0 0 [] with
        retry := 3, port := [{ time := 1000, channel := .cmd, bytes := [0x03#8] }]
        host := { HostSide.reset with requests := [{ time := 10, op := .read .f4 "unknown", abandonAt := none }] } })
      (fun t => t.host.replies == [.error .unknownRegister] && t.retry == 0 && t.now == 10 && t.port.length == 1) := by
  decide +kernel
/-- R282: status 9 with the attempts and the last error's code, status 10 with the exception code. -/
theorem test_reply_status :
    let failed : DomainReply := .error (.communicationFailure 3 (some .noResponse))
    let rejected : DomainReply := .error (.deviceRejected 0x02#8)
    replyStatus failed = some 9 ∧ replyInfo failed = some 3 ∧ replyLastStatus failed = some 4 ∧
    replyStatus rejected = some 10 ∧ replyInfo rejected = some 2 := by decide
/-- V72's flag on a full buffer: one byte more is dropped and sets it; V60's deadline and last activity at T2. -/
theorem test_overflow_and_T2 :
    (tick xchg100 { awaiting (lineFrom 260 [9#8]) with rxlen := 257 }).rxOvf = true ∧
    (tick xchg100 { enterTransmitting xchg100 (bench 0 100 []) with rxOvf := true }).rxOvf = false ∧
    (tick xchg100 (enterTransmitting xchg100 (bench 0 100 []))).tLast = 180 := by decide +kernel
/-- R120, R296. -/
theorem test_unassigned : refusedWith (step { State.reset with port := [itemOf .cmd [0x07#8]] }) .unassignedCommand := by
  decide +kernel
/-- The table word of `CRC.READ` runs as the first instruction after reset. -/
theorem test_withFetchWord :
    nextWith (step (State.reset.withFetchWord 8 0x03)) (fun t => t.res == .code 0xFFFF#16) := by decide +kernel

/-! ## Witnesses: for every statement with hypotheses, a state and operands that meet them, clause by clause -/

/-- An empty operand; a captured buffer; a literal of one byte. -/
theorem witness_CrcComputeIsInitAbsorbRead :
    operandLen .txbuf State.reset = 0 ∧ operandBytes .rxbuf received = some frameV37 ∧
    operandBytes (.lit [0x41#8]) State.reset = some [0x41#8] := by decide +kernel

/-- Two bytes; the shortest legal buffer, of three. -/
theorem witness_CrcValidateComparesCodes :
    operandLen (.lit [0x7E#8, 0x80#8]) State.reset < 3 ∧
    operandBytes (.lit [0x01#8, 0x7E#8, 0x80#8]) State.reset = some ([0x01#8] ++ [0x7E#8, 0x80#8]) := by decide +kernel

theorem witness_ValidBuffersHaveZeroResidue : 3 ≤ ([0x01#8, 0x7E#8, 0x80#8] : Bytes).length := by decide

/-- V7a, its last bit. -/
theorem witness_SingleBitErrorFailsValidation :
    ∃ t, exec (.crcValidate (.lit frameV21)) State.reset = .next t ∧ t.val = true ∧ 7 < frameV21.length ∧ 7 < 8 := by
  obtain ⟨t, h, hv⟩ := exists_of_nextWith (o := exec (.crcValidate (.lit frameV21)) State.reset)
    (p := fun t => t.val) (by decide +kernel)
  exact ⟨t, h, hv, by decide, by decide⟩

/-- The addresses and counts on both sides of each limit. -/
theorem witness_EncRhrEmitsItsFrame :
    ¬(1 ≤ (0#8).toNat ∧ (0#8).toNat ≤ 247) ∧ ¬(1 ≤ (248#8).toNat ∧ (248#8).toNat ≤ 247) ∧
    (1 ≤ (1#8).toNat ∧ (1#8).toNat ≤ 247) ∧ (1 ≤ (247#8).toNat ∧ (247#8).toNat ≤ 247) ∧
    ¬(1 ≤ (0#16).toNat ∧ (0#16).toNat ≤ 125) ∧ ¬(1 ≤ (126#16).toNat ∧ (126#16).toNat ≤ 125) ∧
    (1 ≤ (1#16).toNat ∧ (1#16).toNat ≤ 125) ∧ (1 ≤ (125#16).toNat ∧ (125#16).toNat ≤ 125) := by decide

theorem witness_EncWsrEmitsItsFrame :
    ¬(1 ≤ (255#8).toNat ∧ (255#8).toNat ≤ 247) ∧ (1 ≤ (247#8).toNat ∧ (247#8).toNat ≤ 247) := by decide

theorem witness_EncWmrEmitsItsFrame :
    ¬(1 ≤ (248#8).toNat ∧ (248#8).toNat ≤ 247) ∧ (1 ≤ (1#8).toNat ∧ (1#8).toNat ≤ 247) ∧
    ¬(1 ≤ ([] : List U16).length ∧ ([] : List U16).length ≤ 123) ∧
    ¬(1 ≤ (List.replicate 124 0#16).length ∧ (List.replicate 124 0#16).length ≤ 123) ∧
    (1 ≤ (List.replicate 123 0#16).length ∧ (List.replicate 123 0#16).length ≤ 123) := by decide +kernel

theorem witness_RequestFramesAreEmitted :
    Request.wf (.rhr 247#8 0xFFFF#16 125#16) = true ∧ Request.wf (.wsr 0#8 0#16 0#16) = false ∧
    Request.wf (.wmr 1#8 0#16 []) = false := by decide

theorem witness_EncodedFramesAreLegal : ∃ t, encodeFor (.rhr 1#8 0x0064#16 1#16) State.reset = .next t := ⟨_, rfl⟩

theorem witness_EncodingIsInjective :
    ∃ t t', encodeFor (.wsr 1#8 2#16 3#16) State.reset = .next t ∧
      encodeFor (.wsr 1#8 2#16 3#16) State.reset = .next t' ∧
      readRun t.txbuf 0 t.txlen = readRun t'.txbuf 0 t'.txlen := ⟨_, _, rfl, rfl, rfl⟩

/-- Three bytes, and 257. -/
theorem witness_DecChecksLengthFirst :
    operandBytes (.lit [0x01#8, 0x03#8, 0x40#8]) State.reset = some [0x01#8, 0x03#8, 0x40#8] ∧
    ([0x01#8, 0x03#8, 0x40#8] : Bytes).length < 4 ∧ 256 < (List.replicate 257 0#8).length := by decide +kernel

/-- V35, of four bytes, and the other end of the range. -/
theorem witness_DecReportsChecksumMismatch :
    operandBytes (.lit [0x01#8, 0x03#8, 0x40#8, 0x20#8]) State.reset =
      some ([0x01#8, 0x03#8] ++ [0x40#8, 0x20#8]) ∧ crcOf [0x01#8, 0x03#8] ≠ 0x20#8 ++ 0x40#8 ∧
    2 ≤ (List.replicate 254 0#8).length ∧ (List.replicate 254 0#8).length ≤ 254 := by decide +kernel

/-- V34 (no payload), V41 (one byte), V45 (two). -/
theorem witness_DecExceptionArm :
    ([0x01#8, 0x83#8, 0x41#8, 0x81#8] : Bytes) = withChecksum [0x01#8, 0x83#8] ∧
    frameV41 = withChecksum [0x01#8, 0x86#8, 0x02#8] ∧
    ([0x01#8, 0x83#8, 0x02#8, 0x00#8, 0xF1#8, 0x50#8] : Bytes) = withChecksum [0x01#8, 0x83#8, 0x02#8, 0x00#8] ∧
    (0x83#8).getLsbD 7 = true ∧ (0x86#8).getLsbD 7 = true := by decide +kernel

/-- V37 meets the first alternative, V54 the second. -/
theorem witness_DecReadArm :
    operandBytes .rxbuf received = some (withChecksum (0x01#8 :: 0x03#8 :: [0x02#8, 0x03#8, 0xED#8])) ∧
    ([0x01#8, 0x03#8, 0x03#8, 0x00#8, 0x01#8, 0x02#8, 0xC5#8, 0xDF#8] : Bytes) =
      withChecksum (0x01#8 :: 0x03#8 :: [0x03#8, 0x00#8, 0x01#8, 0x02#8]) := by decide +kernel

/-- V36, V51, and V58 of a wrong length. -/
theorem witness_DecWriteArms :
    frameV22 = withChecksum (0x01#8 :: 0x06#8 :: [0x01#8, 0x2C#8, 0x00#8, 0x64#8]) ∧
    frameV51 = withChecksum (0x11#8 :: 0x10#8 :: [0x00#8, 0x01#8, 0x00#8, 0x02#8]) ∧
    ([0x01#8, 0x06#8, 0x01#8, 0x2C#8, 0x00#8, 0x54#8, 0x48#8] : Bytes) =
      withChecksum (0x01#8 :: 0x06#8 :: [0x01#8, 0x2C#8, 0x00#8]) := by decide +kernel

/-- V46. -/
theorem witness_DecUnsupportedFunctionIsMalformed :
    ([0x01#8, 0x04#8, 0x02#8, 0x00#8, 0x00#8, 0xB9#8, 0x30#8] : Bytes) =
      withChecksum (0x01#8 :: 0x04#8 :: [0x02#8, 0x00#8, 0x00#8]) ∧
    (0x04#8).getLsbD 7 = false ∧ 0x04#8 ≠ 0x03#8 ∧ 0x04#8 ≠ 0x06#8 ∧ 0x04#8 ≠ 0x10#8 := by decide +kernel

/-- The empty sequence. -/
theorem witness_DecIsTotalAndPure : operandBytes (.lit []) State.reset = some [] := by decide

theorem witness_SingleBitErrorIsChecksumMismatch :
    ∃ t, exec (.crcValidate (.lit frameV37)) State.reset = .next t ∧ t.val = true ∧ 4 ≤ frameV37.length ∧
      frameV37.length ≤ 256 ∧ 6 < frameV37.length ∧ 0 < 8 := by
  obtain ⟨t, h, hv⟩ := exists_of_nextWith (o := exec (.crcValidate (.lit frameV37)) State.reset)
    (p := fun t => t.val) (by decide +kernel)
  exact ⟨t, h, hv, by decide, by decide, by decide, by decide⟩

theorem witness_DecodingEncodedRequests :
    ∃ t t' t'', encodeFor (.wsr 1#8 0x012C#16 0x0064#16) State.reset = .next t ∧
      encodeFor (.rhr 1#8 0x0300#16 1#16) State.reset = .next t' ∧
      encodeFor (.wmr 0x11#8 1#16 [0x000A#16]) State.reset = .next t'' := ⟨_, _, _, rfl, rfl, rfl⟩

/-- One register and 125. -/
theorem witness_ResponseFramesDecodeToTheirFields :
    (1 ≤ ([0x03ED#16] : List U16).length ∧ ([0x03ED#16] : List U16).length ≤ 125) ∧
    (1 ≤ (List.replicate 125 0#16).length ∧ (List.replicate 125 0#16).length ≤ 125) := by decide +kernel

theorem witness_ResponseRowsDeliverTheirResults :
    (0x80#8).getLsbD 7 = true ∧ 1 ≤ (List.replicate 125 0#16).length ∧ (List.replicate 125 0#16).length ≤ 125 := by
  decide +kernel

theorem witness_DecOfUnwrittenBufferHasNoValue :
    State.reset.written.rxbuf = false ∧ State.reset.txlen = 0 ∧ State.reset.written.res = false ∧
    State.reset.written.val = false := by decide

theorem witness_SesOpenConfiguresTheSession :
    (bench 0 0 []).handle = .opened ∧ State.reset.handle = .closed ∧ (0 : Nat) = 0 ∧ 0 < 1 := by decide

theorem witness_SesCloseReleasesTheHandle : (awaiting []).busy = true ∧ State.reset.busy = false := by decide

theorem witness_SesXchgPreconditions :
    State.reset.handle = .closed ∧ (awaiting []).handle = .opened ∧ (awaiting []).fsm ≠ .idle ∧
    (awaiting []).busy = true ∧ (bench 0 0 []).handle = .opened ∧ (bench 0 0 []).busy = false ∧
    (bench 0 0 []).fsm = .idle ∧ operandLen .txbuf (bench 0 0 []) = 0 ∧
    256 < operandLen (.lit (List.replicate 257 0#8)) (bench 0 0 []) := by decide +kernel

/-- The invariant on the bench. -/
theorem bench_inv (tLast now : Nat) (line : List TimedByte) (h : tLast ≤ now) : Inv (bench tLast now line) where
  fsm_idle := rfl
  not_busy := rfl
  k_zero := rfl
  txbuf_wf := rfl
  txbuf_frame := .inl rfl
  rxbuf_wf := rfl
  rxbuf_held := ⟨[], rfl⟩
  rxlen_le := Nat.zero_le _
  rx_unwritten := fun _ => rfl
  open_configured := fun _ => ⟨rfl, rfl, h⟩

theorem witness_SesXchgReturnsToIdle :
    (bench 0 100 []).handle = .opened ∧ (bench 0 100 []).busy = false ∧ (bench 0 100 []).fsm = .idle ∧
    operandBytes (.lit frameV21) (bench 0 100 []) = some frameV21 ∧ 1 ≤ frameV21.length ∧ frameV21.length ≤ 256 :=
  ⟨rfl, rfl, rfl, rfl, by decide, by decide⟩

/-- A line in time order, all of it still to arrive. -/
theorem line_ordered : LineOrdered (lineFrom 250 [1#8, 2#8]) := by
  refine .cons ?_ (.cons (by simp [lineFrom]) .nil)
  intro a ha
  simp only [lineFrom, List.mem_cons, List.not_mem_nil, or_false] at ha
  subst ha
  decide

theorem line_ahead : LineAhead (bench 0 100 (lineFrom 250 [1#8, 2#8])) := by
  intro e he
  simp only [bench, lineFrom, List.mem_cons, List.not_mem_nil, or_false] at he
  rcases he with rfl | rfl <;> decide

theorem witness_ExchangeRefinesOutcomeFunction :
    ∃ t t', (bench 0 100 (lineFrom 250 [1#8, 2#8])).params.staleRx = .discard ∧
      LineOrdered (bench 0 100 (lineFrom 250 [1#8, 2#8])).line ∧
      operandBytes (.lit frameV21) (bench 0 100 (lineFrom 250 [1#8, 2#8])) = some frameV21 ∧
      charTimes (bench 0 100 (lineFrom 250 [1#8, 2#8])) = (10, 35) ∧
      exec (.sesXchg (.lit frameV21) (.ticks 100)) (bench 0 100 (lineFrom 250 [1#8, 2#8])) = .next t ∧
      (bench 0 100 (lineFrom 250 [1#8, 2#8])).cfg.timeout = 1000 ∧
      exec (.sesXchg (.lit frameV21) .cfgTimeout) (bench 0 100 (lineFrom 250 [1#8, 2#8])) = .next t' :=
  ⟨_, _, rfl, line_ordered, rfl, rfl, rfl, rfl, rfl⟩

theorem witness_ExchangeSendsItsFrameOnce :
    ∃ t, LineAhead (bench 0 100 (lineFrom 250 [1#8, 2#8])) ∧ (bench 0 100 (lineFrom 250 [1#8, 2#8])).tLast ≤ 100 ∧
      LineOrdered (bench 0 100 (lineFrom 250 [1#8, 2#8])).line ∧
      operandBytes (.lit frameV21) (bench 0 100 (lineFrom 250 [1#8, 2#8])) = some frameV21 ∧
      charTimes (bench 0 100 (lineFrom 250 [1#8, 2#8])) = (10, 35) ∧
      exec (.sesXchg (.lit frameV21) .cfgTimeout) (bench 0 100 (lineFrom 250 [1#8, 2#8])) = .next t :=
  ⟨_, line_ahead, by decide, line_ordered, rfl, rfl, rfl⟩

theorem witness_ExchangeDurationIsBounded :
    ∃ t, (bench 360 370 []).params.staleRx = .discard ∧ (bench 360 370 []).tLast ≤ (bench 360 370 []).now ∧
      operandBytes (.lit frameV21) (bench 360 370 []) = some frameV21 ∧
      charTimes (bench 360 370 []) = (10, 35) ∧
      (bench 360 370 []).cfg.timeout = 1000 ∧
      exec (.sesXchg (.lit frameV21) .cfgTimeout) (bench 360 370 []) = .next t :=
  ⟨_, rfl, by decide, rfl, rfl, rfl, rfl⟩

theorem witness_ExchangeHasThreeWayOutcome :
    ∃ t, exec (.sesXchg (.lit frameV21) (.ticks 100)) (bench 0 100 (lineFrom 250 [1#8, 2#8])) = .next t := ⟨_, rfl⟩

theorem witness_CapturedBytesArrivedInTheWindow :
    ∃ t, exec (.sesXchg (.lit frameV21) (.ticks 100)) (bench 0 100 (lineFrom 250 [1#8, 2#8])) = .next t ∧
      readRun t.rxbuf 0 t.rxlen = some [1#8, 2#8] := by
  obtain ⟨t, h, hr⟩ := exists_of_nextWith
    (o := exec (.sesXchg (.lit frameV21) (.ticks 100)) (bench 0 100 (lineFrom 250 [1#8, 2#8])))
    (p := fun t => decide (readRun t.rxbuf 0 t.rxlen = some [1#8, 2#8])) (by decide +kernel)
  exact ⟨t, h, of_decide_eq_true hr⟩

/-- A silent line, and a timeout of 0 with bytes on it. -/
theorem witness_SilentLineGivesNoResponse :
    (∃ t, exec (.sesXchg (.lit frameV21) .cfgTimeout) (bench 0 100 []) = .next t) ∧
    (bench 0 100 []).cfg.timeout = 1000 ∧ LineOrdered (bench 0 100 []).line ∧
    (∃ t, exec (.sesXchg (.lit frameV21) (.ticks 0)) (bench 0 100 (lineFrom 250 [1#8, 2#8])) = .next t) ∧
    LineOrdered (lineFrom 250 [1#8, 2#8]) := ⟨⟨_, rfl⟩, rfl, .nil, ⟨_, rfl⟩, line_ordered⟩

/-- One state of every phase of an exchange. -/
theorem witness_OnlyTheTransitionsOfTheTable :
    (awaiting []).busy = true ∧ (awaiting []).fsm = .awaitingResponse ∧
    (takeLock (bench 0 0 [])).busy = true ∧ (takeLock (bench 0 0 [])).fsm = .idle ∧
    (enterTransmitting xchg100 (takeLock (bench 0 100 []))).busy = true ∧
    (enterTransmitting xchg100 (takeLock (bench 0 100 []))).fsm = .transmitting ∧
    (tick xchg100 (awaiting [])).fsm = .timedOut ∧ (tick xchg100 (awaiting [])).busy = true ∧
    (tick xchg100 { awaiting [] with tDl := 285 }).fsm = .complete := by decide +kernel

/-- A byte one tick before the deadline, the same with the buffer full, and a byte at `t_aw`. -/
theorem witness_CaptureStoresOrOverflows :
    let s := awaiting (lineFrom 279 [9#8])
    s.fsm = .awaitingResponse ∧ s.line = { time := 279, byte := 9#8 } :: [] ∧ s.tAw < 279 ∧ 279 < s.tDl ∧
      279 < s.tRx + xchg100.t35 ∧ s.rxlen < 257 ∧ 257 ≤ ({ s with rxlen := 257 } : State).rxlen ∧
      (awaiting (lineFrom 180 [9#8])).line = { time := 180, byte := 9#8 } :: [] ∧
      180 ≤ (awaiting (lineFrom 180 [9#8])).tAw := by decide +kernel

/-- A byte exactly at the deadline. -/
theorem witness_WaitEndsBySilenceOrDeadline :
    (awaiting (lineFrom 280 [9#8])).fsm = .awaitingResponse ∧
    ∀ e rest, (awaiting (lineFrom 280 [9#8])).line = e :: rest →
      (awaiting (lineFrom 280 [9#8])).tAw < e.time ∧ ((awaiting (lineFrom 280 [9#8])).tDl ≤ e.time ∨
        (1 ≤ (awaiting (lineFrom 280 [9#8])).rxlen ∧ (awaiting (lineFrom 280 [9#8])).tRx + xchg100.t35 ≤ e.time)) := by
  refine ⟨rfl, ?_⟩
  intro e rest h
  cases h
  decide

theorem witness_TerminalStatesLatchAndReturn :
    readRun (awaiting []).rxbuf 0 (awaiting []).rxlen = some [0x55#8] ∧
    ({ awaiting [] with fsm := .complete } : State).fsm = .complete ∧
    ({ awaiting [] with fsm := .timedOut } : State).fsm = .timedOut := by decide +kernel

theorem witness_StaleBytesAreDropped :
    (benchTrack 0 100 (lineFrom 250 [1#8, 2#8])).port = [] ∧
    (benchTrack 0 100 (lineFrom 250 [1#8, 2#8])).host.requests = [] ∧
    (benchTrack 0 100 (lineFrom 250 [1#8, 2#8])).line = { time := 250, byte := 1#8 } :: lineFrom 260 [2#8] ∧
    LineOrdered (benchTrack 0 100 (lineFrom 250 [1#8, 2#8])).line ∧ 100 ≤ 250 :=
  ⟨rfl, rfl, rfl, line_ordered, by decide⟩

theorem witness_CharacterTimesFollowTheFormula :
    let s := { bench 0 0 [] with params := { timing := .formula 1000, staleRx := .discard } }
    s.params.timing = .formula 1000 ∧ charTimes s = (2, 4) ∧
    (bench 0 0 []).params.timing = .direct 10 35 := by decide +kernel

theorem witness_EveryStepKeepsTheInvariant :
    Inv (bench 0 100 [{ time := 250, byte := 1#8 }]) ∧ ∃ t, step (bench 0 100 [{ time := 250, byte := 1#8 }]) = .next t :=
  ⟨bench_inv _ _ _ (by decide), ⟨_, rfl⟩⟩

theorem witness_StepRunsTheDecodedInstruction :
    ({ State.reset with port := [itemOf .req frameV21] } : State).port = itemOf .req frameV21 :: [] ∧
    (∀ r ∈ [({ time := 0, op := .read .f4 "x", abandonAt := none } : DomainRequest)].head?,
      (itemOf .req frameV21).time ≤ r.time) ∧
    decode .req frameV21 = .ok (.reqRhr 0x01#8 0x0064#16 0x0001#16) := by decide +kernel

theorem witness_PassingTimeTouchesOnlyTheLine :
    (bench 0 0 []).params.staleRx = .discard ∧ State.reset.handle = .closed := by decide

/-- With a domain operation queued at the same instant. -/
theorem witness_UnassignedCommandsAreRefused :
    let p := itemOf .cmd [0x07#8, 0x01#8]
    let r : DomainRequest := { time := 0, op := .read .f4 "x", abandonAt := none }
    let s : State := { State.reset with port := [p], host := { HostSide.reset with requests := [r] } }
    s.port = p :: [] ∧ (∀ r ∈ s.host.requests.head?, p.time ≤ r.time) ∧ p.channel = .cmd ∧
    p.bytes = 0x07#8 :: [0x01#8] ∧
    0x07#8 ∉ [0x01#8, 0x02#8, 0x03#8, 0x04#8, 0x05#8, 0x10#8, 0x11#8, 0x12#8, 0x18#8, 0x20#8, 0x21#8, 0x22#8] := by
  decide +kernel

theorem witness_DecodeInvertsEncode :
    Instr.wf (.reqWmr 0x11#8 1#16 [0x000A#16, 0x0102#16]) = true ∧ Instr.wf (.rspExc 1#8 0x86#8 2#8) = true ∧
    Instr.wf (.dec (.lit frameV37) (some 125)) = true ∧ Instr.wf (.sesOpen 115200 .odd 2 70000) = true := by decide

theorem witness_OnlySessionCommandsTouchTheSession : ∃ t, exec .crcInit received = .next t := ⟨_, rfl⟩

/-- Each clause has an instruction that does write what it names. -/
theorem witness_EveryRegisterHasItsWriters :
    (∃ t, exec (.crcValidate (.lit frameV37)) State.reset = .next t ∧ t.val ≠ State.reset.val) ∧
    (∃ t, exec (.encWsr 1#8 0#16 0#16) State.reset = .next t ∧ t.txlen ≠ State.reset.txlen) ∧
    (∃ t, exec (.sesXchg (.lit [1#8]) (.ticks 9)) (bench 0 0 []) = .next t ∧ t.tx ≠ []) ∧
    (∃ t, exec (.sesOpen 9600 .none 1 1) State.reset = .next t ∧ t.cfg ≠ State.reset.cfg ∧
      t.handle ≠ State.reset.handle) := by
  refine ⟨?_, ?_, ?_, ?_⟩
  · obtain ⟨t, h, hp⟩ := exists_of_nextWith (o := exec (.crcValidate (.lit frameV37)) State.reset)
      (p := fun t => decide (t.val ≠ State.reset.val)) (by decide +kernel)
    exact ⟨t, h, of_decide_eq_true hp⟩
  · obtain ⟨t, h, hp⟩ := exists_of_nextWith (o := exec (.encWsr 1#8 0#16 0#16) State.reset)
      (p := fun t => decide (t.txlen ≠ State.reset.txlen)) (by decide +kernel)
    exact ⟨t, h, of_decide_eq_true hp⟩
  · obtain ⟨t, h, hp⟩ := exists_of_nextWith (o := exec (.sesXchg (.lit [1#8]) (.ticks 9)) (bench 0 0 []))
      (p := fun t => decide (t.tx ≠ [])) (by decide +kernel)
    exact ⟨t, h, of_decide_eq_true hp⟩
  · obtain ⟨t, h, hp⟩ := exists_of_nextWith (o := exec (.sesOpen 9600 .none 1 1) State.reset)
      (p := fun t => decide (t.cfg ≠ State.reset.cfg ∧ t.handle ≠ State.reset.handle)) (by decide +kernel)
    exact ⟨t, h, of_decide_eq_true hp⟩

theorem witness_TimeNeverDecreases : ∃ t, step (bench 0 0 [{ time := 250, byte := 1#8 }]) = .next t := ⟨_, rfl⟩

theorem witness_FaultsOnlyByUnwrittenBuffers :
    Inv (bench 0 0 []) ∧ exec (.dec .rxbuf none) (bench 0 0 []) = .fault .noValue :=
  ⟨bench_inv _ _ _ (by decide), rfl⟩

theorem witness_ToPhysicalMultipliesByScale :
    entryP1.width = .one ∧ ({ entryP1 with width := .two } : MapEntry).width = .two ∧
    HostSide.reset.mapper.order = .highFirst ∧ HostSide.reset.mapper.float = .exact ∧
    ({ HostSide.reset.mapper with order := .lowFirst } : MapperParams).order = .lowFirst := by decide +kernel

/-- A scale that is not 0, with a value that fits and one that does not. -/
theorem witness_ToRawRoundsToNearest :
    entryP1.scale ≠ 0 ∧ toRaw HostSide.reset.mapper entryP1 (201 / 2) = .ok [0x03ED#16] ∧
    toRaw HostSide.reset.mapper entryP1 6554 = .error .outOfRange := by decide +kernel

theorem witness_ToRawInvertsToPhysical :
    entryP1.scale ≠ 0 ∧ ([0x03ED#16] : List U16).length = widthRegs entryP1.width := by decide +kernel

/-- A silent line: three attempts, and the loop fails. An operation already abandoned: the loop ends with no attempt, with
nothing in `txbuf`, or with a length but no bytes there, as no run leaves it. -/
theorem witness_AttemptsAreBounded :
    operandBytes .txbuf encoded = some frameV21 ∧ (bench 0 0 []).txlen = 0 ∧
    operandBytes .txbuf { bench 0 0 [] with txlen := 1 } = none ∧
    (∃ t, attempts none (some 0) { bench 0 0 [] with txlen := 1 } = .next (t, .givenUp)) ∧
    (∃ t, attempts none (some 0) (bench 0 0 []) = .next (t, .givenUp)) ∧
    ∃ t n last, attempts none none encoded = .next (t, .failed (.communicationFailure n last)) := by
  refine ⟨by decide +kernel, rfl, by decide +kernel, ⟨_, rfl⟩, ⟨_, rfl⟩, ?_⟩
  have h : (match attempts none none encoded with
      | .next (_, .failed (.communicationFailure _ _)) => true
      | _ => false) = true := by decide +kernel
  split at h
  · next t n last heq => exact ⟨t, n, last, heq⟩
  · cases h

/-- The exception response of V41 to the encoded request. -/
theorem witness_ProtocolExceptionIsNotRetried :
    ∃ t fin, abandonedBy none { encoded with line := lineFrom 200 frameV41 } = false ∧
      attemptOnce none { encoded with line := lineFrom 200 frameV41 } = .next (t, fin) ∧
      t.res = .frameError (.protocolException 0x01#8 0x86#8 0x02#8) := by
  have h : (match attemptOnce none { encoded with line := lineFrom 200 frameV41 } with
      | .next (t, _) => decide (t.res = .frameError (.protocolException 0x01#8 0x86#8 0x02#8))
      | _ => false) = true := by decide +kernel
  split at h
  · next t fin heq => exact ⟨t, fin, rfl, heq, of_decide_eq_true h⟩
  · cases h

/-- A name that the selected table holds and the other does not, and a name that neither does. -/
theorem witness_UnknownRegisterSendsNothing :
    let h : HostSide := { HostSide.reset with tableF4 := [entryP1] }
    (∃ e ∈ h.tableF4, e.name = "process-value") ∧ resolve .f4 "process-value" h = .ok entryP1 ∧
    (∀ e ∈ h.table93, e.name ≠ "process-value") ∧ (∀ e ∈ h.tableF4, e.name ≠ "setpoint") := by
  refine ⟨⟨entryP1, .head _, rfl⟩, by decide +kernel, ?_, ?_⟩
  · intro e he
    cases he
  · intro e he
    simp only [List.mem_singleton] at he
    subst he
    decide

end Sys2Proof.Tests
end

section
/-! SUPPORT. The scope family: division rounded up (00_scope.md rule R12), the step of a decoded command (rules R8, R18),
and what the instructions outside the SES family leave alone (60_exceptions.md rule R297). -/

namespace Sys2Proof.Proofs

open Sys2Proof.Machine Sys2Proof.Laws

/-! ### Character times -/

/-- Division rounded up is the least number of ticks that covers `a`: enough, and by less than one tick too much. -/
theorem ceilDiv_mul_bounds (a : Nat) {b : Nat} (hb : 0 < b) : a ≤ ceilDiv a b * b ∧ ceilDiv a b * b < a + b := by
  have hdiv : ceilDiv a b * b + (a + b - 1) % b = a + b - 1 := Nat.div_add_mod' (a + b - 1) b
  have hmod : (a + b - 1) % b < b := Nat.mod_lt _ hb
  omega

theorem charTimes_of_formula {s : State} {tps : PNat} (h : s.params.timing = .formula tps) :
    charTimes s =
      (ceilDiv (bitsPerChar s.cfg * tps) s.cfg.baud, ceilDiv (7 * bitsPerChar s.cfg * tps) (2 * s.cfg.baud)) := by
  simp only [charTimes, h]

theorem charTimes_of_direct {s : State} {tChar t35 : PNat} (h : s.params.timing = .direct tChar t35) :
    charTimes s = ((tChar : Nat), (t35 : Nat)) := by
  simp only [charTimes, h]

/-- Settles O42: the two times of the formula are divisions rounded up. -/
theorem characterTimesFollowTheFormula : Obligations.CharacterTimesFollowTheFormula := by
  intro s
  refine ⟨charTimes_pos s, fun tps h => ?_, fun tChar t35 h => charTimes_of_direct h⟩
  have hbaud : 0 < (s.cfg.baud : Nat) := s.cfg.baud.pos
  rw [charTimes_of_formula h]
  exact ⟨ceilDiv_mul_bounds (bitsPerChar s.cfg * tps) hbaud,
    ceilDiv_mul_bounds (7 * bitsPerChar s.cfg * tps) (by omega)⟩

/-! ### The step of a command -/

/-- A step serves the next command of the port when no queued domain operation arrived before it (R328). -/
theorem step_eq_runItem {s : State} {p : PortItem} {rest : List PortItem} (hp : s.port = p :: rest)
    (hr : ∀ r ∈ s.host.requests.head?, p.time ≤ r.time) : step s = runItem p rest s := by
  simp [step, hp, requestFirst_eq_false.mpr hr]

theorem runItem_of_decode {p : PortItem} {i : Instr} (h : decode p.channel p.bytes = .ok i) (rest : List PortItem)
    (s : State) : runItem p rest s = exec i (issueState p rest s) := by
  simp only [runItem, h]

/-- Settles O46: no caller is before the command, and its bytes decode. -/
theorem stepRunsTheDecodedInstruction : Obligations.StepRunsTheDecodedInstruction := by
  intro s p rest i hp hr hd
  rw [step_eq_runItem hp hr, runItem_of_decode hd]
  rfl

/-! ### What a command that answers has done -/

theorem onBytes_eq_next {o : Operand} {s t : State} {f : Bytes → Host.Outcome State Fault Refusal}
    (h : onBytes o s f = .next t) : ∃ bs, operandBytes o s = some bs ∧ f bs = .next t := by
  cases ho : operandBytes o s with
  | none => rw [onBytes_none ho] at h; cases h
  | some bs => exact ⟨bs, rfl, by rwa [onBytes_some ho] at h⟩

theorem encodeRequest_eq_next {q : Request} {s t : State} (h : encodeRequest q s = .next t) :
    q.wf = true ∧ t = emit (requestBody q) s := by
  obtain ⟨hwf, he⟩ | ⟨-, r, -, he⟩ := encodeRequest_cases q s
  · rw [he] at h; cases h; exact ⟨hwf, rfl⟩
  · rw [he] at h; cases h

theorem execDec_eq_next {o : Operand} {nExp : Option Nat} {s t : State} (h : execDec o nExp s = .next t) :
    ∃ bs, operandBytes o s = some bs ∧ t = decodeBytes bs nExp s := by
  obtain ⟨bs, ho, ht⟩ := onBytes_eq_next h
  cases ht
  exact ⟨bs, ho, rfl⟩

theorem execCrcCompute_eq_next {o : Operand} {s t : State} (h : execCrcCompute o s = .next t) :
    ∃ bs, operandBytes o s = some bs ∧ 1 ≤ bs.length ∧ t = deliver (.code (crcOf bs)) (runEngine bs s) := by
  unfold execCrcCompute at h
  split at h
  · cases h
  · next hlen =>
    obtain ⟨bs, ho, ht⟩ := onBytes_eq_next h
    rw [operandLen_of_bytes ho] at hlen
    cases ht
    exact ⟨bs, ho, by omega, rfl⟩

theorem execCrcValidate_eq_next {o : Operand} {s t : State} (h : execCrcValidate o s = .next t) :
    ∃ bs, operandBytes o s = some bs ∧ 3 ≤ bs.length ∧
      t = deliver (.bool (checksumGood bs)) (setVal (checksumGood bs) (runEngine (spanOf bs) s)) := by
  unfold execCrcValidate at h
  split at h
  · cases h
  · next hlen =>
    obtain ⟨bs, ho, ht⟩ := onBytes_eq_next h
    rw [operandLen_of_bytes ho] at hlen
    cases ht
    exact ⟨bs, ho, by omega, rfl⟩

/-! ### The frame of the instructions outside the SES family -/

/-- `t` is `s` but for the engine, `val`, the transmit buffer and `res`, with the marks of `val` and `res`. -/
def KeepsSession (s t : State) : Prop :=
  t = { s with
    crc := t.crc, k := t.k, val := t.val, txbuf := t.txbuf, txlen := t.txlen, res := t.res
    written := { s.written with val := t.written.val, res := t.written.res } }

theorem keepsSession_emit (body : Bytes) (s : State) : KeepsSession s (emit body s) := by
  rw [emit_eq]
  rfl

theorem keepsSession_decodeBytes (bs : Bytes) (nExp : Option Nat) (s : State) :
    KeepsSession s (decodeBytes bs nExp s) := by
  rw [decodeBytes_eq]
  split <;> rfl

theorem keepsSession_of_encodeRequest {q : Request} {s t : State} (h : encodeRequest q s = .next t) :
    KeepsSession s t := by
  obtain ⟨-, rfl⟩ := encodeRequest_eq_next h
  exact keepsSession_emit _ s

/-- A response row is the decoder on its frame. -/
theorem keepsSession_of_decoded {bs : Bytes} {nExp : Option Nat} {s t : State}
    (h : Host.Outcome.next (φ := Fault) (ρ := Refusal) (decodeBytes bs nExp s) = .next t) : KeepsSession s t := by
  cases h
  exact keepsSession_decodeBytes bs nExp s

/-- Settles O51: the request rows and the encoder end in `emit`, the response rows and `DEC` in `decodeBytes`, and the CRC
family in updates of the engine, `val` and `res`. -/
theorem onlySessionCommandsTouchTheSession : Obligations.OnlySessionCommandsTouchTheSession := by
  intro i s t h hOpen hClose hXchg
  change KeepsSession s t
  cases i with
  | reqRhr | reqWsr | reqWmr | encRhr | encWsr | encWmr => exact keepsSession_of_encodeRequest h
  | rspExc | rspRhr | rspWsr | rspWmr => exact keepsSession_of_decoded h
  | crcInit | crcAbsorb | crcRead => cases h; rfl
  | crcCompute span =>
    obtain ⟨bs, -, -, rfl⟩ := execCrcCompute_eq_next h
    rfl
  | crcValidate buf =>
    obtain ⟨bs, -, -, rfl⟩ := execCrcValidate_eq_next h
    rfl
  | dec buf nExp =>
    obtain ⟨bs, -, rfl⟩ := execDec_eq_next h
    exact keepsSession_decodeBytes bs nExp s
  | sesOpen baud parity stop timeout => exact absurd rfl (hOpen baud parity stop timeout)
  | sesClose => exact absurd rfl hClose
  | sesXchg frame timeout => exact absurd rfl (hXchg frame timeout)

end Sys2Proof.Proofs
end

section
/-! SUPPORT. The state family (10_state.md): reads of state never written (rule R42), what one instruction can do to the
state and who writes what (rules R23, R24, R325), the passing of time (rules R38, R216), and the invariant between commands,
carried through an exchange and through everything a step can be (rules R8, R18, R28, R328). -/

namespace Sys2Proof.Proofs

open Sys2Proof.Machine Sys2Proof.Laws

/-! ### State never written -/

theorem operandBytes_rxbuf_unwritten {s : State} (h : s.written.rxbuf = false) : operandBytes .rxbuf s = none := by
  simp only [operandBytes, h, Bool.false_eq_true, if_false]

/-- Settles O26: `rxbuf` cannot be read before an exchange, and the empty sequence fails the length check of R172. -/
theorem decOfUnwrittenBufferHasNoValue : Obligations.DecOfUnwrittenBufferHasNoValue := by
  intro nExp s
  refine ⟨fun h => ?_, fun h => ?_, rfl, rfl⟩
  · exact onBytes_none (operandBytes_rxbuf_unwritten h) _
  · exact onBytes_some (operandBytes_txbuf_empty h) _

/-- Settles O44. -/
theorem resetSatisfiesTheInvariant : Obligations.ResetSatisfiesTheInvariant where
  fsm_idle := rfl
  not_busy := rfl
  k_zero := rfl
  txbuf_wf := rfl
  txbuf_frame := .inl rfl
  rxbuf_wf := rfl
  rxbuf_held := ⟨[], rfl⟩
  rxlen_le := Nat.zero_le _
  rx_unwritten := fun _ => rfl
  open_configured := nofun

/-! ### An exchange -/

/-- What every tick of an exchange keeps: one clause for a dropped byte and for each transition of R204. -/
structure TickKeeps (x : Exchange) (P : State → Prop) : Prop where
  drop : ∀ e rest {s}, P s → P (dropByte e rest s)
  transmit : ∀ {s}, P s → P (enterTransmitting x s)
  await : ∀ {s}, P s → P (enterAwaiting x s)
  capture : ∀ e rest {s}, s.fsm = .awaitingResponse → P s → P (captureByte e rest s)
  endWait : ∀ {s}, P s → P (endWait x s)
  complete : ∀ {s}, P s → P (finishComplete s)
  timedOut : ∀ {s}, P s → P (finishTimedOut s)

theorem TickKeeps.tick {x : Exchange} {P : State → Prop} (h : TickKeeps x P) (s : State) (hs : P s) : P (tick x s) := by
  obtain ⟨e, rest, -, -, -, ht⟩ | ⟨-, -, ht⟩ | ⟨e, rest, -, -, -, ht⟩ | ⟨-, -, ht⟩ | ⟨e, rest, -, hf, -, ht⟩ |
    ⟨e, rest, -, -, -, -, ht⟩ | ⟨-, -, ht⟩ | ⟨-, ht⟩ | ⟨-, ht⟩ := tick_cases x s <;> rw [ht]
  · exact h.drop e rest hs
  · exact h.transmit hs
  · exact h.drop e rest hs
  · exact h.await hs
  · exact h.capture e rest hf hs
  · exact h.drop e rest hs
  · exact h.endWait hs
  · exact h.complete hs
  · exact h.timedOut hs

/-- What every tick keeps, and the issue gives, is so after the exchange. -/
theorem TickKeeps.exchange {x : Exchange} {P : State → Prop} (h : TickKeeps x P) {s : State}
    (hs : P (issueExchange s)) : P (exchange x s) :=
  runExchange_keeps x h.tick _ _ hs

/-- The state with everything an exchange owns put back to its reset value: what an exchange does not own. -/
def outsideExchange (s : State) : State :=
  { State.reset with
    crc := s.crc, k := s.k, val := s.val, txbuf := s.txbuf, txlen := s.txlen, handle := s.handle, cfg := s.cfg
    retry := s.retry, params := s.params, port := s.port, host := s.host }

theorem outsideExchange_dropByte (e : TimedByte) (rest : List TimedByte) (s : State) :
    outsideExchange (dropByte e rest s) = outsideExchange s := by
  rw [dropByte_frame]
  rfl

theorem outsideExchange_captureByte (e : TimedByte) (rest : List TimedByte) (s : State) :
    outsideExchange (captureByte e rest s) = outsideExchange s := by
  unfold captureByte
  split <;> rfl

theorem outsideExchange_endWait (x : Exchange) (s : State) :
    outsideExchange (endWait x s) = outsideExchange s := by
  unfold endWait
  split <;> rfl

theorem outsideExchange_tickKeeps (x : Exchange) (u : State) :
    TickKeeps x fun s => outsideExchange s = u where
  drop e rest _ h := (outsideExchange_dropByte e rest _).trans h
  transmit h := h
  await h := h
  capture e rest _ _ h := (outsideExchange_captureByte e rest _).trans h
  endWait h := (outsideExchange_endWait x _).trans h
  complete h := h
  timedOut h := h

/-- An exchange leaves alone what it does not own (R203, R297). -/
theorem outsideExchange_exchange (x : Exchange) (s : State) :
    outsideExchange (exchange x s) = outsideExchange s :=
  (outsideExchange_tickKeeps x _).exchange rfl

@[simp] theorem exchange_val (x : Exchange) (s : State) : (exchange x s).val = s.val :=
  (congrArg State.val (outsideExchange_exchange x s) :)
@[simp] theorem exchange_txbuf (x : Exchange) (s : State) : (exchange x s).txbuf = s.txbuf :=
  (congrArg State.txbuf (outsideExchange_exchange x s) :)
@[simp] theorem exchange_txlen (x : Exchange) (s : State) : (exchange x s).txlen = s.txlen :=
  (congrArg State.txlen (outsideExchange_exchange x s) :)
@[simp] theorem exchange_cfg (x : Exchange) (s : State) : (exchange x s).cfg = s.cfg :=
  (congrArg State.cfg (outsideExchange_exchange x s) :)
@[simp] theorem exchange_retry (x : Exchange) (s : State) : (exchange x s).retry = s.retry :=
  (congrArg State.retry (outsideExchange_exchange x s) :)
@[simp] theorem exchange_handle (x : Exchange) (s : State) : (exchange x s).handle = s.handle :=
  (congrArg State.handle (outsideExchange_exchange x s) :)

theorem captureByte_now (e : TimedByte) (rest : List TimedByte) (s : State) :
    (captureByte e rest s).now = max s.now e.time := by
  unfold captureByte
  split <;> rfl

theorem now_le_endWait (x : Exchange) (s : State) : s.now ≤ (endWait x s).now := by
  unfold endWait
  split <;> exact Nat.le_max_left _ _

theorem now_tickKeeps (x : Exchange) (n : Nat) : TickKeeps x fun s => n ≤ s.now where
  drop e rest _ h := by rw [dropByte_now]; exact le_max_of_le_left h
  transmit h := le_max_of_le_left h
  await h := le_max_of_le_left h
  capture e rest _ _ h := by rw [captureByte_now]; exact le_max_of_le_left h
  endWait h := h.trans (now_le_endWait x _)
  complete h := h
  timedOut h := h

theorem now_le_exchange (x : Exchange) (s : State) : s.now ≤ (exchange x s).now :=
  (now_tickKeeps x s.now).exchange (Nat.le_refl s.now)

/-! ### What one instruction can do -/

/-- The encoder command of a Request (R120, R151 to R153). -/
def encoderInstr : Request → Instr
  | .rhr addr start count => .encRhr addr start count
  | .wsr addr reg value => .encWsr addr reg value
  | .wmr addr start values => .encWmr addr start values

theorem exec_encoderInstr (q : Request) (s : State) : exec (encoderInstr q) s = encodeRequest q s := by
  cases q <;> rfl

/-- The effect of an instruction that answers: the states it can lead to. `computes` stands for the commands that work on
the engine and deliver a result: `CRC.INIT`, `CRC.ABSORB`, `CRC.READ`, `CRC.COMPUTE`, `DEC` and the response rows. -/
inductive Effect (s : State) : Instr → State → Prop
  | request (q : Request) : q.wf = true → Effect s (requestInstr q) (emit (requestBody q) s)
  | encoder (q : Request) : q.wf = true → Effect s (encoderInstr q) (emit (requestBody q) s)
  | computes (i : Instr) (t : State) :
      t = { s with
        crc := t.crc, k := t.k, res := t.res, written := { s.written with res := t.written.res } } →
      (t.k = 0 ∨ t.k = s.k) → Effect s i t
  | validate (buf : Operand) (bs : Bytes) :
      Effect s (.crcValidate buf)
        (deliver (.bool (checksumGood bs)) (setVal (checksumGood bs) (runEngine (spanOf bs) s)))
  | sesOpen (baud : Nat) (parity : Parity) (stop timeout : Nat) (cfg : SerialCfg) :
      Effect s (.sesOpen baud parity stop timeout)
        { s with
          cfg := cfg, handle := .opened, fsm := .idle, busy := false, retry := 0, rxlen := 0, rxOvf := false
          tLast := s.now, written := { s.written with cfg := true, tLast := true } }
  | sesClose : Effect s .sesClose { s with handle := .closed }
  | sesXchg (frame : Operand) (timeout : TimeoutArg) (x : Exchange) :
      s.handle = .opened → Effect s (.sesXchg frame timeout) (exchange x s)

theorem effect_decodeBytes (i : Instr) (bs : Bytes) (nExp : Option Nat) (s : State) :
    Effect s i (decodeBytes bs nExp s) := by
  rw [decodeBytes_eq]
  split
  · exact .computes _ _ rfl (.inl rfl)
  · exact .computes _ _ rfl (.inr rfl)

/-- A response row is the decoder on its frame. -/
theorem effect_of_decoded {i : Instr} {bs : Bytes} {nExp : Option Nat} {s t : State}
    (h : Host.Outcome.next (φ := Fault) (ρ := Refusal) (decodeBytes bs nExp s) = .next t) : Effect s i t := by
  cases h
  exact effect_decodeBytes i bs nExp s

theorem effect_of_request {q : Request} {s t : State} (h : encodeRequest q s = .next t) :
    Effect s (requestInstr q) t := by
  obtain ⟨hq, rfl⟩ := encodeRequest_eq_next h
  exact .request q hq

theorem effect_of_encoder {q : Request} {s t : State} (h : encodeRequest q s = .next t) :
    Effect s (encoderInstr q) t := by
  obtain ⟨hq, rfl⟩ := encodeRequest_eq_next h
  exact .encoder q hq

theorem effect_of_sesOpen {baud : Nat} {parity : Parity} {stop timeout : Nat} {s t : State}
    (h : execSesOpen baud parity stop timeout s = .next t) : Effect s (.sesOpen baud parity stop timeout) t := by
  unfold execSesOpen at h
  split at h
  · cases h
  · split at h
    · cases h
    · cases h
      exact .sesOpen ..

theorem effect_of_sesClose {s t : State} (h : execSesClose s = .next t) : Effect s .sesClose t := by
  unfold execSesClose at h
  split at h
  · cases h
  · cases h
    exact .sesClose

theorem effect_of_sesXchg {frame : Operand} {timeout : TimeoutArg} {s t : State}
    (h : execSesXchg frame timeout s = .next t) : Effect s (.sesXchg frame timeout) t := by
  obtain ⟨-, hx⟩ | ⟨-, -, hx⟩ | ⟨-, -, -, hx⟩ | ⟨-, -, -, -, -, hx⟩ | ⟨bs, ho, -, -, -, -, hx⟩ :=
    execSesXchg_cases frame timeout s <;> rw [hx] at h <;> cases h
  exact .sesXchg frame timeout _ ho

/-- Everything an instruction that answers can do. -/
theorem effect_of_exec {i : Instr} {s t : State} (h : exec i s = .next t) : Effect s i t := by
  cases i with
  | reqRhr addr start count => exact effect_of_request (q := .rhr addr start count) h
  | reqWsr addr reg value => exact effect_of_request (q := .wsr addr reg value) h
  | reqWmr addr start values => exact effect_of_request (q := .wmr addr start values) h
  | encRhr addr start count => exact effect_of_encoder (q := .rhr addr start count) h
  | encWsr addr reg value => exact effect_of_encoder (q := .wsr addr reg value) h
  | encWmr addr start values => exact effect_of_encoder (q := .wmr addr start values) h
  | rspExc | rspRhr | rspWsr | rspWmr => exact effect_of_decoded h
  | crcInit | crcAbsorb => cases h; exact .computes _ _ rfl (.inl rfl)
  | crcRead => cases h; exact .computes _ _ rfl (.inr rfl)
  | crcCompute span =>
    obtain ⟨bs, -, -, rfl⟩ := execCrcCompute_eq_next h
    exact .computes _ _ rfl (.inl (engineRun_k bs))
  | crcValidate buf =>
    obtain ⟨bs, -, -, rfl⟩ := execCrcValidate_eq_next h
    exact .validate buf bs
  | dec buf nExp =>
    obtain ⟨bs, -, rfl⟩ := execDec_eq_next h
    exact effect_decodeBytes _ bs nExp s
  | sesOpen => exact effect_of_sesOpen h
  | sesClose => exact effect_of_sesClose h
  | sesXchg => exact effect_of_sesXchg h

/-! ### Who writes what -/

/-- A change in one of two registers that both kept their values does not happen. -/
theorem of_changed {α β : Type} {a a' : α} {b b' : β} {C : Prop} (ha : a = a') (hb : b = b') : a ≠ a' ∨ b ≠ b' → C
  | .inl h => absurd ha h
  | .inr h => absurd hb h

/-- The encoder command of a Request is one of the three. -/
theorem encoderInstr_cases (q : Request) :
    (∃ addr start count, encoderInstr q = .encRhr addr start count) ∨
      (∃ addr reg value, encoderInstr q = .encWsr addr reg value) ∨
      ∃ addr start values, encoderInstr q = .encWmr addr start values := by
  cases q with
  | rhr addr start count => exact .inl ⟨addr, start, count, rfl⟩
  | wsr addr reg value => exact .inr (.inl ⟨addr, reg, value, rfl⟩)
  | wmr addr start values => exact .inr (.inr ⟨addr, start, values, rfl⟩)

/-- Settles O52: each effect writes the registers of its instruction and no other of those named. -/
theorem everyRegisterHasItsWriters : Obligations.EveryRegisterHasItsWriters := by
  intro i s t h
  cases effect_of_exec h with
  | request q _ =>
    exact ⟨absurd rfl, fun _ => .inl ⟨q, rfl⟩, of_changed rfl rfl, of_changed rfl rfl, absurd rfl⟩
  | encoder q _ =>
    exact ⟨absurd rfl, fun _ => .inr (encoderInstr_cases q), of_changed rfl rfl, of_changed rfl rfl, absurd rfl⟩
  | computes _ _ ht _ =>
    rw [ht]
    exact ⟨absurd rfl, of_changed rfl rfl, of_changed rfl rfl, of_changed rfl rfl, absurd rfl⟩
  | validate buf _ =>
    exact ⟨fun _ => ⟨buf, rfl⟩, of_changed rfl rfl, of_changed rfl rfl, of_changed rfl rfl, absurd rfl⟩
  | sesOpen baud parity stop timeout _ =>
    exact ⟨absurd rfl, of_changed rfl rfl, of_changed rfl rfl, fun _ => ⟨baud, parity, stop, timeout, rfl⟩,
      fun _ => .inr ⟨baud, parity, stop, timeout, rfl⟩⟩
  | sesClose => exact ⟨absurd rfl, of_changed rfl rfl, of_changed rfl rfl, of_changed rfl rfl, fun _ => .inl rfl⟩
  | sesXchg frame timeout x _ =>
    exact ⟨absurd (exchange_val x s), of_changed (exchange_txbuf x s) (exchange_txlen x s),
      fun _ => ⟨frame, timeout, rfl⟩, of_changed (exchange_cfg x s) (exchange_retry x s),
      absurd (exchange_handle x s)⟩

/-! ### The passing of time -/

/-- With stale bytes discarded or the handle closed a dropped byte moves no last activity (R216). -/
theorem dropByte_tLast_eq (e : TimedByte) (rest : List TimedByte) {s : State}
    (h : s.params.staleRx = .discard ∨ s.handle = .closed) : (dropByte e rest s).tLast = s.tLast := by
  obtain ⟨ho, ht, -⟩ | ⟨-, hd⟩ := dropByte_cases e rest s
  · simp [ho, ht] at h
  · rw [hd]

theorem dropUntil_tLast_eq (t : Nat) (l : List TimedByte) {s : State}
    (h : s.params.staleRx = .discard ∨ s.handle = .closed) : (dropUntil t l s).tLast = s.tLast := by
  induction l generalizing s with
  | nil => rfl
  | cons e rest ih =>
    have hd : (dropByte e rest s).params.staleRx = .discard ∨ (dropByte e rest s).handle = .closed := by
      rw [dropByte_frame]
      exact h
    rw [dropUntil]
    split
    · rw [ih hd, dropByte_tLast_eq e rest h]
    · rfl

theorem dropUntil_line_suffix (t : Nat) (l : List TimedByte) {s : State} (h : s.line = l) :
    (dropUntil t l s).line <:+ l := by
  induction l generalizing s with
  | nil => exact ⟨[], h⟩
  | cons e rest ih =>
    rw [dropUntil]
    split
    · exact (ih (dropByte_line e rest s)).trans (List.suffix_cons e rest)
    · exact ⟨[], h⟩

/-- Settles O47. -/
theorem passingTimeTouchesOnlyTheLine : Obligations.PassingTimeTouchesOnlyTheLine := by
  intro s t
  refine ⟨(passTime t s).line, (passTime t s).tLast, passTime_frame t s, passTime_now_le t s, Nat.le_max_right _ _,
    dropUntil_line_suffix _ s.line rfl, fun h => dropUntil_tLast_eq _ s.line h⟩

/-! ### Everything a step can be -/

/-- A property that every instruction, the passing of time and the bookkeeping of the port and the host keep. -/
structure KeptByParts (P : State → Prop) : Prop where
  exec : ∀ {i s t}, P s → exec i s = .next t → P t
  passTime : ∀ t {s}, P s → P (passTime t s)
  setPort : ∀ port {s : State}, P s → P { s with port := port }
  setHost : ∀ host {s : State}, P s → P { s with host := host }
  setRetry : ∀ n {s : State}, P s → P { s with retry := n }

namespace KeptByParts

variable {P : State → Prop} (hP : KeptByParts P)
include hP

theorem decodeBytes (bs : Bytes) (nExp : Option Nat) {s : State} (hs : P s) : P (decodeBytes bs nExp s) :=
  hP.exec (i := .dec (.lit bs) nExp) hs rfl

theorem attemptOnce {nExp : Option Nat} {s : State} {p : State × AttemptEnd} (hs : P s)
    (h : attemptOnce nExp s = .next p) : P p.1 := by
  obtain ⟨s1, hx, hend⟩ := attemptOnce_next h
  have h1 : P (countAttempt s1) := hP.setRetry _ (hP.exec (i := .sesXchg .txbuf .cfgTimeout) hs hx)
  obtain ⟨-, -, ht, -⟩ | ⟨bs, -, -, ht, -⟩ := hend <;> rw [ht]
  · exact h1
  · exact hP.decodeBytes bs nExp h1

theorem attemptLoop {nExp abandonAt : Option Nat} {n : Nat} {last : Option AttemptError} {s : State}
    {p : State × LoopEnd} (hs : P s) (h : attemptLoop nExp abandonAt n last s = .next p) : P p.1 := by
  induction n generalizing last s with
  | zero => cases h; exact hs
  | succ n ih =>
    rw [Machine.attemptLoop] at h
    split at h
    · cases h; exact hs
    · obtain ⟨⟨s1, fin⟩, ha, h⟩ := andThen_eq_next h
      have h1 : P s1 := hP.attemptOnce hs ha
      cases fin with
      | got | rejected | final => cases h; exact h1
      | retryable e =>
        refine ih ?_ h
        split
        · exact h1
        · exact hP.passTime _ h1

theorem attempts {nExp abandonAt : Option Nat} {s : State} {p : State × LoopEnd} (hs : P s)
    (h : attempts nExp abandonAt s = .next p) : P p.1 :=
  hP.attemptLoop (hP.setRetry 0 hs) h

theorem masterRead {v : Variant} {name : String} {abandonAt : Option Nat} {s : State} {p : State × DomainReply}
    (hs : P s) (h : masterRead v name abandonAt s = .next p) : P p.1 := by
  unfold Machine.masterRead at h
  split at h
  · cases h; exact hs
  · obtain ⟨s1, he, h⟩ := andThen_eq_next h
    obtain ⟨q, ha, h⟩ := andThen_eq_next h
    cases h
    exact hP.attempts (hP.exec (i := .encRhr _ _ _) hs he) ha

theorem masterWrite {v : Variant} {name : String} {phys : Rat} {abandonAt : Option Nat} {s : State}
    {p : State × DomainReply} (hs : P s) (h : masterWrite v name phys abandonAt s = .next p) : P p.1 := by
  unfold Machine.masterWrite at h
  split at h
  · cases h; exact hs
  · split at h
    · cases h; exact hs
    · obtain ⟨s1, he, h⟩ := andThen_eq_next h
      obtain ⟨q, ha, h⟩ := andThen_eq_next h
      cases h
      rw [encodeFor_eq, ← exec_encoderInstr] at he
      exact hP.attempts (hP.exec hs he) ha

theorem runOp {op : DomainOp} {abandonAt : Option Nat} {s : State} {p : State × DomainReply} (hs : P s)
    (h : runOp op abandonAt s = .next p) : P p.1 := by
  cases op with
  | read => exact hP.masterRead (hP.setRetry 0 hs) h
  | write => exact hP.masterWrite (hP.setRetry 0 hs) h

theorem serveRequest {r : DomainRequest} {s t : State} (hs : P s) (h : serveRequest r s = .next t) : P t := by
  have h0 : P (Machine.passTime r.time s) := hP.passTime r.time hs
  dsimp only [Machine.serveRequest] at h
  split at h
  · cases h
    exact hP.setHost _ h0
  · obtain ⟨p, hp, h⟩ := andThen_eq_next h
    cases h
    exact hP.setHost _ (hP.runOp h0 hp)

theorem runIdle {s t : State} (hs : P s) (h : runIdle s = .next t) : P t := by
  unfold Machine.runIdle at h
  split at h
  · exact hP.serveRequest (hP.setHost _ hs) h
  · split at h
    · cases h; exact hP.passTime _ hs
    · cases h; exact hs

theorem runItem {p : PortItem} {rest : List PortItem} {s t : State} (hs : P s) (h : runItem p rest s = .next t) :
    P t := by
  have hi : P (issueState p rest s) := hP.passTime _ (hP.setPort rest hs)
  unfold Machine.runItem at h
  split at h
  · exact hP.exec hi h
  · next e _ =>
    cases e with
    | frame => cases h; exact hP.decodeBytes _ _ hi
    | noCommand | unassignedCommand | missingOperand | badOperand | trailingBytes | notARequest => cases h

/-- What every part of a step keeps, a step keeps: a command of the port, a domain operation, a byte nobody waits for. -/
theorem step {s t : State} (hs : P s) (h : step s = .next t) : P t := by
  obtain ⟨p, rest, -, -, hr⟩ | ⟨-, hr⟩ := step_cases s <;> rw [hr] at h
  · exact hP.runItem hs h
  · exact hP.runIdle hs h

end KeptByParts

theorem now_le_of_exec {i : Instr} {s t : State} (h : exec i s = .next t) : s.now ≤ t.now := by
  cases effect_of_exec h with
  | request | encoder | validate | sesOpen | sesClose => exact Nat.le_refl s.now
  | computes _ _ ht _ => rw [ht]
  | sesXchg _ _ x _ => exact now_le_exchange x s

theorem now_keptByParts (n : Nat) : KeptByParts fun s => n ≤ s.now where
  exec hs h := hs.trans (now_le_of_exec h)
  passTime t _ hs := hs.trans (passTime_now_le t _)
  setPort _ _ hs := hs
  setHost _ _ hs := hs
  setRetry _ _ hs := hs

/-- Settles O53. -/
theorem timeNeverDecreases : Obligations.TimeNeverDecreases :=
  fun s _ h => (now_keptByParts s.now).step (Nat.le_refl s.now) h

/-! ### The invariant

Where only fields change that the invariant does not mention, `{ h with }` gives it for the new state clause by clause. -/

/-- The invariant does not see the line, and asks of the time only that the last activity is not in the future. -/
theorem inv_retime {s : State} (h : Inv s) (line : List TimedByte) {now tLast : Nat}
    (hle : s.tLast ≤ s.now → tLast ≤ now) : Inv { s with line := line, now := now, tLast := tLast } :=
  { h with
    open_configured := fun ho =>
      have ⟨hcfg, htLast, hpast⟩ := h.open_configured ho
      ⟨hcfg, htLast, hle hpast⟩ }

theorem dropByte_tLast_le (e : TimedByte) (rest : List TimedByte) {s : State} (h : s.tLast ≤ s.now) :
    (dropByte e rest s).tLast ≤ (dropByte e rest s).now := by
  obtain ⟨-, -, hd⟩ | ⟨-, hd⟩ := dropByte_cases e rest s <;> rw [hd]
  · exact Nat.le_max_right _ _
  · exact le_max_of_le_left h

theorem dropUntil_tLast_le (t : Nat) (l : List TimedByte) {s : State} (h : s.tLast ≤ s.now) :
    (dropUntil t l s).tLast ≤ (dropUntil t l s).now := by
  induction l generalizing s with
  | nil => exact h
  | cons e rest ih =>
    rw [dropUntil]
    split
    · exact ih (dropByte_tLast_le e rest h)
    · exact h

theorem inv_passTime (t : Nat) {s : State} (h : Inv s) : Inv (passTime t s) := by
  rw [passTime_frame]
  exact inv_retime h _ fun hle => le_max_of_le_left (dropUntil_tLast_le _ _ hle)

theorem inv_emit {q : Request} (hq : q.wf = true) {s : State} (h : Inv s) : Inv (emit (requestBody q) s) :=
  have hlen : 0 + (requestFrame q).length ≤ Config.maxFrame := by
    have hbody : (requestBody q).length ≤ 253 := (requestBody_length hq).2
    simp only [requestFrame, withChecksum_length, Config.maxFrame]
    omega
  { h with
    k_zero := engineRun_k (requestBody q)
    txbuf_wf := memoryWf_writeRun (memoryWf_nil _) hlen
    txbuf_frame := .inr ⟨q, hq, readRun_emit (requestBody q) s⟩ }

/-! ### The invariant during an exchange -/

/-- The state as it would stand had the exchange in flight returned: `Idle`, the lock released. -/
def atRest (s : State) : State := { s with fsm := .idle, busy := false }

/-- What holds at every tick of an exchange: the invariant but for the state machine and the lock; and where a response
is awaited the capture buffer has been written (R208). -/
structure InFlight (s : State) : Prop where
  rest : Inv (atRest s)
  awaiting : s.fsm = .awaitingResponse → s.written.rxbuf = true

theorem inFlight_issueExchange {s : State} (h : Inv s) : InFlight (issueExchange s) where
  rest := { h with fsm_idle := rfl, not_busy := rfl }
  awaiting hf := absurd (h.fsm_idle.symm.trans hf) nofun

theorem inFlight_dropByte (e : TimedByte) (rest : List TimedByte) {s : State} (h : InFlight s) :
    InFlight (dropByte e rest s) := by
  rw [dropByte_frame]
  exact ⟨inv_retime h.rest _ fun hle => (dropByte_now e rest s) ▸ dropByte_tLast_le e rest hle, h.awaiting⟩

theorem inFlight_enterTransmitting (x : Exchange) {s : State} (h : InFlight s) : InFlight (enterTransmitting x s) where
  rest := { inv_retime h.rest s.line (fun hle => le_max_of_le_left (c := startTime x s) hle) with }
  awaiting := nofun

theorem inFlight_enterAwaiting (x : Exchange) {s : State} (h : InFlight s) : InFlight (enterAwaiting x s) where
  rest :=
    { h.rest with
      rxbuf_wf := memoryWf_nil _
      rxbuf_held := ⟨[], rfl⟩
      rxlen_le := Nat.zero_le _
      rx_unwritten := nofun
      open_configured := fun ho => ⟨(h.rest.open_configured ho).1, rfl, Nat.le_max_right _ _⟩ }
  awaiting _ := rfl

theorem inFlight_captureByte (e : TimedByte) (rest : List TimedByte) {s : State} (hf : s.fsm = .awaitingResponse)
    (h : InFlight s) : InFlight (captureByte e rest s) := by
  have hw : s.written.rxbuf = true := h.awaiting hf
  have hr : Inv (atRest { reach e.time { s with line := rest } with tRx := e.time, tLast := e.time }) :=
    { inv_retime h.rest rest (fun _ => Nat.le_max_right s.now e.time) with }
  unfold captureByte
  split
  · next hlt =>
    obtain ⟨bs, (hbs : readRun s.rxbuf 0 s.rxlen = some bs)⟩ := h.rest.rxbuf_held
    have hheld : readRun (writeMem s.rxbuf s.rxlen e.byte) 0 (s.rxlen + 1) = some (bs ++ [e.byte]) := by
      simpa using readRun_writeMem_end e.byte hbs
    exact ⟨{ hr with
      rxbuf_wf := memoryWf_writeMem e.byte h.rest.rxbuf_wf hlt
      rxbuf_held := ⟨bs ++ [e.byte], hheld⟩
      rxlen_le := hlt
      rx_unwritten := fun hu => absurd (hw.symm.trans hu) nofun }, fun _ => hw⟩
  · exact ⟨{ hr with }, fun _ => hw⟩

theorem inFlight_endWait (x : Exchange) {s : State} (h : InFlight s) : InFlight (endWait x s) := by
  unfold endWait
  split <;> exact ⟨{ inv_retime h.rest s.line (fun hle => le_max_of_le_left hle) with }, nofun⟩

theorem inFlight_tickKeeps (x : Exchange) : TickKeeps x InFlight where
  drop := inFlight_dropByte
  transmit := inFlight_enterTransmitting x
  await := inFlight_enterAwaiting x
  capture := inFlight_captureByte
  endWait := inFlight_endWait x
  complete h := ⟨{ h.rest with }, nofun⟩
  timedOut h := ⟨{ h.rest with }, nofun⟩

/-- An exchange keeps the invariant: at rest it holds throughout, and the exchange comes back to rest (R219, R225). -/
theorem inv_exchange (x : Exchange) {s : State} (h : Inv s) : Inv (exchange x s) := by
  have hr : Inv (atRest (exchange x s)) := ((inFlight_tickKeeps x).exchange (inFlight_issueExchange h)).rest
  obtain ⟨hbusy, hfsm⟩ := exchange_returns x s h.fsm_idle
  exact { hr with fsm_idle := hfsm, not_busy := hbusy }

/-! ### The invariant over instructions and steps -/

theorem inv_exec {i : Instr} {s t : State} (hs : Inv s) (h : exec i s = .next t) : Inv t := by
  cases effect_of_exec h with
  | request _ hq | encoder _ hq => exact inv_emit hq hs
  | computes _ _ ht hk =>
    have hk0 : t.k = 0 := hk.elim id fun hk => hk.trans hs.k_zero
    rw [ht]
    exact { hs with k_zero := hk0 }
  | validate _ bs => exact { hs with k_zero := engineRun_k (spanOf bs) }
  | sesOpen =>
    exact { hs with
      fsm_idle := rfl
      not_busy := rfl
      rxbuf_held := ⟨[], rfl⟩
      rxlen_le := Nat.zero_le _
      rx_unwritten := fun _ => rfl
      open_configured := fun _ => ⟨rfl, rfl, Nat.le_refl s.now⟩ }
  | sesClose => exact { hs with open_configured := nofun }
  | sesXchg _ _ x _ => exact inv_exchange x hs

theorem inv_keptByParts : KeptByParts Inv where
  exec := inv_exec
  passTime := inv_passTime
  setPort _ _ hs := { hs with }
  setHost _ _ hs := { hs with }
  setRetry _ _ hs := { hs with }

/-- Settles O45: every instruction, the passing of time and the bookkeeping keep the invariant, and so does a step, which
is made of them. -/
theorem everyStepKeepsTheInvariant : Obligations.EveryStepKeepsTheInvariant :=
  fun _ _ hs h => inv_keptByParts.step hs h

/-! ### Faults -/

/-- Under the invariant the only operand that has no value is `rxbuf` before any exchange, and its length is 0. -/
theorem operandBytes_eq_none {o : Operand} {s : State} (hs : Inv s) (h : operandBytes o s = none) :
    o = .rxbuf ∧ s.written.rxbuf = false ∧ operandLen o s = 0 := by
  cases o with
  | lit bs => cases h
  | txbuf =>
    obtain h0 | ⟨q, -, hq⟩ := hs.txbuf_frame
    · rw [operandBytes_txbuf_empty h0] at h; cases h
    · cases hq.symm.trans h
  | rxbuf =>
    simp only [operandBytes] at h
    split at h
    · obtain ⟨bs, hbs⟩ := hs.rxbuf_held
      cases hbs.symm.trans h
    · next hw =>
      have hw : s.written.rxbuf = false := Bool.eq_false_of_not_eq_true hw
      exact ⟨rfl, hw, hs.rx_unwritten hw⟩

theorem onBytes_eq_fault {o : Operand} {s : State} {e : Fault} {g : Bytes → State}
    (h : onBytes o s (fun bs => .next (g bs)) = .fault e) : operandBytes o s = none := by
  cases ho : operandBytes o s with
  | none => rfl
  | some bs => rw [onBytes_some ho] at h; cases h

theorem encodeRequest_ne_fault {q : Request} {s : State} {e : Fault} : encodeRequest q s ≠ .fault e := by
  obtain ⟨-, h⟩ | ⟨-, r, -, h⟩ := encodeRequest_cases q s <;> rw [h] <;> nofun

theorem execCrcCompute_ne_fault {o : Operand} {s : State} {e : Fault} (hs : Inv s) :
    execCrcCompute o s ≠ .fault e := by
  unfold execCrcCompute
  split
  · nofun
  · next hlen => exact fun h => hlen (operandBytes_eq_none hs (onBytes_eq_fault h)).2.2

theorem execCrcValidate_ne_fault {o : Operand} {s : State} {e : Fault} (hs : Inv s) :
    execCrcValidate o s ≠ .fault e := by
  unfold execCrcValidate
  split
  · nofun
  · next hlen =>
    intro h
    obtain ⟨-, -, h0⟩ := operandBytes_eq_none hs (onBytes_eq_fault h)
    omega

theorem execSesOpen_ne_fault {baud : Nat} {parity : Parity} {stop timeout : Nat} {s : State} {e : Fault} :
    execSesOpen baud parity stop timeout s ≠ .fault e := by
  unfold execSesOpen
  split
  · nofun
  · split <;> nofun

theorem execSesClose_ne_fault {s : State} {e : Fault} : execSesClose s ≠ .fault e := by
  unfold execSesClose
  split <;> nofun

theorem execSesXchg_ne_fault {frame : Operand} {timeout : TimeoutArg} {s : State} {e : Fault} (hs : Inv s) :
    execSesXchg frame timeout s ≠ .fault e := by
  obtain ⟨-, hx⟩ | ⟨-, -, hx⟩ | ⟨-, -, -, hx⟩ | ⟨-, -, hlen, -, ho, -⟩ | ⟨bs, -, -, -, -, -, hx⟩ :=
    execSesXchg_cases frame timeout s
  case inr.inr.inr.inl =>
    obtain ⟨-, -, h0⟩ := operandBytes_eq_none hs ho
    omega
  all_goals
    rw [hx]
    nofun

/-- Settles O54: the lengths are checked before any byte is read, so an operand without a value, which has length 0, comes
to be read by `DEC` alone. -/
theorem faultsOnlyByUnwrittenBuffers : Obligations.FaultsOnlyByUnwrittenBuffers := by
  intro i s f hs h
  cases i with
  | reqRhr | reqWsr | reqWmr | encRhr | encWsr | encWmr => exact absurd h encodeRequest_ne_fault
  | rspExc | rspRhr | rspWsr | rspWmr | crcInit | crcAbsorb | crcRead => cases h
  | crcCompute => exact absurd h (execCrcCompute_ne_fault hs)
  | crcValidate => exact absurd h (execCrcValidate_ne_fault hs)
  | dec buf nExp =>
    obtain ⟨rfl, hw, -⟩ := operandBytes_eq_none hs (onBytes_eq_fault h)
    exact ⟨nExp, rfl, hw⟩
  | sesOpen => exact absurd h execSesOpen_ne_fault
  | sesClose => exact absurd h execSesClose_ne_fault
  | sesXchg => exact absurd h (execSesXchg_ne_fault hs)

end Sys2Proof.Proofs
end

section
/-! SUPPORT. The memory family (20_memory.md): every byte an exchange returns was on the line inside the window of that
exchange (rules R82, R84, R209, R216), followed from the issue through every tick to the return. -/

namespace Sys2Proof.Proofs

open Sys2Proof.Machine Sys2Proof.Laws

/-! ### The bytes inside a window -/

/-- The bytes of a line strictly inside a window, in arrival order (R209). -/
def windowBytes (tAw tDl : Nat) (line : List TimedByte) : Bytes :=
  (line.filter fun e => decide (tAw < e.time) && decide (e.time < tDl)).map TimedByte.byte

theorem windowBytes_sublist (tAw tDl : Nat) {l l' : List TimedByte} (h : l.Sublist l') :
    (windowBytes tAw tDl l).Sublist (windowBytes tAw tDl l') :=
  (h.filter _).map _

/-- A byte that meets the condition of capture is inside the window. -/
theorem windowBytes_cons_of_captures {x : Exchange} {s : State} {e : TimedByte} (h : captures x s e = true)
    (rest : List TimedByte) :
    windowBytes s.tAw s.tDl (e :: rest) = e.byte :: windowBytes s.tAw s.tDl rest := by
  have hin : (decide (s.tAw < e.time) && decide (e.time < s.tDl)) = true := (Bool.and_eq_true_iff.mp h).1
  simp only [windowBytes, List.filter_cons, hin, if_true, List.map_cons]

/-! ### What has been captured and what may still be -/

/-- The captured bytes, followed by those of the window that are still to arrive, are in order among the bytes of the
window that the whole line held. -/
def CapturedInWindow (line : List TimedByte) (s : State) : Prop :=
  ∃ got, readRun s.rxbuf 0 s.rxlen = some got ∧
    (got ++ windowBytes s.tAw s.tDl s.line).Sublist (windowBytes s.tAw s.tDl line)

/-- The exchange in flight has not opened its window: T2 is still to come (R204, R208). -/
def BeforeWindow (s : State) : Prop := s.busy = true ∧ (s.fsm = .idle ∨ s.fsm = .transmitting)

/-- What every tick keeps: the line is what is left of the one at the issue, and once the window is open the captured
bytes come from it. -/
structure FollowsLine (line : List TimedByte) (s : State) : Prop where
  suffix : s.line <:+ line
  captured : BeforeWindow s ∨ CapturedInWindow line s

section
variable {x : Exchange} {line rest : List TimedByte} {e : TimedByte} {s : State}

theorem followsLine_dropByte (hl : s.line = e :: rest) (h : FollowsLine line s) :
    FollowsLine line (dropByte e rest s) := by
  have hrest : rest <:+ s.line := hl ▸ List.suffix_cons e rest
  rw [dropByte_frame]
  exact {
    suffix := hrest.trans h.suffix
    captured := h.captured.imp_right fun ⟨got, hgot, hsub⟩ =>
      ⟨got, hgot, ((windowBytes_sublist _ _ hrest.sublist).append_left got).trans hsub⟩ }

theorem followsLine_enterTransmitting (h : FollowsLine line s) : FollowsLine line (enterTransmitting x s) where
  suffix := h.suffix
  captured := h.captured.imp_left fun hb => ⟨hb.1, .inr rfl⟩

/-- T2 empties the capture buffer, and what is in the window is still on the line. -/
theorem followsLine_enterAwaiting (h : FollowsLine line s) : FollowsLine line (enterAwaiting x s) where
  suffix := h.suffix
  captured := .inr ⟨[], rfl, windowBytes_sublist _ _ h.suffix.sublist⟩

theorem captureByte_line (e : TimedByte) (rest : List TimedByte) (s : State) : (captureByte e rest s).line = rest := by
  unfold captureByte
  split <;> rfl

/-- A captured byte goes from the front of the line to the end of the buffer, or is lost when that is full (R210). -/
theorem capturedInWindow_captureByte (hl : s.line = e :: rest) (hc : captures x s e = true)
    (h : CapturedInWindow line s) : CapturedInWindow line (captureByte e rest s) := by
  obtain ⟨got, hgot, hsub⟩ := h
  rw [hl, windowBytes_cons_of_captures hc] at hsub
  unfold captureByte
  split
  · have hheld : readRun (writeMem s.rxbuf s.rxlen e.byte) 0 (s.rxlen + 1) = some (got ++ [e.byte]) := by
      simpa using readRun_writeMem_end e.byte hgot
    exact ⟨got ++ [e.byte], hheld, by rwa [List.append_assoc]⟩
  · exact ⟨got, hgot, ((List.sublist_cons_self _ _).append_left got).trans hsub⟩

theorem FollowsLine.capturedInWindow (h : FollowsLine line s) (hb : ¬ BeforeWindow s) : CapturedInWindow line s :=
  h.captured.resolve_left hb

theorem followsLine_captureByte (hl : s.line = e :: rest) (hf : s.fsm = .awaitingResponse)
    (hc : captures x s e = true) (h : FollowsLine line s) : FollowsLine line (captureByte e rest s) where
  suffix := by
    have hrest : rest <:+ s.line := hl ▸ List.suffix_cons e rest
    rw [captureByte_line]
    exact hrest.trans h.suffix
  captured := .inr (capturedInWindow_captureByte hl hc (h.capturedInWindow (by simp [BeforeWindow, hf])))

theorem followsLine_endWait (h : FollowsLine line s) (hf : s.fsm = .awaitingResponse) :
    FollowsLine line (endWait x s) := by
  have hc := h.capturedInWindow (by simp [BeforeWindow, hf])
  unfold endWait
  split <;> exact ⟨h.suffix, .inr hc⟩

theorem followsLine_tick (x : Exchange) (h : FollowsLine line s) : FollowsLine line (tick x s) := by
  obtain ⟨e, rest, hl, -, -, ht⟩ | ⟨-, -, ht⟩ | ⟨e, rest, hl, -, -, ht⟩ | ⟨-, -, ht⟩ | ⟨e, rest, hl, hf, hc, ht⟩ |
    ⟨e, rest, hl, -, -, -, ht⟩ | ⟨hf, -, ht⟩ | ⟨hf, ht⟩ | ⟨hf, ht⟩ := tick_cases x s <;> rw [ht]
  · exact followsLine_dropByte hl h
  · exact followsLine_enterTransmitting h
  · exact followsLine_dropByte hl h
  · exact followsLine_enterAwaiting h
  · exact followsLine_captureByte hl hf hc h
  · exact followsLine_dropByte hl h
  · exact followsLine_endWait h hf
  · exact ⟨h.suffix, .inr (h.capturedInWindow (by simp [BeforeWindow, hf]))⟩
  · exact ⟨h.suffix, .inr (h.capturedInWindow (by simp [BeforeWindow, hf]))⟩

theorem capturedInWindow_exchange (x : Exchange) (hf : s.fsm = .idle) : CapturedInWindow s.line (exchange x s) := by
  have hissue : FollowsLine s.line (issueExchange s) := ⟨List.suffix_rfl, .inl ⟨rfl, .inl hf⟩⟩
  have hend : FollowsLine s.line (exchange x s) := runExchange_keeps x (fun _ ht => followsLine_tick x ht) _ _ hissue
  exact hend.capturedInWindow (by simp [BeforeWindow, (exchange_returns x s hf).1])

end

/-- Settles O35: the exchange starts in `Idle`, and at its return the captured bytes are among those of its window. -/
theorem capturedBytesArrivedInTheWindow : Obligations.CapturedBytesArrivedInTheWindow := by
  intro frame timeout s t got h hgot
  obtain ⟨-, hx⟩ | ⟨-, -, hx⟩ | ⟨-, -, -, hx⟩ | ⟨-, -, -, -, -, hx⟩ | ⟨bs, -, hb, -, -, -, hx⟩ :=
    execSesXchg_cases frame timeout s <;> cases hx.symm.trans h
  have hidle : s.fsm = .idle := by simpa using (Bool.or_eq_false_iff.mp hb).2
  obtain ⟨got', hgot', hsub⟩ := capturedInWindow_exchange _ hidle
  cases hgot'.symm.trans hgot
  exact (List.sublist_append_left _ _).trans hsub

end Sys2Proof.Proofs
end

section
/-! SUPPORT. The encoding family (30_encoding.md): request frames, response frames and commands read back to the instruction
they were written from (rules R92 to R99, R120), what the wire rows do when executed (rule R122), and the refusal of a command
code that the table does not list (rules R120, R296). -/

namespace Sys2Proof.Proofs

open Sys2Proof.Machine Sys2Proof.Laws

/-! ### Fields of a frame -/

@[simp] theorem byteAt_cons_zero (b : Byte) (bs : Bytes) : byteAt (b :: bs) 0 = b := rfl

@[simp] theorem byteAt_cons_succ (b : Byte) (bs : Bytes) (i : Nat) : byteAt (b :: bs) (i + 1) = byteAt bs i := rfl

/-- The 16-bit fields at the end of a body read back from its frame. -/
theorem wordsAt_withChecksum (pre : Bytes) (vs : List U16) :
    wordsAt (withChecksum (pre ++ wordBytes vs)) pre.length vs.length = vs := by
  rw [withChecksum, List.append_assoc]
  exact wordsAt_append pre vs _

theorem pairWord_zero_toNat (b : Byte) : (pairWord 0#8 b).toNat = b.toNat := by
  rw [pairWord, BitVec.toNat_append]
  simp

/-! ### Request frames -/

theorem frameLengthOk_requestFrame {q : Request} (h : q.wf = true) : frameLengthOk (requestFrame q).length = true := by
  obtain ⟨hmin, hmax⟩ := requestBody_length h
  rw [frameLengthOk_iff, requestFrame, withChecksum_length]
  omega

/-- A request frame reads back to its Request (R92 to R94): the length and the checksum pass, and every field is where the
frame's format puts it. -/
theorem parseRequest_requestFrame {q : Request} (h : q.wf = true) : parseRequest (requestFrame q) = some q := by
  have hlen : frameLengthOk (requestFrame q).length = true := frameLengthOk_requestFrame h
  have hsum : checksumGood (requestFrame q) = true := checksumGood_withChecksum _
  simp only [parseRequest, hlen, hsum, Bool.not_true, Bool.or_self, Bool.false_eq_true, if_false]
  cases q with
  | rhr addr start count => simp [requestFrame, requestBody, withChecksum, wordAt, Config.fcRhr]
  | wsr addr reg value => simp [requestFrame, requestBody, withChecksum, wordAt, Config.fcRhr, Config.fcWsr]
  | wmr addr start values =>
    have hcount : values.length ≤ 123 := (writeCountOk_iff.mp (Bool.and_eq_true_iff.mp h).2).2
    have hfields : wordsAt (requestFrame (.wmr addr start values)) 7 values.length = values :=
      wordsAt_withChecksum [addr, Config.fcWmr, hiByte start, loByte start, 0x00#8, BitVec.ofNat 8 values.length,
        BitVec.ofNat 8 (2 * values.length)] values
    have hsize : (requestFrame (.wmr addr start values)).length = 9 + 2 * values.length := by
      rw [requestFrame, withChecksum_length, requestBody_wmr_length]
      omega
    have hcountField : (wordAt (requestFrame (.wmr addr start values)) 4).toNat = values.length :=
      (pairWord_zero_toNat (BitVec.ofNat 8 values.length)).trans (Nat.mod_eq_of_lt (by omega))
    have hbyteCount : (byteAt (requestFrame (.wmr addr start values)) 6).toNat = 2 * values.length :=
      Nat.mod_eq_of_lt (by omega : 2 * values.length < 256)
    have haddr : byteAt (requestFrame (.wmr addr start values)) 0 = addr := rfl
    have hfc : byteAt (requestFrame (.wmr addr start values)) 1 = Config.fcWmr := rfl
    have hstart : wordAt (requestFrame (.wmr addr start values)) 2 = start := pairWord_hiByte_loByte start
    simp [haddr, hfc, hstart, hsize, hcountField, hbyteCount, hfields, Config.fcRhr, Config.fcWsr, Config.fcWmr]

/-! ### Response frames -/

/-- The decoder on a body of legal length with its own checksum is the map of the function code (R171). -/
theorem decodeFrame_withChecksum {body : Bytes} (nExp : Option Nat) (h2 : 2 ≤ body.length) (h254 : body.length ≤ 254) :
    decodeFrame (withChecksum body) nExp = decodeArm (withChecksum body) nExp := by
  have hlen : frameLengthOk (withChecksum body).length = true := by
    rw [frameLengthOk_iff, withChecksum_length]
    omega
  simp only [decodeFrame, hlen, checksumGood_withChecksum, Bool.not_true, Bool.false_eq_true, if_false]

theorem decodeArm_exceptionFrame {addr fc code : Byte} (h : fc.getLsbD 7 = true) (nExp : Option Nat) :
    decodeArm (exceptionFrame addr fc code) nExp = .error (.protocolException addr fc code) := by
  simp [decodeArm, decodeExc, exceptionFrame, withChecksum, h]

/-- The payloads the read arm accepts (R175). -/
theorem readShapeOk_iff {buf : Bytes} {nExp : Option Nat} :
    readShapeOk buf nExp = true ↔
      1 ≤ buf.length - 4 ∧ (byteAt buf 2).toNat = buf.length - 4 - 1 ∧ (byteAt buf 2).toNat ≠ 0 ∧
        (byteAt buf 2).toNat % 2 = 0 ∧ ∀ n ∈ nExp, n = (byteAt buf 2).toNat / 2 := by
  have hodd : (byteAt buf 2).getLsbD 0 = decide ((byteAt buf 2).toNat % 2 = 1) := getLsbD_zero_eq _
  cases nExp <;> simp [readShapeOk, hodd, -BitVec.getLsbD_eq_getElem] <;> omega

theorem decodeArm_responseFrame {r : Response} {nExp : Option Nat}
    (h : ∀ addr values, r = .rhr addr values →
      1 ≤ values.length ∧ values.length ≤ 125 ∧ (nExp = none ∨ nExp = some values.length)) :
    decodeArm (responseFrame r) nExp = .ok r := by
  cases r with
  | rhr addr values =>
    obtain ⟨h1, h125, hn⟩ := h addr values rfl
    have hfields : wordsAt (responseFrame (.rhr addr values)) 3 values.length = values :=
      wordsAt_withChecksum [addr, Config.fcRhr, BitVec.ofNat 8 (2 * values.length)] values
    have hbyteCount : (byteAt (responseFrame (.rhr addr values)) 2).toNat = 2 * values.length :=
      Nat.mod_eq_of_lt (by omega : 2 * values.length < 256)
    have hsize : (responseFrame (.rhr addr values)).length = 5 + 2 * values.length := by
      simp [responseFrame, responseBody]
      omega
    have hshape : readShapeOk (responseFrame (.rhr addr values)) nExp = true := by
      rw [readShapeOk_iff, hbyteCount, hsize]
      refine ⟨by omega, by omega, by omega, by omega, fun n hmem => ?_⟩
      obtain rfl | rfl := hn <;> cases hmem
      omega
    have haddr : byteAt (responseFrame (.rhr addr values)) 0 = addr := rfl
    have hfc : byteAt (responseFrame (.rhr addr values)) 1 = Config.fcRhr := rfl
    simp [decodeArm, decodeRhr, hfc, haddr, hshape, hbyteCount, hfields, Config.fcRhr]
  | wsr addr reg value =>
    simp [decodeArm, decodeWsr, responseFrame, responseBody, withChecksum, wordAt, Config.fcRhr, Config.fcWsr]
  | wmr addr start count =>
    simp [decodeArm, decodeWmr, responseFrame, responseBody, withChecksum, wordAt, Config.fcRhr, Config.fcWsr,
      Config.fcWmr]

/-- The body of a response and its checksum fit a frame. -/
theorem responseBody_length {r : Response} (h : ∀ addr values, r = .rhr addr values → values.length ≤ 125) :
    2 ≤ (responseBody r).length ∧ (responseBody r).length ≤ 254 := by
  cases r with
  | rhr addr values =>
    have h125 : values.length ≤ 125 := h addr values rfl
    simp [responseBody]
    omega
  | wsr | wmr => simp [responseBody]

/-! ### Decoding what was encoded -/

theorem decode_requestFrame {q : Request} (h : q.wf = true) : decode .req (requestFrame q) = .ok (requestInstr q) := by
  simp only [decode, parseRequest_requestFrame h]

theorem decode_exceptionFrame {addr fc code : Byte} (h : fc.getLsbD 7 = true) :
    decode .rsp (exceptionFrame addr fc code) = .ok (.rspExc addr fc code) := by
  have hf : decodeFrame (exceptionFrame addr fc code) none = .error (.protocolException addr fc code) :=
    (decodeFrame_withChecksum none (by simp) (by simp)).trans (decodeArm_exceptionFrame h none)
  simp only [decode, hf]

theorem decode_responseFrame {r : Response}
    (h : ∀ addr values, r = .rhr addr values → 1 ≤ values.length ∧ values.length ≤ 125) :
    decode .rsp (responseFrame r) = .ok (responseInstr r) := by
  obtain ⟨hmin, hmax⟩ := responseBody_length fun addr values hr => (h addr values hr).2
  have harm : decodeArm (responseFrame r) none = .ok r :=
    decodeArm_responseFrame fun addr values hr => ⟨(h addr values hr).1, (h addr values hr).2, .inl rfl⟩
  have hf : decodeFrame (responseFrame r) none = .ok r := (decodeFrame_withChecksum none hmin hmax).trans harm
  simp only [decode, hf]

/-- A command reads back with the bytes after it left over (R120): each operand's reader takes what its writer gave. -/
theorem readFirst_encode {i : Instr} (hc : (encode i).1 = .cmd) (h : i.wf = true) (rest : Bytes) :
    readFirst ((encode i).2 ++ rest) = .ok (i, rest) := by
  cases i with
  | reqRhr | reqWsr | reqWmr | rspExc | rspRhr | rspWsr | rspWmr => cases hc
  | crcInit | crcRead | sesClose | crcAbsorb => simp [encode, readFirst, readCommand]
  | crcCompute | crcValidate | sesOpen | sesXchg => simp [encode, readFirst, readCommand]
  | encRhr | encWsr | encWmr => simp [encode, readFirst, readCommand, readAddrWord]
  | dec buf nExp => simp [encode, readFirst, readCommand, readExpected_writeExpected _ _ h]

theorem decode_encode_cmd {i : Instr} (hc : (encode i).1 = .cmd) (h : i.wf = true) :
    decode .cmd (encode i).2 = .ok i := by
  have hr : readFirst (encode i).2 = .ok (i, []) := by simpa using readFirst_encode hc h []
  simp only [decode, hr]

/-- Settles O49: a request row and a response row by the format of their frame, a command by the readers of its operands. -/
theorem decodeInvertsEncode : Obligations.DecodeInvertsEncode := by
  intro i h
  cases i with
  | reqRhr addr start count => exact decode_requestFrame (q := .rhr addr start count) h
  | reqWsr addr reg value => exact decode_requestFrame (q := .wsr addr reg value) h
  | reqWmr addr start values => exact decode_requestFrame (q := .wmr addr start values) h
  | rspExc addr fc code => exact decode_exceptionFrame h
  | rspRhr addr values =>
    refine decode_responseFrame (r := .rhr addr values) fun _ _ hr => ?_
    cases hr
    exact readCountOk_iff.mp h
  | rspWsr addr reg value => exact decode_responseFrame (r := .wsr addr reg value) nofun
  | rspWmr addr start count => exact decode_responseFrame (r := .wmr addr start count) nofun
  | crcInit | crcAbsorb | crcRead | crcCompute | crcValidate | encRhr | encWsr | encWmr | dec | sesOpen | sesClose
  | sesXchg => exact decode_encode_cmd rfl h

/-! ### Executing a wire row -/

/-- An ill-formed Request is refused for its address or its count (R155). -/
theorem requestRefusal_eq_some {q : Request} {r : Refusal} (h : requestRefusal q = some r) :
    r = .badSlaveAddress ∨ r = .badCount := by
  cases q with
  | wsr addr reg value =>
    simp only [requestRefusal] at h
    split at h <;> cases h
    exact .inl rfl
  | rhr | wmr =>
    simp only [requestRefusal] at h
    split at h
    · cases h
      exact .inl rfl
    · split at h <;> cases h
      exact .inr rfl

/-- Settles O12: a request row is the encoder on its Request. -/
theorem requestFramesAreEmitted : Obligations.RequestFramesAreEmitted := by
  intro q s
  rw [exec_requestInstr]
  obtain ⟨hq, he⟩ | ⟨hq, r, hr, he⟩ := encodeRequest_cases q s
  · refine ⟨fun _ => ⟨writeRun [] 0 (requestFrame q), crcOf (requestBody q), ?_, readRun_writeRun _ _ _, rfl⟩,
      fun hq' => absurd (hq.symm.trans hq') nofun⟩
    rw [he, emit_eq]
    rfl
  · refine ⟨fun hq' => absurd (hq.symm.trans hq') nofun, fun _ => ?_⟩
    rw [he]
    exact (requestRefusal_eq_some hr).imp (congrArg _) (congrArg _)

/-- A well-formed response frame on the decoder: its fields in `res`, the code of its body as scratch (R140, R173). -/
theorem decodeBytes_responseFrame {r : Response} {nExp : Option Nat} (s : State)
    (h : ∀ addr values, r = .rhr addr values →
      1 ≤ values.length ∧ values.length ≤ 125 ∧ (nExp = none ∨ nExp = some values.length)) :
    decodeBytes (responseFrame r) nExp s =
      { s with
        crc := crcOf (responseBody r), k := 0, res := .response r
        written := { s.written with res := true } } := by
  obtain ⟨hmin, hmax⟩ := responseBody_length fun addr values hr => (h addr values hr).2.1
  have harm : decodeArm (withChecksum (responseBody r)) nExp = .ok r := decodeArm_responseFrame h
  rw [responseFrame, decodeBytes_withChecksum nExp s hmin hmax, harm]
  rfl

theorem decodeBytes_exceptionFrame {addr fc code : Byte} (h : fc.getLsbD 7 = true) (nExp : Option Nat) (s : State) :
    decodeBytes (exceptionFrame addr fc code) nExp s =
      { s with
        crc := crcOf [addr, fc, code], k := 0, res := .frameError (.protocolException addr fc code)
        written := { s.written with res := true } } := by
  have harm : decodeArm (withChecksum [addr, fc, code]) nExp = .error (.protocolException addr fc code) :=
    decodeArm_exceptionFrame h nExp
  rw [exceptionFrame, decodeBytes_withChecksum nExp s (by simp) (by simp), harm]
  rfl

/-- Settles O25: a response row is the decoder on its frame. -/
theorem responseRowsDeliverTheirResults : Obligations.ResponseRowsDeliverTheirResults := by
  intro s
  refine ⟨fun addr fc code h => ?_, fun addr values h1 h125 => ?_, fun addr reg value => ?_, fun addr start count => ?_⟩
  · exact congrArg Host.Outcome.next (decodeBytes_exceptionFrame h none s)
  · refine congrArg Host.Outcome.next (decodeBytes_responseFrame (r := .rhr addr values) s fun _ _ hr => ?_)
    cases hr
    exact ⟨h1, h125, .inl rfl⟩
  · exact congrArg Host.Outcome.next (decodeBytes_responseFrame (r := .wsr addr reg value) s nofun)
  · exact congrArg Host.Outcome.next (decodeBytes_responseFrame (r := .wmr addr start count) s nofun)

/-! ### Command codes the table does not list -/

theorem readCommand_unassigned {code : Byte} (bs : Bytes)
    (h : code ∉ [0x01#8, 0x02#8, 0x03#8, 0x04#8, 0x05#8, 0x10#8, 0x11#8, 0x12#8, 0x18#8, 0x20#8, 0x21#8, 0x22#8]) :
    readCommand code bs = .error .unassignedCommand := by
  simp only [List.mem_cons, List.not_mem_nil, or_false, not_or] at h
  simp only [readCommand, h, if_false]

/-- Settles O48: no caller is before the command, and its first byte selects no reader of operands. -/
theorem unassignedCommandsAreRefused : Obligations.UnassignedCommandsAreRefused := by
  intro s p rest code operands hp hr hchannel hbytes hcode
  have hd : decode p.channel p.bytes = .error .unassignedCommand := by
    rw [hchannel, hbytes]
    simp only [decode, readFirst, readCommand_unassigned operands hcode]
  rw [step_eq_runItem hp hr]
  simp only [runItem, hd, rejectItem]

/-- Settles O50: each is one closed run of the decoder. -/
theorem writtenOutWordsDecode : Obligations.WrittenOutWordsDecode := by
  refine ⟨rfl, rfl, rfl, ?_, ?_, ?_, ?_, ?_, ?_⟩ <;> decide +kernel

end Sys2Proof.Proofs
end

section
/-! SUPPORT. The CRC family (40_crc.md): what each command answers (rules R131 to R135), that the streaming commands run one
after another are the one-shot command (rule R134), and the code of a buffer as a linear function of it, which is 0 on
the buffers that validate and not 0 after a change of one byte (rules R136, R137). -/

namespace Sys2Proof.Proofs

open Sys2Proof.Machine Sys2Proof.Laws

/-! ### The streaming commands -/

/-- Settles O1: `CRC.INIT` writes the two engine registers, `CRC.READ` delivers one of them. -/
theorem crcInitSetsStartValue : Obligations.CrcInitSetsStartValue :=
  ⟨rfl, fun _ => ⟨rfl, rfl⟩⟩

/-- Settles O3. -/
theorem crcReadDeliversAccumulator : Obligations.CrcReadDeliversAccumulator :=
  ⟨rfl, fun _ => rfl⟩

theorem exec_crcAbsorb (b : Byte) (s : State) :
    exec (.crcAbsorb b) s = .next { s with crc := absorbCode s.crc b, k := 0 } := by
  simp only [exec, execCrcAbsorb, setEngine, engineAbsorb_crc, engineAbsorb_k, engineOf_crc, absorbCode]

/-- Settles O2: `absorbCode` is eight turns of `shift1`, which is the conditional shift of R132. -/
theorem crcAbsorbShiftsEightTimes : Obligations.CrcAbsorbShiftsEightTimes :=
  fun b s => ⟨rfl, exec_crcAbsorb b s⟩

/-- The streaming commands of a span, one after another, are the engine's own fold over it. -/
theorem foldl_exec_crcAbsorb (bs : Bytes) (e : Engine) (s : State) :
    bs.foldl (fun out b => andThen out (exec (.crcAbsorb b))) (.next (setEngine e s)) =
      .next (setEngine (bs.foldl engineAbsorb e) s) := by
  induction bs generalizing e with
  | nil => rfl
  | cons b bs ih => exact ih (engineAbsorb e b)

/-! ### The one-shot commands -/

theorem runEngine_eq (bs : Bytes) (s : State) : runEngine bs s = { s with crc := crcOf bs, k := 0 } := by
  rw [runEngine, setEngine, engineRun_k, crcOf]

theorem exec_crcCompute {o : Operand} {s : State} {bs : Bytes} (ho : operandBytes o s = some bs) (hbs : bs ≠ []) :
    exec (.crcCompute o) s = .next (deliver (.code (crcOf bs)) (runEngine bs s)) := by
  have hlen : operandLen o s ≠ 0 := by rwa [operandLen_of_bytes ho, ne_eq, List.length_eq_zero_iff]
  simp only [exec, execCrcCompute, if_neg hlen, onBytes_some ho]
  rfl

theorem exec_crcValidate {o : Operand} {s : State} {bs : Bytes} (ho : operandBytes o s = some bs)
    (hbs : 3 ≤ bs.length) :
    exec (.crcValidate o) s =
      .next (deliver (.bool (checksumGood bs)) (setVal (checksumGood bs) (runEngine (spanOf bs) s))) := by
  have hlen : ¬operandLen o s < 3 := by rwa [operandLen_of_bytes ho, not_lt]
  simp only [exec, execCrcValidate, if_neg hlen, onBytes_some ho]

/-- Settles O4: the code of the span is `crcOf`, whatever the state and the operand. -/
theorem crcComputeIsInitAbsorbRead : Obligations.CrcComputeIsInitAbsorbRead := by
  refine ⟨fun o s => ⟨rfl, fun h => if_pos h⟩, fun bs hbs => ⟨crcOf bs, fun o s ho => ?_⟩⟩
  rw [exec_crcCompute ho hbs]
  constructor
  · have hstream : bs.foldl (fun out b => andThen out (exec (.crcAbsorb b))) (exec .crcInit s) =
        .next (runEngine bs s) := foldl_exec_crcAbsorb bs engineInit s
    rw [hstream]
    rfl
  · rw [runEngine_eq]
    rfl

/-- Settles O5: on a span and two bytes after it the comparison is of the span's code with these two. -/
theorem crcValidateComparesCodes : Obligations.CrcValidateComparesCodes := by
  refine fun o s => ⟨rfl, fun h => if_pos h, fun span lo hi ho hspan => ⟨crcOf span, ?_, ?_⟩⟩
  · rw [exec_crcCompute (operandBytes_lit span s) hspan, runEngine_eq]
    rfl
  · have hlen : 3 ≤ (span ++ [lo, hi]).length := by
      have hpos : 0 < span.length := List.length_pos_iff.mpr hspan
      rw [List.length_append, List.length_cons, List.length_singleton]
      omega
    have hgood : checksumGood (span ++ [lo, hi]) = (crcOf span == hi ++ lo) := by
      rw [checksumGood, spanOf_append, trailingCode_append, pairWord]
    rw [exec_crcValidate ho hlen, hgood, spanOf_append, runEngine_eq]
    rfl

/-! ### The code of a whole buffer -/

/-- A buffer is good exactly when its residue is 0 (R137 (b)). -/
theorem checksumGood_eq {bs : Bytes} (h : 2 ≤ bs.length) : checksumGood bs = (crcOf bs == 0#16) := by
  obtain ⟨span, lo, hi, rfl⟩ := exists_span h
  rw [checksumGood, spanOf_append, trailingCode_append, Bool.eq_iff_iff, beq_iff_eq, beq_iff_eq,
    crcOf_append_eq_zero]

/-- Settles O6: `val` is whether the buffer is good, and `crc` is its code. -/
theorem validBuffersHaveZeroResidue : Obligations.ValidBuffersHaveZeroResidue := by
  intro bs s h
  have hne : bs ≠ [] := List.ne_nil_of_length_pos (by omega)
  refine ⟨_, _, exec_crcValidate (operandBytes_lit bs s) h, exec_crcCompute (operandBytes_lit bs s) hne, ?_⟩
  rw [runEngine_eq bs]
  exact checksumGood_eq (by omega)

/-! ### Linearity -/

theorem absorbCode_xor (c d : U16) (a b : Byte) :
    absorbCode (c ^^^ d) (a ^^^ b) = absorbCode c a ^^^ absorbCode d b := by
  simp only [absorbCode, ← shift1_iterate_xor, BitVec.setWidth_xor]
  congr 1
  ac_rfl

/-- Settles O7. -/
theorem absorbIsLinear : Obligations.AbsorbIsLinear :=
  fun s1 s2 b1 b2 => ⟨_, _, _, exec_crcAbsorb b1 s1, exec_crcAbsorb b2 s2, exec_crcAbsorb _ _,
    absorbCode_xor s1.crc s2.crc b1 b2⟩

/-- A change of one byte changes the code by shifts of the change alone: eight for that byte and eight for each
byte after it (R136). -/
theorem crcOf_change (pre post : Bytes) (b e : Byte) :
    crcOf (pre ++ (b ^^^ e) :: post) =
      crcOf (pre ++ b :: post) ^^^ shift1^[8 * (post.length + 1)] (e.setWidth 16) := by
  have hbyte : ∀ c : U16, absorbCode c (b ^^^ e) = absorbCode c b ^^^ shift1^[8] (e.setWidth 16) := fun c => by
    simpa [absorbCode] using absorbCode_xor c 0#16 b e
  rw [crcOf_eq_foldl, crcOf_eq_foldl, List.foldl_append, List.foldl_append, List.foldl_cons, List.foldl_cons, hbyte,
    foldl_absorbCode_xor, Function.iterate_mul,
    Function.iterate_succ_apply (shift1^[8])]

/-- A good buffer with one byte changed is not good: both codes would be 0, so the shifts of the change would be, and a
shift loses nothing. -/
theorem checksumGood_modify {bs : Bytes} {i : Nat} {e : Byte} (h2 : 2 ≤ bs.length) (hi : i < bs.length) (he : e ≠ 0#8)
    (hgood : checksumGood bs = true) : checksumGood (bs.modify i (fun b => b ^^^ e)) = false := by
  rw [checksumGood_eq h2, beq_iff_eq] at hgood
  rw [checksumGood_eq (by rwa [List.length_modify]), beq_eq_false_iff_ne]
  intro hzero
  have hsplit : bs.take i ++ bs[i] :: bs.drop (i + 1) = bs := by
    rw [List.getElem_cons_drop, List.take_append_drop]
  rw [List.modify_eq_take_cons_drop hi, crcOf_change, hsplit, hgood, BitVec.zero_xor] at hzero
  have hwide : e.setWidth 16 = 0#16 := eq_zero_of_shift1_iterate hzero
  exact he (by simpa using congrArg (BitVec.setWidth 8) hwide)

theorem one_shiftLeft_ne_zero {j : Nat} (h : j < 8) : 1#8 <<< j ≠ 0#8 := by
  intro hzero
  have hbit : (1#8 <<< j).getLsbD j = false := by rw [hzero, BitVec.getLsbD_zero]
  simp [h] at hbit

/-- Settles O8: the flipped bit is a change that is not 0. -/
theorem singleBitErrorFailsValidation : Obligations.SingleBitErrorFailsValidation := by
  intro bs i j s t hi hj h hval
  obtain ⟨_, ho, hlen, rfl⟩ := execCrcValidate_eq_next h
  cases ho
  refine ⟨_, exec_crcValidate (operandBytes_lit _ s) (by rwa [List.length_modify]), ?_⟩
  exact checksumGood_modify (by omega) hi (one_shiftLeft_ne_zero hj) hval

end Sys2Proof.Proofs
end

section
/-! SUPPORT. The encoder family (41_encode.md): what each `ENC.*` command puts in the transmit buffer and what it
refuses (rules R151 to R155), what holds of every encoded frame (rule R156), and the response frames on the decoder
(rule R157). -/

namespace Sys2Proof.Proofs

open Sys2Proof.Machine Sys2Proof.Laws

/-! ### Refusals -/

/-- The slave address of a Request, byte 0 of its frame (R90). -/
def slaveOf : Request → Byte
  | .rhr addr _ _ => addr
  | .wsr addr _ _ => addr
  | .wmr addr _ _ => addr

theorem addrOk_slaveOf {q : Request} (h : q.wf = true) : addrOk (slaveOf q) = true := by
  cases q with
  | wsr addr reg value => exact h
  | rhr | wmr => exact (Bool.and_eq_true_iff.mp h).1

theorem exec_encoderInstr_of_refusal {q : Request} {r : Refusal} (h : requestRefusal q = some r) (s : State) :
    exec (encoderInstr q) s = .refused r := by
  simp only [exec_encoderInstr, encodeRequest, h]

/-- An illegal address is refused, whatever the count. -/
theorem requestRefusal_badSlaveAddress {q : Request} (h : ¬(1 ≤ (slaveOf q).toNat ∧ (slaveOf q).toNat ≤ 247)) :
    requestRefusal q = some .badSlaveAddress := by
  have haddr : addrOk (slaveOf q) = false := Bool.eq_false_of_not_eq_true (mt addrOk_iff.mp h)
  cases q <;> exact if_pos (by rw [Bool.not_eq_true']; exact haddr)

theorem requestRefusal_rhr_badCount {addr : Byte} {count : U16} (start : U16)
    (ha : 1 ≤ addr.toNat ∧ addr.toNat ≤ 247) (hc : ¬(1 ≤ count.toNat ∧ count.toNat ≤ 125)) :
    requestRefusal (.rhr addr start count) = some .badCount := by
  have hcount : readCountOk count.toNat = false := Bool.eq_false_of_not_eq_true (mt readCountOk_iff.mp hc)
  simp [requestRefusal, addrOk_iff.mpr ha, hcount]

theorem requestRefusal_wmr_badCount {addr : Byte} {values : List U16} (start : U16)
    (ha : 1 ≤ addr.toNat ∧ addr.toNat ≤ 247) (hc : ¬(1 ≤ values.length ∧ values.length ≤ 123)) :
    requestRefusal (.wmr addr start values) = some .badCount := by
  have hcount : writeCountOk values.length = false := Bool.eq_false_of_not_eq_true (mt writeCountOk_iff.mp hc)
  simp [requestRefusal, addrOk_iff.mpr ha, hcount]

/-! ### Emission -/

/-- What the encoder command of a well-formed Request does (R154): the body and the code `CRC.COMPUTE` gives it stand in
the transmit buffer, with nothing above them, and only the encoder's own registers change. -/
theorem encoderInstr_emits {q : Request} (hq : q.wf = true) (s : State) :
    ∃ (buf : Memory) (c : U16),
      exec (.crcCompute (.lit (requestBody q))) s =
        .next { s with crc := c, k := 0, res := .code c, written := { s.written with res := true } } ∧
      exec (encoderInstr q) s =
        .next
          { s with
            txbuf := buf, txlen := (requestBody q).length + 2, crc := c, k := 0
            res := .length ((requestBody q).length + 2)
            written := { s.written with res := true } } ∧
      readRun buf 0 ((requestBody q).length + 2) = some (requestBody q ++ codeBytes c) ∧
      memoryWf 256 buf = true ∧ ∀ i, (requestBody q).length + 2 ≤ i → readMem buf i = none := by
  obtain ⟨hmin, hmax⟩ := requestBody_length hq
  have hne : requestBody q ≠ [] := List.ne_nil_of_length_pos (by omega)
  have hlen : (requestFrame q).length = (requestBody q).length + 2 := withChecksum_length _
  have hnext : exec (encoderInstr q) s = .next (emit (requestBody q) s) := by
    simp only [exec_encoderInstr, encodeRequest, (requestRefusal_eq_none q).mpr hq]
  refine ⟨writeRun [] 0 (requestFrame q), crcOf (requestBody q), ?_, ?_, ?_, ?_, fun i hi => ?_⟩
  · rw [exec_crcCompute (operandBytes_lit _ s) hne, runEngine_eq]
    rfl
  · rw [hnext, emit_eq, withChecksum_length]
    rfl
  · rw [← hlen]
    exact readRun_writeRun [] 0 (requestFrame q)
  · exact memoryWf_writeRun (memoryWf_nil 256) (by omega)
  · exact readMem_writeRun_ge (by omega)

/-- Settles O9. -/
theorem encRhrEmitsItsFrame : Obligations.EncRhrEmitsItsFrame := by
  refine fun addr start count s => ⟨rfl, fun ha => ?_, fun ha hc => ?_, fun ha hc => ?_⟩
  · exact exec_encoderInstr_of_refusal (q := .rhr addr start count) (requestRefusal_badSlaveAddress ha) s
  · exact exec_encoderInstr_of_refusal (requestRefusal_rhr_badCount start ha hc) s
  · have hq : Request.wf (.rhr addr start count) = true :=
      Bool.and_eq_true_iff.mpr ⟨addrOk_iff.mpr ha, readCountOk_iff.mpr hc⟩
    exact encoderInstr_emits hq s

/-- Settles O10: the address is all there is to check. -/
theorem encWsrEmitsItsFrame : Obligations.EncWsrEmitsItsFrame := by
  refine fun addr reg value s => ⟨rfl, fun ha => ?_, fun ha => ?_⟩
  · exact exec_encoderInstr_of_refusal (q := .wsr addr reg value) (requestRefusal_badSlaveAddress ha) s
  · have hq : Request.wf (.wsr addr reg value) = true := addrOk_iff.mpr ha
    exact encoderInstr_emits hq s

/-- Settles O11: `wordBytes` is the values in index order, two bytes each. -/
theorem encWmrEmitsItsFrame : Obligations.EncWmrEmitsItsFrame := by
  refine fun addr start values s => ⟨rfl, fun ha => ?_, fun ha hc => ?_, fun ha hc => ?_⟩
  · exact exec_encoderInstr_of_refusal (q := .wmr addr start values) (requestRefusal_badSlaveAddress ha) s
  · exact exec_encoderInstr_of_refusal (requestRefusal_wmr_badCount start ha hc) s
  · have hq : Request.wf (.wmr addr start values) = true :=
      Bool.and_eq_true_iff.mpr ⟨addrOk_iff.mpr ha, writeCountOk_iff.mpr hc⟩
    have hlen : (requestBody (.wmr addr start values)).length + 2 = 9 + 2 * values.length := by
      rw [requestBody_wmr_length]
      omega
    obtain ⟨buf, c, hcompute, hexec, hframe, hwf, habove⟩ := encoderInstr_emits hq s
    rw [hlen] at hexec hframe habove
    refine ⟨buf, c, requestBody (.wmr addr start values), ?_, hcompute, hexec, hframe, hwf, habove⟩
    rw [← wordBytes_eq_flatMap]
    rfl

/-! ### What holds of every encoded frame -/

theorem encodeFor_eq_next {q : Request} {s t : State} (h : encodeFor q s = .next t) :
    q.wf = true ∧ t = emit (requestBody q) s :=
  encodeRequest_eq_next ((encodeFor_eq q s).symm.trans h)

theorem emit_txlen (body : Bytes) (s : State) : (emit body s).txlen = body.length + 2 :=
  withChecksum_length body

/-- A byte of the transmit buffer after an emission is the byte of the frame. -/
theorem readMem_emit (body : Bytes) (s : State) {i : Nat} (h : i < body.length + 2) :
    readMem (emit body s).txbuf i = (withChecksum body)[i]? := by
  have hi : i < (emit body s).txlen := by rwa [emit_txlen]
  simpa using readMem_of_readRun (readRun_emit body s) i hi

theorem requestFrame_slave (q : Request) : (requestFrame q)[0]? = some (slaveOf q) := by
  cases q <;> rfl

theorem requestFrame_functionCode (q : Request) :
    ∃ fc, (requestFrame q)[1]? = some fc ∧ (fc = 0x03#8 ∨ fc = 0x06#8 ∨ fc = 0x10#8) := by
  cases q with
  | rhr => exact ⟨0x03#8, rfl, .inl rfl⟩
  | wsr => exact ⟨0x06#8, rfl, .inr (.inl rfl)⟩
  | wmr => exact ⟨0x10#8, rfl, .inr (.inr rfl)⟩

/-- Settles O13: a command that answers had a well-formed Request and left its frame. -/
theorem encodedFramesAreLegal : Obligations.EncodedFramesAreLegal := by
  intro q s t h
  obtain ⟨hq, rfl⟩ := encodeFor_eq_next h
  obtain ⟨hmin, hmax⟩ := requestBody_length hq
  have hlong : 3 ≤ (withChecksum (requestBody q)).length := by rw [withChecksum_length]; omega
  rw [emit_txlen, readMem_emit _ s (by omega), readMem_emit _ s (by omega)]
  refine ⟨by omega, by omega, ⟨slaveOf q, requestFrame_slave q, addrOk_iff.mp (addrOk_slaveOf hq)⟩,
    requestFrame_functionCode q, _, exec_crcValidate (operandBytes_emit _ s) hlong, ?_⟩
  exact checksumGood_withChecksum (requestBody q)

/-- A well-formed Request is determined by its frame, which reads back to it. -/
theorem requestFrame_injective {q q' : Request} (hq : q.wf = true) (hq' : q'.wf = true)
    (h : requestFrame q = requestFrame q') : q = q' := by
  have hparse : some q = some q' := by
    rw [← parseRequest_requestFrame hq, h, parseRequest_requestFrame hq']
  exact Option.some.inj hparse

/-- Settles O14. -/
theorem encodingIsInjective : Obligations.EncodingIsInjective := by
  intro q q' s t t' h h' hframes
  obtain ⟨hq, rfl⟩ := encodeFor_eq_next h
  obtain ⟨hq', rfl⟩ := encodeFor_eq_next h'
  rw [readRun_emit, readRun_emit] at hframes
  exact requestFrame_injective hq hq' (Option.some.inj hframes)

/-! ### Response frames on the decoder -/

/-- Settles O24: `DEC` of a literal is the decoder on its bytes. -/
theorem responseFramesDecodeToTheirFields : Obligations.ResponseFramesDecodeToTheirFields :=
  fun r _ s h => ⟨crcOf (responseBody r), congrArg Host.Outcome.next (decodeBytes_responseFrame s h)⟩

end Sys2Proof.Proofs
end

section
/-! SUPPORT. The decoder family (42_decode.md): `DEC` in the order of rule R171. The length is checked first (rule R172), then
the checksum (rule R173), then the function code selects an arm (rules R174 to R179); the command is total and touches only
its scratch and `res` (rule R180), a flipped bit is seen (rule R183), and the encoder's own frames are decoded as rule R182
says. -/

namespace Sys2Proof.Proofs

open Sys2Proof.Machine Sys2Proof.Laws

/-! ### The command -/

theorem exec_dec {o : Operand} {s : State} {bs : Bytes} (ho : operandBytes o s = some bs) (nExp : Option Nat) :
    exec (.dec o nExp) s = .next (decodeBytes bs nExp s) :=
  onBytes_some ho _

/-- The result of `DEC` on a frame of legal length with a good checksum is what the arm of its function code makes of it. -/
theorem exec_dec_of_arm {o : Operand} {nExp : Option Nat} {addr fc : Byte} {payload : Bytes} {s : State} {r : Result}
    (ho : operandBytes o s = some (withChecksum (addr :: fc :: payload))) (hp : payload.length ≤ 252)
    (harm : decResult (decodeArm (withChecksum (addr :: fc :: payload)) nExp) = r) :
    exec (.dec o nExp) s = .next
      { s with
        crc := crcOf (addr :: fc :: payload), k := 0, res := r
        written := { s.written with res := true } } := by
  have hmin : 2 ≤ (addr :: fc :: payload).length := by simp
  have hmax : (addr :: fc :: payload).length ≤ 254 := Nat.add_le_add_right hp 2
  rw [exec_dec ho, decodeBytes_withChecksum nExp s hmin hmax, harm]

theorem decResult_cases (r : Except FrameError Response) :
    (∃ a, decResult r = .response a) ∨ ∃ e, decResult r = .frameError e := by
  cases r with
  | ok a => exact .inl ⟨a, rfl⟩
  | error e => exact .inr ⟨e, rfl⟩

/-- Settles O21: `decodeBytes` is one write of `res`, on the scratch of the checksum when the length was legal. -/
theorem decIsTotalAndPure : Obligations.DecIsTotalAndPure := by
  intro o nExp bs s ho
  rw [exec_dec ho, decodeBytes_eq]
  split
  · exact ⟨_, _, _, rfl, decResult_cases _⟩
  · exact ⟨s.crc, s.k, _, rfl, decResult_cases _⟩

/-! ### The two checks before the function code -/

/-- Settles O15. -/
theorem decChecksLengthFirst : Obligations.DecChecksLengthFirst := by
  intro o nExp bs s ho h
  have hlen : ¬frameLengthOk bs.length = true := by
    rw [frameLengthOk_iff]
    omega
  have hframe : decodeFrame bs nExp = .error .malformedFrame := by simp [decodeFrame, hlen]
  rw [exec_dec ho, decodeBytes_eq, if_neg hlen, hframe]
  rfl

/-- `DEC` of a frame of legal length whose checksum is wrong, whatever its other bytes are (R173). -/
theorem exec_dec_of_badChecksum {o : Operand} {s : State} {bs : Bytes} (ho : operandBytes o s = some bs)
    (nExp : Option Nat) (hmin : 4 ≤ bs.length) (hmax : bs.length ≤ 256) (hbad : checksumGood bs = false) :
    exec (.dec o nExp) s = .next
      { s with
        crc := crcOf (spanOf bs), k := 0, res := .frameError .checksumMismatch
        written := { s.written with res := true } } := by
  have hlen : frameLengthOk bs.length = true := frameLengthOk_iff.mpr ⟨hmin, hmax⟩
  have hframe : decodeFrame bs nExp = .error .checksumMismatch := by simp [decodeFrame, hlen, hbad]
  rw [exec_dec ho, decodeBytes_eq, if_pos hlen, hframe]
  rfl

/-- Settles O16: the code `CRC.COMPUTE` gives the span is the one the check compares with the last two bytes. -/
theorem decReportsChecksumMismatch : Obligations.DecReportsChecksumMismatch := by
  intro o nExp span lo hi s ho h2 h254
  refine ⟨crcOf span, ?_, fun hne => ?_⟩
  · rw [exec_crcCompute (operandBytes_lit span s) (List.ne_nil_of_length_pos (by omega)), runEngine_eq]
    rfl
  · have hlen : (span ++ [lo, hi]).length = span.length + 2 := List.length_append
    have hbad : checksumGood (span ++ [lo, hi]) = false := by
      rw [checksumGood, spanOf_append, trailingCode_append, beq_eq_false_iff_ne]
      exact hne
    rw [exec_dec_of_badChecksum ho nExp (by omega) (by omega) hbad, spanOf_append]

/-- Settles O22: a good frame with one bit flipped keeps its length and loses its checksum. -/
theorem singleBitErrorIsChecksumMismatch : Obligations.SingleBitErrorIsChecksumMismatch := by
  intro bs i j nExp s v h4 h256 h hval hi hj
  obtain ⟨_, ho, -, rfl⟩ := execCrcValidate_eq_next h
  cases ho
  have hbad : checksumGood (bs.modify i fun b => b ^^^ (1#8 <<< j)) = false :=
    checksumGood_modify (by omega) hi (one_shiftLeft_ne_zero hj) hval
  exact ⟨_, exec_dec_of_badChecksum (operandBytes_lit _ s) nExp (by rwa [List.length_modify])
    (by rwa [List.length_modify]) hbad, rfl⟩

/-! ### The map of the function code -/

/-- The length the arms test: two bytes before the payload and two of checksum after it. -/
theorem frame_length (addr fc : Byte) (payload : Bytes) :
    (withChecksum (addr :: fc :: payload)).length = payload.length + 4 := by
  rw [withChecksum_length, List.length_cons, List.length_cons]

/-- The function code is byte 1 of a frame (R90). -/
theorem byteAt_frame_one (addr fc : Byte) (payload : Bytes) :
    byteAt (withChecksum (addr :: fc :: payload)) 1 = fc := rfl

section

variable {buf : Bytes} {fc : Byte} {nExp : Option Nat}

theorem decodeArm_of_flag (hfc : byteAt buf 1 = fc) (hflag : fc.getLsbD 7 = true) :
    decodeArm buf nExp = decodeExc buf :=
  if_pos (by rw [hfc, hflag])

theorem decodeArm_rhr (h : byteAt buf 1 = 0x03#8) : decodeArm buf nExp = decodeRhr buf nExp := by
  simp [decodeArm, h, Config.fcRhr]

theorem decodeArm_wsr (h : byteAt buf 1 = 0x06#8) : decodeArm buf nExp = decodeWsr buf := by
  simp [decodeArm, h, Config.fcRhr, Config.fcWsr]

theorem decodeArm_wmr (h : byteAt buf 1 = 0x10#8) : decodeArm buf nExp = decodeWmr buf := by
  simp [decodeArm, h, Config.fcRhr, Config.fcWsr, Config.fcWmr]

theorem decodeArm_unsupported (hfc : byteAt buf 1 = fc) (hflag : fc.getLsbD 7 = false) (h3 : fc ≠ 0x03#8)
    (h6 : fc ≠ 0x06#8) (h16 : fc ≠ 0x10#8) : decodeArm buf nExp = .error .malformedFrame := by
  simp only [decodeArm, hfc, hflag, Config.fcRhr, Config.fcWsr, Config.fcWmr, h3, h6, h16, Bool.false_eq_true, if_false]

end

/-- Settles O20. -/
theorem decUnsupportedFunctionIsMalformed : Obligations.DecUnsupportedFunctionIsMalformed :=
  fun _ _ _ _ _ _ ho hp hflag h3 h6 h16 =>
    exec_dec_of_arm ho hp (congrArg decResult (decodeArm_unsupported (byteAt_frame_one _ _ _) hflag h3 h6 h16))

/-! ### The exception arm -/

theorem decodeExc_of_length_ne {addr fc : Byte} {payload : Bytes} (h : payload.length ≠ 1) :
    decodeExc (withChecksum (addr :: fc :: payload)) = .error .malformedFrame :=
  if_pos (by rwa [frame_length, Nat.add_sub_cancel])

/-- Settles O17: the arm tells one payload byte from every other payload. -/
theorem decExceptionArm : Obligations.DecExceptionArm := by
  intro o nExp addr fc payload s ho hp hflag
  refine exec_dec_of_arm ho hp ?_
  split
  · exact congrArg decResult (decodeArm_exceptionFrame hflag nExp)
  · next hne =>
    have hlen : payload.length ≠ 1 := fun h1 => (List.length_eq_one_iff.mp h1).elim hne
    rw [decodeArm_of_flag (byteAt_frame_one _ _ _) hflag, decodeExc_of_length_ne hlen, decResult]

/-! ### The write arms -/

theorem decodeWsr_of_length_ne {addr fc : Byte} {payload : Bytes} (h : payload.length ≠ 4) :
    decodeWsr (withChecksum (addr :: fc :: payload)) = .error .malformedFrame :=
  if_pos (by rw [frame_length]; omega)

theorem decodeWmr_of_length_ne {addr fc : Byte} {payload : Bytes} (h : payload.length ≠ 4) :
    decodeWmr (withChecksum (addr :: fc :: payload)) = .error .malformedFrame :=
  if_pos (by rw [frame_length]; omega)

theorem length_ne_four {payload : Bytes} (h : ∀ a b c d, payload ≠ [a, b, c, d]) : payload.length ≠ 4 := fun h4 => by
  obtain ⟨a, b, c, d, hpayload⟩ := List.length_eq_four.mp h4
  exact h a b c d hpayload

/-- Settles O19: each arm tells four payload bytes, which are its two fields, from every other payload. -/
theorem decWriteArms : Obligations.DecWriteArms := by
  refine fun o nExp addr payload s hp => ⟨fun ho => exec_dec_of_arm ho hp ?_, fun ho => exec_dec_of_arm ho hp ?_⟩
  · rw [decodeArm_wsr rfl]
    split
    · rfl
    · next hne => rw [decodeWsr_of_length_ne (length_ne_four hne), decResult]
  · rw [decodeArm_wmr rfl]
    split
    · rfl
    · next hne => rw [decodeWmr_of_length_ne (length_ne_four hne), decResult]

/-! ### The read arm -/

/-- An even number of bytes is the bytes of registers. -/
theorem exists_wordBytes : ∀ {bs : Bytes}, bs.length % 2 = 0 → ∃ vs, wordBytes vs = bs
  | [], _ => ⟨[], rfl⟩
  | [_], h => by cases h
  | hi :: lo :: bs, h => by
    obtain ⟨vs, rfl⟩ := exists_wordBytes (bs := bs) ((Nat.add_mod_right bs.length 2).symm.trans h)
    exact ⟨pairWord hi lo :: vs, by simp [wordBytes]⟩

/-- The payload of a read response (R96): the byte count and that many bytes of registers, as many as expected when a
count is expected (R175). -/
def IsReadPayload (nExp : Option Nat) (payload : Bytes) (values : List U16) : Prop :=
  values ≠ [] ∧ (∀ n, nExp = some n → values.length = n) ∧
    payload = BitVec.ofNat 8 (2 * values.length) ::
      values.flatMap (fun v => [v.extractLsb' 8 8, v.extractLsb' 0 8])

/-- What passes the checks of R175 is such a payload. -/
theorem exists_isReadPayload {addr fc : Byte} {payload : Bytes} {nExp : Option Nat}
    (h : readShapeOk (withChecksum (addr :: fc :: payload)) nExp = true) : ∃ values, IsReadPayload nExp payload values := by
  obtain ⟨hpos, hcount, hne, heven, hexp⟩ := readShapeOk_iff.mp h
  rw [frame_length, Nat.add_sub_cancel] at hpos hcount
  obtain ⟨b, rest, rfl⟩ := List.exists_cons_of_length_pos hpos
  have hb : byteAt (withChecksum (addr :: fc :: b :: rest)) 2 = b := rfl
  rw [hb] at hcount hne heven hexp
  rw [List.length_cons, Nat.add_sub_cancel] at hcount
  obtain ⟨values, rfl⟩ := exists_wordBytes (hcount ▸ heven)
  rw [wordBytes_length] at hcount
  refine ⟨values, ?_, fun n hn => ?_, ?_⟩
  · rintro rfl
    exact hne hcount
  · have hhalf : n = b.toNat / 2 := hexp n hn
    omega
  · rw [← hcount, BitVec.ofNat_toNat, BitVec.setWidth_eq, wordBytes_eq_flatMap]

/-- Such a payload is that of a response frame, which decodes to its values. -/
theorem decodeArm_of_isReadPayload {addr : Byte} {payload : Bytes} {nExp : Option Nat} {values : List U16}
    (h : IsReadPayload nExp payload values) (hp : payload.length ≤ 252) :
    decodeArm (withChecksum (addr :: 0x03#8 :: payload)) nExp = .ok (.rhr addr values) := by
  obtain ⟨hne, hexp, rfl⟩ := h
  rw [← wordBytes_eq_flatMap] at hp ⊢
  rw [List.length_cons, wordBytes_length] at hp
  refine decodeArm_responseFrame (r := .rhr addr values) fun _ _ hr => ?_
  cases hr
  refine ⟨List.length_pos_iff.mpr hne, by omega, ?_⟩
  cases nExp with
  | none => exact .inl rfl
  | some n => exact .inr (congrArg some (hexp n rfl).symm)

/-- Settles O18: the arm's checks pass exactly on the payloads of a read response. -/
theorem decReadArm : Obligations.DecReadArm := by
  intro o nExp addr payload s ho hp
  by_cases h : ∃ values, IsReadPayload nExp payload values
  · obtain ⟨values, hv⟩ := h
    have hexec := exec_dec_of_arm ho hp (congrArg decResult (decodeArm_of_isReadPayload hv hp))
    obtain ⟨hne, hexp, hpayload⟩ := hv
    exact .inl ⟨values, hne, hexp, hpayload, hexec⟩
  · have harm : decodeArm (withChecksum (addr :: 0x03#8 :: payload)) nExp = .error .malformedFrame := by
      rw [decodeArm_rhr rfl]
      exact if_neg (mt exists_isReadPayload h)
    exact .inr ⟨h, exec_dec_of_arm ho hp (congrArg decResult harm)⟩

/-! ### The encoder's own frames -/

/-- A read request has three payload bytes after the place of the byte count, an odd number. -/
theorem decodeArm_requestFrame_rhr (addr : Byte) (start count : U16) (nExp : Option Nat) :
    decodeArm (requestFrame (.rhr addr start count)) nExp = .error .malformedFrame := by
  rw [decodeArm_rhr rfl]
  refine if_neg fun h => ?_
  obtain ⟨-, hcount, -, heven, -⟩ := readShapeOk_iff.mp h
  have hlen : (requestFrame (.rhr addr start count)).length = 8 := rfl
  omega

/-- A multiple-write request carries a byte count and values after the four bytes of a multiple-write response. -/
theorem decodeArm_requestFrame_wmr (addr : Byte) (start : U16) (values : List U16) (nExp : Option Nat) :
    decodeArm (requestFrame (.wmr addr start values)) nExp = .error .malformedFrame := by
  rw [decodeArm_wmr rfl]
  refine if_pos ?_
  rw [requestFrame, withChecksum_length, requestBody_wmr_length]
  omega

/-- Settles O23: the frame left in the transmit buffer passes both checks, and a single-write request has the form of its
own response. -/
theorem decodingEncodedRequests : Obligations.DecodingEncodedRequests := by
  intro q nExp s t h
  obtain ⟨hq, rfl⟩ := encodeFor_eq_next h
  obtain ⟨hmin, hmax⟩ := requestBody_length hq
  refine ⟨_, exec_dec (operandBytes_emit _ s) nExp, ?_⟩
  rw [decodeBytes_withChecksum nExp _ (by omega) (by omega)]
  cases q with
  | rhr addr start count => exact congrArg decResult (decodeArm_requestFrame_rhr addr start count nExp)
  | wsr addr reg value => exact congrArg decResult (decodeArm_responseFrame (r := .wsr addr reg value) nofun)
  | wmr addr start values => exact congrArg decResult (decodeArm_requestFrame_wmr addr start values nExp)

end Sys2Proof.Proofs
end

section
/-! SUPPORT. The session family (43_session.md): opening and closing (rules R201, R202), what a tick does from each state of
the machine (rules R204, R209 to R216), an exchange as three stays in `Idle`, `Transmitting` and `AwaitingResponse` with the
transitions between them (rules R203 to R215), and what that makes of its time, its frame and its result (rules R205, R207,
R217, R219, R221, R225). -/

namespace Sys2Proof.Proofs

open Sys2Proof.Machine Sys2Proof.Laws

/-! ### Opening and closing -/

theorem handle_ne_opened {s : State} (h : s.handle = .closed) : ¬ s.handle = .opened := by
  rw [h]
  nofun

/-- Settles O27: the handle is checked first, then the baud rate. -/
theorem sesOpenConfiguresTheSession : Obligations.SesOpenConfiguresTheSession := by
  intro baud parity stop timeout s
  refine ⟨rfl, fun ho => if_pos ho, fun hc hbaud => ?_, fun hc hbaud => ?_⟩
  · exact (if_neg (handle_ne_opened hc)).trans (dif_pos hbaud)
  · exact (if_neg (handle_ne_opened hc)).trans (dif_neg hbaud.ne')

theorem execSesXchg_closed (frame : Operand) (timeout : TimeoutArg) {s : State} (h : s.handle = .closed) :
    execSesXchg frame timeout s = .refused .closed :=
  if_pos (handle_ne_opened h)

/-- Settles O28. -/
theorem sesCloseReleasesTheHandle : Obligations.SesCloseReleasesTheHandle := by
  exact ⟨rfl, fun s => ⟨fun hb => if_pos hb, fun hb => if_neg (by simp [hb]), fun frame timeout =>
    execSesXchg_closed frame timeout rfl⟩⟩

theorem sessionBusy_eq_true {s : State} : sessionBusy s = true ↔ s.busy = true ∨ s.fsm ≠ .idle := by
  simp [sessionBusy]

theorem sessionBusy_eq_false {s : State} : sessionBusy s = false ↔ s.busy = false ∧ s.fsm = .idle := by
  simp [sessionBusy]

/-- Settles O29: each check is reached once those before it have passed. -/
theorem sesXchgPreconditions : Obligations.SesXchgPreconditions := by
  intro frame timeout s
  refine ⟨execSesXchg_closed frame timeout, fun ho hb => ?_, fun ho hb hf hlen => ?_⟩
  · exact (if_neg (not_not_intro ho)).trans (if_pos (sessionBusy_eq_true.mpr hb))
  · have hfree : ¬ sessionBusy s = true := by simp [sessionBusy_eq_false.mpr ⟨hb, hf⟩]
    exact (if_neg (not_not_intro ho)).trans ((if_neg hfree).trans (if_pos hlen))

/-! ### What a tick does from each state -/

section
variable (x : Exchange) {s : State}

theorem tick_of_idle (hf : s.fsm = .idle) :
    (∃ e rest, s.line = e :: rest ∧ e.time < startTime x s ∧ tick x s = dropByte e rest s) ∨
    ((∀ e rest, s.line = e :: rest → startTime x s ≤ e.time) ∧ tick x s = enterTransmitting x s) := by
  simpa [hf] using tick_cases x s

theorem tick_of_transmitting (hf : s.fsm = .transmitting) :
    (∃ e rest, s.line = e :: rest ∧ e.time ≤ s.tTxend ∧ tick x s = dropByte e rest s) ∨
    ((∀ e rest, s.line = e :: rest → s.tTxend < e.time) ∧ tick x s = enterAwaiting x s) := by
  simpa [hf] using tick_cases x s

theorem tick_of_awaiting (hf : s.fsm = .awaitingResponse) :
    (∃ e rest, s.line = e :: rest ∧ captures x s e = true ∧ tick x s = captureByte e rest s) ∨
    (∃ e rest, s.line = e :: rest ∧ captures x s e = false ∧ e.time ≤ s.tAw ∧ tick x s = dropByte e rest s) ∨
    ((∀ e rest, s.line = e :: rest → captures x s e = false ∧ s.tAw < e.time) ∧ tick x s = endWait x s) := by
  simpa [hf] using tick_cases x s

theorem tick_of_complete (hf : s.fsm = .complete) : tick x s = finishComplete s := by
  simpa [hf] using tick_cases x s

theorem tick_of_timedOut (hf : s.fsm = .timedOut) : tick x s = finishTimedOut s := by
  simpa [hf] using tick_cases x s

end

/-! ### Capture and the end of the wait -/

/-- A byte is captured exactly when it arrives inside the window and, after the first, inside the silence interval (R209). -/
theorem captures_iff {x : Exchange} {s : State} {e : TimedByte} :
    captures x s e = true ↔ s.tAw < e.time ∧ e.time < s.tDl ∧ (1 ≤ s.rxlen → e.time < s.tRx + x.t35) := by
  have hlen : (s.rxlen = 0 ∨ e.time < s.tRx + x.t35) ↔ (1 ≤ s.rxlen → e.time < s.tRx + x.t35) := by
    rw [Nat.one_le_iff_ne_zero, or_iff_not_imp_left]
  simp [captures, hlen, and_assoc]

theorem captureByte_of_room (e : TimedByte) (rest : List TimedByte) {s : State} (h : s.rxlen < Config.rxCap) :
    captureByte e rest s =
      { s with
        line := rest, now := max s.now e.time, tRx := e.time, tLast := e.time
        rxbuf := writeMem s.rxbuf s.rxlen e.byte, rxlen := s.rxlen + 1 } := by
  simp [captureByte, h, reach]

theorem captureByte_of_full (e : TimedByte) (rest : List TimedByte) {s : State} (h : ¬ s.rxlen < Config.rxCap) :
    captureByte e rest s =
      { s with line := rest, now := max s.now e.time, tRx := e.time, tLast := e.time, rxOvf := true } := by
  simp [captureByte, h, reach, setOverflow]

/-- A capture touches the line, the time, the last activity, `tRx` and the capture buffer; nothing else. -/
theorem captureByte_frame (e : TimedByte) (rest : List TimedByte) (s : State) :
    captureByte e rest s =
      { s with
        line := rest, now := max s.now e.time, tRx := e.time, tLast := e.time
        rxbuf := (captureByte e rest s).rxbuf
        rxlen := (captureByte e rest s).rxlen
        rxOvf := (captureByte e rest s).rxOvf } := by
  by_cases h : s.rxlen < Config.rxCap
  · rw [captureByte_of_room e rest h]
  · rw [captureByte_of_full e rest h]

@[simp] theorem dropByte_fsm (e : TimedByte) (rest : List TimedByte) (s : State) : (dropByte e rest s).fsm = s.fsm := by
  rw [dropByte_frame]

@[simp] theorem captureByte_fsm (e : TimedByte) (rest : List TimedByte) (s : State) :
    (captureByte e rest s).fsm = s.fsm := by
  rw [captureByte_frame]

/-- T3 (R211). -/
theorem endWait_complete {x : Exchange} {s : State} (h : 1 ≤ s.rxlen ∧ s.tRx + x.t35 ≤ s.tDl) :
    endWait x s = { s with fsm := .complete, now := max s.now (s.tRx + x.t35) } :=
  if_pos h

/-- T4 (R212). -/
theorem endWait_timedOut {x : Exchange} {s : State} (h : ¬(1 ≤ s.rxlen ∧ s.tRx + x.t35 ≤ s.tDl)) :
    endWait x s = { s with fsm := .timedOut, now := max s.now s.tDl } :=
  if_neg h

/-- The end of the wait touches the state machine and the time; nothing else. -/
theorem endWait_frame (x : Exchange) (s : State) :
    endWait x s = { s with fsm := (endWait x s).fsm, now := (endWait x s).now } := by
  unfold endWait
  split <;> rfl

/-! ### The transitions -/

/-- A tick writes the transmit stream by T1 only (R206, R217). -/
theorem tick_tx (x : Exchange) (s : State) :
    (tick x s).tx = s.tx ∨ (s.fsm = .idle ∧ (tick x s).fsm = .transmitting) := by
  obtain ⟨e, rest, -, -, -, ht⟩ | ⟨hf, -, ht⟩ | ⟨e, rest, -, -, -, ht⟩ | ⟨-, -, ht⟩ | ⟨e, rest, -, -, -, ht⟩ |
    ⟨e, rest, -, -, -, -, ht⟩ | ⟨-, -, ht⟩ | ⟨-, ht⟩ | ⟨-, ht⟩ := tick_cases x s <;> rw [ht]
  · rw [dropByte_frame]; exact .inl rfl
  · exact .inr ⟨hf, rfl⟩
  · rw [dropByte_frame]; exact .inl rfl
  · exact .inl rfl
  · rw [captureByte_frame]; exact .inl rfl
  · rw [dropByte_frame]; exact .inl rfl
  · rw [endWait_frame]; exact .inl rfl
  · exact .inl rfl
  · exact .inl rfl

/-- A tick writes `rxlen` and `rx_ovf` by a capture, or clears them by T2 (R208 to R210). -/
theorem tick_rxlen_rxOvf (x : Exchange) (s : State) :
    ((tick x s).rxlen = s.rxlen ∧ (tick x s).rxOvf = s.rxOvf) ∨ s.fsm = .awaitingResponse ∨
      (s.fsm = .transmitting ∧ (tick x s).rxlen = 0 ∧ (tick x s).rxOvf = false) := by
  obtain ⟨e, rest, -, -, -, ht⟩ | ⟨-, -, ht⟩ | ⟨e, rest, -, -, -, ht⟩ | ⟨hf, -, ht⟩ | ⟨_, _, -, hf, -⟩ |
    ⟨_, _, -, hf, -⟩ | ⟨hf, -⟩ | ⟨-, ht⟩ | ⟨-, ht⟩ := tick_cases x s
  · rw [ht, dropByte_frame]; exact .inl ⟨rfl, rfl⟩
  · rw [ht]; exact .inl ⟨rfl, rfl⟩
  · rw [ht, dropByte_frame]; exact .inl ⟨rfl, rfl⟩
  · rw [ht]; exact .inr (.inr ⟨hf, rfl, rfl⟩)
  · exact .inr (.inl hf)
  · exact .inr (.inl hf)
  · exact .inr (.inl hf)
  · rw [ht]; exact .inl ⟨rfl, rfl⟩
  · rw [ht]; exact .inl ⟨rfl, rfl⟩

/-- Settles O37: state by state, what the tick there can be. -/
theorem onlyTheTransitionsOfTheTable : Obligations.OnlyTheTransitionsOfTheTable := by
  intro x s _
  refine ⟨fun hf => ?_, fun hf => ?_, fun hf => ?_, ?_, (tick_tx x s).resolve_left, fun h =>
    (tick_rxlen_rxOvf x s).resolve_left fun ⟨hlen, hovf⟩ => h.elim (absurd hlen) (absurd hovf)⟩
  · obtain ⟨e, rest, hl, he, ht⟩ | ⟨-, ht⟩ := tick_of_idle x hf <;> rw [ht]
    · exact .inl ⟨(dropByte_fsm e rest s).trans hf, e, by simp [hl], he⟩
    · exact .inr ⟨rfl, Nat.le_max_right _ _⟩
  · obtain ⟨e, rest, hl, he, ht⟩ | ⟨-, ht⟩ := tick_of_transmitting x hf <;> rw [ht]
    · exact .inl ⟨(dropByte_fsm e rest s).trans hf, e, by simp [hl], he⟩
    · exact .inr ⟨rfl, Nat.le_max_right _ _, rfl, fun _ => rfl, rfl, rfl, rfl, rfl⟩
  · obtain ⟨e, rest, hl, -, ht⟩ | ⟨e, rest, hl, -, -, ht⟩ | ⟨-, ht⟩ := tick_of_awaiting x hf <;> rw [ht]
    · exact .inl ⟨(captureByte_fsm e rest s).trans hf, by simp [hl]⟩
    · exact .inl ⟨(dropByte_fsm e rest s).trans hf, by simp [hl]⟩
    · by_cases h : 1 ≤ s.rxlen ∧ s.tRx + x.t35 ≤ s.tDl
      · rw [endWait_complete h]
        exact .inr (.inl ⟨rfl, h.1, Nat.le_max_right _ _, h.2⟩)
      · rw [endWait_timedOut h]
        exact .inr (.inr ⟨rfl, Nat.le_max_right _ _⟩)
  · rintro (hf | hf)
    · rw [tick_of_complete x hf]
      exact ⟨rfl, rfl⟩
    · rw [tick_of_timedOut x hf]
      exact ⟨rfl, rfl⟩

/-- Settles O38. -/
theorem captureStoresOrOverflows : Obligations.CaptureStoresOrOverflows := by
  intro x s e rest hf hl
  refine ⟨fun haw hdl hsilence => ?_, fun haw => ?_⟩
  · have ht : tick x s = captureByte e rest s := by
      simp [tick, hf, hl, captures_iff.mpr ⟨haw, hdl, hsilence⟩]
    rw [ht]
    refine ⟨?_, ?_, captureByte_line e rest s, (captureByte_fsm e rest s).trans hf, fun hroom => ?_, fun hfull => ?_⟩
    · rw [captureByte_frame]
    · rw [captureByte_frame]
    · rw [captureByte_of_room e rest hroom]
      exact ⟨rfl, readMem_writeMem_same _ _ _, fun i hi => readMem_writeMem_ne _ _ hi.symm, rfl⟩
    · rw [captureByte_of_full e rest (Nat.not_lt.mpr hfull)]
      exact ⟨rfl, rfl, rfl⟩
  · have hc : ¬ captures x s e = true := fun hc => (captures_iff.mp hc).1.not_ge haw
    have ht : tick x s = dropByte e rest s := by
      simp [tick, hf, hl, hc, haw]
    rw [ht, dropByte_frame]
    exact ⟨rfl, hf, rfl, rfl, rfl, rfl⟩

/-- Settles O39: a byte that is still to arrive at either end of the interval, or after it, is not captured. -/
theorem waitEndsBySilenceOrDeadline : Obligations.WaitEndsBySilenceOrDeadline := by
  intro x s hf hhead
  have ht : tick x s = endWait x s := by
    obtain ⟨e, rest, hl, hc, -⟩ | ⟨e, rest, hl, -, he, -⟩ | ⟨-, ht⟩ := tick_of_awaiting x hf
    · obtain ⟨-, hdl, hsilence⟩ := captures_iff.mp hc
      obtain hdl' | ⟨hlen, hsilence'⟩ := (hhead e rest hl).2
      · omega
      · have := hsilence hlen
        omega
    · exact absurd (hhead e rest hl).1 he.not_gt
    · exact ht
  rw [ht]
  rfl

theorem capturedBytes_of_readRun {s : State} {got : Bytes} (h : readRun s.rxbuf 0 s.rxlen = some got) :
    capturedBytes s = got := by
  rw [capturedBytes, h, Option.getD_some]

/-- T5 (R214). -/
theorem finishComplete_eq {s : State} {got : Bytes} (h : readRun s.rxbuf 0 s.rxlen = some got) :
    finishComplete s =
      { s with res := .bytes got, fsm := .idle, busy := false, written := { s.written with res := true } } := by
  rw [← capturedBytes_of_readRun h]
  rfl

/-- T6 (R215). -/
theorem finishTimedOut_eq {s : State} {got : Bytes} (h : readRun s.rxbuf 0 s.rxlen = some got) :
    finishTimedOut s =
      { s with
        res := .transportError (if s.rxlen = 0 then .noResponse else .truncatedResponse got)
        fsm := .idle, busy := false, written := { s.written with res := true } } := by
  rw [← capturedBytes_of_readRun h]
  rfl

/-- Settles O40. -/
theorem terminalStatesLatchAndReturn : Obligations.TerminalStatesLatchAndReturn :=
  fun x _ _ hgot =>
    ⟨fun hf => (tick_of_complete x hf).trans (finishComplete_eq hgot),
      fun hf => (tick_of_timedOut x hf).trans (finishTimedOut_eq hgot)⟩

/-- Settles O41: the first byte of the line is dropped, and the next one is later than the instant time passes to. -/
theorem staleBytesAreDropped : Obligations.StaleBytesAreDropped := by
  intro s e rest hport hreq hl hord hnow
  have hstep : step s = .next (passTime e.time s) := by
    simp [step, hport, runIdle, hreq, hl]
  have hrest : dropUntil (max s.now e.time) rest (dropByte e rest s) = dropByte e rest s := by
    cases rest with
    | nil => rfl
    | cons e' rest' =>
      have hlater : e.time < e'.time := by
        rw [hl] at hord
        exact (List.pairwise_cons.mp hord).1 e' List.mem_cons_self
      exact if_neg (by omega)
  have hdrop : dropUntil (max s.now e.time) s.line s = dropByte e rest s := by
    rw [hl, dropUntil, if_pos (Nat.le_max_right _ _), hrest]
  rw [hstep, passTime, hdrop, dropByte, reach]
  split <;> simp [reach, hnow]

/-! ### The stages of an exchange -/

/-- Bytes dropped one after the other, each of them while a condition holds. -/
inductive Drops (P : State → TimedByte → Prop) : State → State → Prop
  | done (s : State) : Drops P s s
  | drop {s u : State} {e : TimedByte} {rest : List TimedByte} :
      s.line = e :: rest → P s e → Drops P (dropByte e rest s) u → Drops P s u

/-- T0: bytes that arrive before the start of the transmission (R205, R216). -/
def Holds (x : Exchange) : State → State → Prop := Drops fun s e => e.time < startTime x s

/-- Bytes that arrive during the transmission, the instant of its end included (R207, R216). -/
def Sends : State → State → Prop := Drops fun s e => e.time ≤ s.tTxend

/-- What happens in `AwaitingResponse`, byte by byte (R209, R210, R216). -/
inductive Waits (x : Exchange) : State → State → Prop
  | done (s : State) : Waits x s s
  | capture {s u : State} {e : TimedByte} {rest : List TimedByte} :
      s.line = e :: rest → captures x s e = true → Waits x (captureByte e rest s) u → Waits x s u
  | drop {s u : State} {e : TimedByte} {rest : List TimedByte} :
      s.line = e :: rest → e.time ≤ s.tAw → Waits x (dropByte e rest s) u → Waits x s u

/-- The states an exchange issued in `s` passes: `h` at the end of the hold, `w` at the end of the transmission and `c` at
the end of the wait (R204). -/
structure Stages (x : Exchange) (s h w c : State) : Prop where
  holds : Holds x (issueExchange s) h
  sends : Sends (enterTransmitting x h) w
  sent : ∀ e rest, w.line = e :: rest → w.tTxend < e.time
  waits : Waits x (enterAwaiting x w) c
  waited : ∀ e rest, c.line = e :: rest → captures x c e = false ∧ c.tAw < e.time
  returns : exchange x s = tick x (endWait x c)

/-- Ticks of an exchange, as long as the lock is held. -/
inductive Ticks (x : Exchange) : State → State → Prop
  | done (s : State) : Ticks x s s
  | tick {s t : State} : s.busy = true → Ticks x (tick x s) t → Ticks x s t

theorem ticks_runExchange (x : Exchange) (n : Nat) (s : State) : Ticks x s (runExchange x n s) := by
  induction n generalizing s with
  | zero => exact .done s
  | succ n ih =>
    rw [runExchange]
    split
    · next hb => exact .tick hb (ih (tick x s))
    · exact .done s

section
variable {x : Exchange} {s t : State}

@[simp] theorem dropByte_busy (e : TimedByte) (rest : List TimedByte) (s : State) :
    (dropByte e rest s).busy = s.busy := by
  rw [dropByte_frame]

@[simp] theorem captureByte_busy (e : TimedByte) (rest : List TimedByte) (s : State) :
    (captureByte e rest s).busy = s.busy := by
  rw [captureByte_frame]

/-- An exchange that has returned has taken the tick that was next. -/
theorem Ticks.next (h : Ticks x s t) (hb : s.busy = true) (ht : t.busy = false) : Ticks x (Machine.tick x s) t := by
  cases h with
  | done => cases hb.symm.trans ht
  | tick _ h => exact h

theorem Ticks.eq_of_returned (h : Ticks x s t) (hb : s.busy = false) : t = s := by
  cases h with
  | done => rfl
  | tick hb' _ => cases hb.symm.trans hb'

theorem Ticks.hold (h : Ticks x s t) (hb : s.busy = true) (hf : s.fsm = .idle) (ht : t.busy = false) :
    ∃ u, Holds x s u ∧ u.busy = true ∧ Ticks x (enterTransmitting x u) t := by
  induction h with
  | done => cases hb.symm.trans ht
  | @tick s t _ h ih =>
    obtain ⟨e, rest, hl, he, htick⟩ | ⟨-, htick⟩ := tick_of_idle x hf <;> rw [htick] at h ih
    · obtain ⟨u, hu, hrest⟩ := ih (by simpa) (by simpa) ht
      exact ⟨u, .drop hl he hu, hrest⟩
    · exact ⟨s, .done s, hb, h⟩

theorem Ticks.send (h : Ticks x s t) (hb : s.busy = true) (hf : s.fsm = .transmitting) (ht : t.busy = false) :
    ∃ u, Sends s u ∧ (∀ e rest, u.line = e :: rest → u.tTxend < e.time) ∧ u.busy = true ∧
      Ticks x (enterAwaiting x u) t := by
  induction h with
  | done => cases hb.symm.trans ht
  | @tick s t _ h ih =>
    obtain ⟨e, rest, hl, he, htick⟩ | ⟨hhead, htick⟩ := tick_of_transmitting x hf <;> rw [htick] at h ih
    · obtain ⟨u, hu, hrest⟩ := ih (by simpa) (by simpa) ht
      exact ⟨u, .drop hl he hu, hrest⟩
    · exact ⟨s, .done s, hhead, hb, h⟩

theorem Ticks.wait (h : Ticks x s t) (hb : s.busy = true) (hf : s.fsm = .awaitingResponse) (ht : t.busy = false) :
    ∃ u, Waits x s u ∧ (∀ e rest, u.line = e :: rest → captures x u e = false ∧ u.tAw < e.time) ∧ u.busy = true ∧
      Ticks x (endWait x u) t := by
  induction h with
  | done => cases hb.symm.trans ht
  | @tick s t _ h ih =>
    obtain ⟨e, rest, hl, hc, htick⟩ | ⟨e, rest, hl, -, he, htick⟩ | ⟨hhead, htick⟩ := tick_of_awaiting x hf <;>
      rw [htick] at h ih
    · obtain ⟨u, hu, hrest⟩ := ih (by simpa) (by simpa) ht
      exact ⟨u, .capture hl hc hu, hrest⟩
    · obtain ⟨u, hu, hrest⟩ := ih (by simpa) (by simpa) ht
      exact ⟨u, .drop hl he hu, hrest⟩
    · exact ⟨s, .done s, hhead, hb, h⟩

end

/-- What an exchange returns when the wait has ended (R211, R212, R214, R215). -/
def waitResult (x : Exchange) (c : State) : Result :=
  if 1 ≤ c.rxlen ∧ c.tRx + x.t35 ≤ c.tDl then .bytes (capturedBytes c)
  else .transportError (if c.rxlen = 0 then .noResponse else .truncatedResponse (capturedBytes c))

/-- T3 and T5, or T4 and T6: the end of the wait and the return. -/
theorem tick_endWait (x : Exchange) (c : State) :
    tick x (endWait x c) =
      { c with
        res := waitResult x c, fsm := .idle, busy := false, now := (endWait x c).now
        written := { c.written with res := true } } := by
  by_cases h : 1 ≤ c.rxlen ∧ c.tRx + x.t35 ≤ c.tDl
  · rw [endWait_complete h, tick_of_complete x rfl, waitResult, if_pos h]
    rfl
  · rw [endWait_timedOut h, tick_of_timedOut x rfl, waitResult, if_neg h]
    rfl

/-- Every exchange issued in `Idle` passes the stages in their order and returns (R204, R225). -/
theorem exists_stages (x : Exchange) {s : State} (hf : s.fsm = .idle) : ∃ h w c, Stages x s h w c := by
  have hend : (exchange x s).busy = false := (exchange_returns x s hf).1
  have hticks : Ticks x (issueExchange s) (exchange x s) := ticks_runExchange x _ _
  obtain ⟨h, holds, hbusy, hticks⟩ := hticks.hold rfl hf hend
  obtain ⟨w, sends, sent, hbusy, hticks⟩ := hticks.send hbusy rfl hend
  obtain ⟨c, waits, waited, hbusy, hticks⟩ := hticks.wait hbusy rfl hend
  have hlast := hticks.next (by rwa [endWait_frame]) hend
  exact ⟨h, w, c, holds, sends, sent, waits, waited, hlast.eq_of_returned (by rw [tick_endWait])⟩

/-! ### What the stages leave -/

theorem Drops.keeps {P : State → TimedByte → Prop} {Q : State → Prop}
    (hdrop : ∀ {s e rest}, s.line = e :: rest → P s e → Q s → Q (dropByte e rest s)) {s u : State} (h : Drops P s u)
    (hs : Q s) : Q u := by
  induction h with
  | done => exact hs
  | drop hl he _ ih => exact ih (hdrop hl he hs)

theorem Waits.keeps {x : Exchange} {Q : State → Prop}
    (hcapture : ∀ {s e rest}, s.line = e :: rest → captures x s e = true → Q s → Q (captureByte e rest s))
    (hdrop : ∀ {s e rest}, s.line = e :: rest → e.time ≤ s.tAw → Q s → Q (dropByte e rest s)) {s u : State}
    (h : Waits x s u) (hs : Q s) : Q u := by
  induction h with
  | done => exact hs
  | capture hl hc _ ih => exact ih (hcapture hl hc hs)
  | drop hl he _ ih => exact ih (hdrop hl he hs)

/-- Dropped bytes touch the line, the time and the last activity; nothing else. -/
theorem Drops.frame {P : State → TimedByte → Prop} {s u : State} (h : Drops P s u) :
    ∃ line now tLast, u = { s with line := line, now := now, tLast := tLast } := by
  refine h.keeps (Q := fun u => ∃ line now tLast, u = { s with line := line, now := now, tLast := tLast }) ?_
    ⟨_, _, _, rfl⟩
  rintro _ e rest - - ⟨line, now, tLast, rfl⟩
  rw [dropByte_frame]
  exact ⟨_, _, _, rfl⟩

/-- The wait touches the line, the time, the last activity, `tRx` and the capture buffer; nothing else. -/
theorem Waits.frame {x : Exchange} {s u : State} (h : Waits x s u) :
    ∃ line now tLast tRx rxbuf rxlen rxOvf,
      u = { s with
        line := line, now := now, tLast := tLast, tRx := tRx, rxbuf := rxbuf, rxlen := rxlen, rxOvf := rxOvf } := by
  refine h.keeps (Q := fun u => ∃ line now tLast tRx rxbuf rxlen rxOvf,
      u = { s with
        line := line, now := now, tLast := tLast, tRx := tRx, rxbuf := rxbuf, rxlen := rxlen, rxOvf := rxOvf })
    ?_ ?_ ⟨_, _, _, _, _, _, _, rfl⟩
  · rintro _ e rest - - ⟨line, now, tLast, tRx, rxbuf, rxlen, rxOvf, rfl⟩
    rw [captureByte_frame]
    exact ⟨_, _, _, _, _, _, _, rfl⟩
  · rintro _ e rest - - ⟨line, now, tLast, tRx, rxbuf, rxlen, rxOvf, rfl⟩
    rw [dropByte_frame]
    exact ⟨_, _, _, _, _, _, _, rfl⟩

/-- The end of the transmission of an exchange that is held until `h` (R207). -/
def sendEnd (x : Exchange) (h : State) : Nat := startTime x h + x.frame.length * x.tChar

section
variable {x : Exchange} {s h w c : State}

theorem Stages.sending_eq (st : Stages x s h w c) :
    ∃ line now tLast, w =
      { issueExchange s with
        line := line, now := now, tLast := tLast, fsm := .transmitting
        tx := s.tx ++ sendFrom (startTime x h) x.tChar x.frame, tTxend := sendEnd x h
        written := { s.written with timers := true } } := by
  obtain ⟨line, now, tLast, hh⟩ := st.holds.frame
  obtain ⟨line', now', tLast', hw⟩ := st.sends.frame
  refine ⟨line', now', tLast', ?_⟩
  rw [hw, enterTransmitting, sendEnd]
  generalize startTime x h = ts
  rw [hh]
  rfl

/-- What the stages up to the end of the wait have written, and from what (R206 to R208). -/
theorem Stages.waiting_eq (st : Stages x s h w c) :
    ∃ line now tLast tRx rxbuf rxlen rxOvf, c =
      { issueExchange s with
        line := line, now := now, tLast := tLast, tRx := tRx, rxbuf := rxbuf, rxlen := rxlen, rxOvf := rxOvf
        fsm := .awaitingResponse, tx := s.tx ++ sendFrom (startTime x h) x.tChar x.frame
        tTxend := sendEnd x h, tAw := sendEnd x h, tDl := sendEnd x h + x.timeout
        written := { s.written with timers := true, tLast := true, rxbuf := true } } := by
  obtain ⟨line, now, tLast, hw⟩ := st.sending_eq
  obtain ⟨line', now', tLast', tRx, rxbuf, rxlen, rxOvf, hc⟩ := st.waits.frame
  refine ⟨line', now', tLast', tRx, rxbuf, rxlen, rxOvf, ?_⟩
  rw [hc, hw]
  rfl

end

/-! ### The answer of `SES.XCHG` -/

/-- What `SES.XCHG` fixes at its issue (R203). -/
def exchangeOf (bs : Bytes) (timeout : TimeoutArg) (s : State) : Exchange :=
  { frame := bs, timeout := timeoutTicks timeout s, t0 := s.now, tChar := (charTimes s).1, t35 := (charTimes s).2 }

theorem exec_sesXchg {frame : Operand} {bs : Bytes} {s : State} (timeout : TimeoutArg) (ho : s.handle = .opened)
    (hb : s.busy = false) (hf : s.fsm = .idle) (hbs : operandBytes frame s = some bs) (hmin : 1 ≤ bs.length)
    (hmax : bs.length ≤ 256) : exec (.sesXchg frame timeout) s = .next (exchange (exchangeOf bs timeout s) s) := by
  have hlen := operandLen_of_bytes hbs
  have hfree := sessionBusy_eq_false.mpr ⟨hb, hf⟩
  obtain ⟨hc, -⟩ | ⟨-, hb', -⟩ | ⟨-, -, hl, -⟩ | ⟨-, -, -, -, hn, -⟩ | ⟨bs', -, -, hbs', -, -, hx⟩ :=
    execSesXchg_cases frame timeout s
  · cases hc.symm.trans ho
  · cases hfree.symm.trans hb'
  · omega
  · cases hn.symm.trans hbs
  · cases hbs'.symm.trans hbs
    exact hx

theorem exec_sesXchg_eq_next {frame : Operand} {timeout : TimeoutArg} {s t : State}
    (h : exec (.sesXchg frame timeout) s = .next t) :
    ∃ bs, s.handle = .opened ∧ s.busy = false ∧ s.fsm = .idle ∧ operandBytes frame s = some bs ∧ 1 ≤ bs.length ∧
      bs.length ≤ 256 ∧ t = exchange (exchangeOf bs timeout s) s := by
  obtain ⟨-, hx⟩ | ⟨-, -, hx⟩ | ⟨-, -, -, hx⟩ | ⟨-, -, -, -, -, hx⟩ | ⟨bs, ho, hfree, hbs, hmin, hmax, hx⟩ :=
    execSesXchg_cases frame timeout s <;> cases hx.symm.trans h
  obtain ⟨hb, hf⟩ := sessionBusy_eq_false.mp hfree
  exact ⟨bs, ho, hb, hf, hbs, hmin, hmax, rfl⟩

/-- The stages of an exchange that has answered, with its operands by name. -/
theorem stages_of_exec {frame : Operand} {timeout : TimeoutArg} {bs : Bytes} {ticks tChar t35 : Nat} {s t : State}
    (hbs : operandBytes frame s = some bs) (hct : charTimes s = (tChar, t35)) (hticks : timeoutTicks timeout s = ticks)
    (h : exec (.sesXchg frame timeout) s = .next t) :
    ∃ x h w c, Stages x s h w c ∧ x.frame = bs ∧ x.timeout = ticks ∧ x.t0 = s.now ∧ x.tChar = tChar ∧ x.t35 = t35 ∧
      t = tick x (endWait x c) := by
  obtain ⟨bs', -, -, hf, hbs', -, -, rfl⟩ := exec_sesXchg_eq_next h
  cases hbs'.symm.trans hbs
  obtain ⟨h, w, c, st⟩ := exists_stages (exchangeOf bs timeout s) hf
  exact ⟨_, h, w, c, st, rfl, hticks, rfl, congrArg Prod.fst hct, congrArg Prod.snd hct, st.returns⟩

/-- Settles O30: the stages write nothing else. -/
theorem sesXchgReturnsToIdle : Obligations.SesXchgReturnsToIdle := by
  intro frame timeout bs s ho hb hf hbs hmin hmax
  obtain ⟨h, w, c, st⟩ := exists_stages (exchangeOf bs timeout s) hf
  obtain ⟨_, _, _, _, _, _, _, rfl⟩ := st.waiting_eq
  refine ⟨_, exec_sesXchg timeout ho hb hf hbs hmin hmax, ?_⟩
  rw [st.returns, tick_endWait]
  exact ⟨rfl, rfl, rfl, rfl, rfl, rfl, rfl, rfl, rfl, rfl, rfl, rfl, rfl, rfl⟩

/-! ### The three-way outcome -/

theorem captureByte_rxlen_le (e : TimedByte) (rest : List TimedByte) {s : State} (h : s.rxlen ≤ Config.rxCap) :
    (captureByte e rest s).rxlen ≤ Config.rxCap := by
  by_cases hroom : s.rxlen < Config.rxCap
  · rw [captureByte_of_room e rest hroom]
    exact hroom
  · rw [captureByte_of_full e rest hroom]
    exact h

/-- Not more is captured than the buffer holds (R210). -/
theorem Waits.rxlen_le {x : Exchange} {s u : State} (h : Waits x s u) (hs : s.rxlen ≤ Config.rxCap) :
    u.rxlen ≤ Config.rxCap :=
  h.keeps (Q := fun u => u.rxlen ≤ Config.rxCap) (fun _ _ => captureByte_rxlen_le _ _)
    (fun _ _ h => by rwa [dropByte_frame]) hs

theorem waitResult_cases {x : Exchange} {c : State} {got : Bytes} (h : readRun c.rxbuf 0 c.rxlen = some got) :
    (waitResult x c = .transportError .noResponse ∧ c.rxlen = 0) ∨
      (1 ≤ c.rxlen ∧ (waitResult x c = .bytes got ∨ waitResult x c = .transportError (.truncatedResponse got))) := by
  rw [waitResult, capturedBytes_of_readRun h]
  split
  · next hc => exact .inr ⟨hc.1, .inl rfl⟩
  · split
    · next h0 => exact .inl ⟨rfl, h0⟩
    · exact .inr ⟨by omega, .inr rfl⟩

/-- Settles O34. -/
theorem exchangeHasThreeWayOutcome : Obligations.ExchangeHasThreeWayOutcome := by
  intro frame timeout s t hx
  obtain ⟨bs, -, -, hf, -, -, -, rfl⟩ := exec_sesXchg_eq_next hx
  obtain ⟨got, hgot, -⟩ := capturedInWindow_exchange (exchangeOf bs timeout s) hf
  obtain ⟨h, w, c, st⟩ := exists_stages (exchangeOf bs timeout s) hf
  rw [st.returns, tick_endWait] at hgot ⊢
  replace hgot : readRun c.rxbuf 0 c.rxlen = some got := hgot
  have hcap : c.rxlen ≤ 257 := st.waits.rxlen_le (Nat.zero_le _)
  have hlen : got.length = c.rxlen := readRun_length hgot
  obtain h0 | ⟨hpos, hres⟩ := waitResult_cases (x := exchangeOf bs timeout s) hgot
  · exact .inl h0
  · exact .inr ⟨got, hgot, by omega, by omega, hres⟩

/-! ### The time of an exchange -/

/-- The ticks of the two forms of the timeout (R203). -/
theorem timeoutTicks_eq {timeout : TimeoutArg} {ticks : Nat} {s : State}
    (h : timeout = .ticks ticks ∨ timeout = .cfgTimeout ∧ s.cfg.timeout = ticks) : timeoutTicks timeout s = ticks := by
  obtain rfl | ⟨rfl, hcfg⟩ := h
  · rfl
  · exact hcfg

/-- With stale bytes discarded the start of the transmission does not move during the hold (R205). -/
theorem Holds.startTime_eq {x : Exchange} {s h : State} (hh : Holds x s h) (hd : s.params.staleRx = .discard) :
    startTime x h = startTime x s := by
  suffices h.params.staleRx = .discard ∧ h.tLast = s.tLast by rw [startTime, startTime, this.2]
  refine hh.keeps (Q := fun u => u.params.staleRx = .discard ∧ u.tLast = s.tLast) ?_ ⟨hd, rfl⟩
  rintro u e rest - - ⟨hu, hlast⟩
  refine ⟨?_, (dropByte_tLast_eq e rest (.inl hu)).trans hlast⟩
  rw [dropByte_frame]
  exact hu

/-- Bytes that arrive no earlier than the last activity never bring the start of the transmission forward (R205, R216). -/
theorem Holds.startTime_le {x : Exchange} {s h : State} (hh : Holds x s h) (hline : ∀ e ∈ s.line, s.tLast ≤ e.time) :
    startTime x s ≤ startTime x h := by
  suffices s.tLast ≤ h.tLast ∧ ∀ e ∈ h.line, s.tLast ≤ e.time from max_le_max_left _ (Nat.add_le_add_right this.1 _)
  refine hh.keeps (Q := fun u => s.tLast ≤ u.tLast ∧ ∀ e ∈ u.line, s.tLast ≤ e.time) ?_ ⟨Nat.le_refl _, hline⟩
  rintro u e rest hl - ⟨hlast, hahead⟩
  rw [hl, List.forall_mem_cons] at hahead
  refine ⟨?_, by rw [dropByte_line]; exact hahead.2⟩
  obtain ⟨-, -, hd⟩ | ⟨-, hd⟩ := dropByte_cases e rest u <;> rw [hd]
  · exact hahead.1
  · exact hlast

/-- During the hold it is not later than the start of the transmission. With stale bytes tracked a dropped byte
moves that start, so there the order of the line is needed: no byte arrives before one already dropped. -/
def HoldsInTime (x : Exchange) (u : State) : Prop :=
  u.now ≤ startTime x u ∧
    (u.params.staleRx = .track → LineOrdered u.line ∧ ∀ e ∈ u.line, u.now ≤ max x.t0 e.time)

theorem holdsInTime_dropByte {x : Exchange} {u : State} {e : TimedByte} {rest : List TimedByte}
    (hl : u.line = e :: rest) (he : e.time < startTime x u) (h : HoldsInTime x u) :
    HoldsInTime x (dropByte e rest u) := by
  obtain ⟨hnow, htrack⟩ := h
  have hnext (ht : u.params.staleRx = .track) : max u.now e.time ≤ max x.t0 e.time ∧ LineOrdered rest ∧
      ∀ e' ∈ rest, max u.now e.time ≤ max x.t0 e'.time := by
    obtain ⟨hord, hahead⟩ := htrack ht
    rw [hl] at hord hahead
    obtain ⟨hfirst, hord⟩ := List.pairwise_cons.mp hord
    have hle : max u.now e.time ≤ max x.t0 e.time := max_le (hahead e List.mem_cons_self) (Nat.le_max_right _ _)
    exact ⟨hle, hord, fun e' he' => hle.trans (max_le_max_left _ (hfirst e' he').le)⟩
  obtain ⟨-, ht, hd⟩ | ⟨-, hd⟩ := dropByte_cases e rest u <;> rw [hd]
  · obtain ⟨hle, hrest⟩ := hnext ht
    exact ⟨hle.trans (max_le_max_left _ (Nat.le_add_right _ _)), fun _ => hrest⟩
  · exact ⟨max_le hnow he.le, fun ht => (hnext ht).2⟩

theorem Holds.now_le {x : Exchange} {s h : State} (hh : Holds x s h) (ht0 : s.now = x.t0)
    (hquiet : s.params.staleRx = .discard ∨ LineOrdered s.line) : h.now ≤ startTime x h := by
  have hissue : HoldsInTime x s := by
    refine ⟨ht0.trans_le (Nat.le_max_left _ _), fun ht => ⟨hquiet.resolve_left (by simp [ht]), fun e _ => ?_⟩⟩
    exact ht0.trans_le (Nat.le_max_left _ _)
  exact (hh.keeps holdsInTime_dropByte hissue).1

theorem Sends.now_le {s u : State} (h : Sends s u) (hs : s.now ≤ s.tTxend) : u.now ≤ u.tTxend := by
  refine h.keeps (Q := fun u => u.now ≤ u.tTxend) ?_ hs
  intro u e rest _ he hu
  rw [dropByte_frame]
  exact max_le hu he

/-- The wait stays between the end of the transmission and the deadline (R208, R209). -/
theorem Waits.now_bounds {x : Exchange} {s u : State} (h : Waits x s u) (hs : s.tAw ≤ s.now ∧ s.now ≤ s.tDl) :
    u.tAw ≤ u.now ∧ u.now ≤ u.tDl := by
  refine h.keeps (Q := fun u => u.tAw ≤ u.now ∧ u.now ≤ u.tDl) ?_ ?_ hs
  · rintro u e rest - hc ⟨haw, hdl⟩
    rw [captureByte_frame]
    exact ⟨le_max_of_le_left haw, max_le hdl (captures_iff.mp hc).2.1.le⟩
  · rintro u e rest - he ⟨haw, hdl⟩
    rw [dropByte_frame]
    exact ⟨le_max_of_le_left haw, max_le hdl (he.trans (haw.trans hdl))⟩

theorem endWait_now_le {x : Exchange} {c : State} (h : c.now ≤ c.tDl) : (endWait x c).now ≤ c.tDl := by
  by_cases hc : 1 ≤ c.rxlen ∧ c.tRx + x.t35 ≤ c.tDl
  · rw [endWait_complete hc]
    exact max_le h hc.2
  · rw [endWait_timedOut hc]
    exact max_le h (Nat.le_refl _)

section
variable {x : Exchange} {s h w c : State}

theorem Stages.sent_now_le (st : Stages x s h w c) (ht0 : x.t0 = s.now)
    (hquiet : s.params.staleRx = .discard ∨ LineOrdered s.line) : w.now ≤ w.tTxend := by
  have hhold : h.now ≤ startTime x h := st.holds.now_le ht0.symm hquiet
  refine st.sends.now_le ?_
  exact (max_le hhold (Nat.le_refl _)).trans (Nat.le_add_right _ _)

theorem Stages.now_bounds (st : Stages x s h w c) (ht0 : x.t0 = s.now)
    (hquiet : s.params.staleRx = .discard ∨ LineOrdered s.line) : c.tAw ≤ c.now ∧ c.now ≤ c.tDl := by
  have hsent : w.now ≤ w.tTxend := st.sent_now_le ht0 hquiet
  exact st.waits.now_bounds ⟨Nat.le_max_right _ _, (max_le hsent (Nat.le_refl _)).trans (Nat.le_add_right _ _)⟩

theorem Stages.tTxend_eq (st : Stages x s h w c) : c.tTxend = sendEnd x h := by
  obtain ⟨_, _, _, _, _, _, _, rfl⟩ := st.waiting_eq
  rfl

theorem Stages.tAw_eq (st : Stages x s h w c) : c.tAw = sendEnd x h := by
  obtain ⟨_, _, _, _, _, _, _, rfl⟩ := st.waiting_eq
  rfl

theorem Stages.tDl_eq (st : Stages x s h w c) : c.tDl = c.tAw + x.timeout := by
  obtain ⟨_, _, _, _, _, _, _, rfl⟩ := st.waiting_eq
  rfl

theorem Stages.tx_eq (st : Stages x s h w c) : c.tx = s.tx ++ sendFrom (startTime x h) x.tChar x.frame := by
  obtain ⟨_, _, _, _, _, _, _, rfl⟩ := st.waiting_eq
  rfl

/-- With stale bytes discarded the transmission begins at the later of the issue and the end of the silence (R205). -/
theorem Stages.startTime_of_discard (st : Stages x s h w c) (ht0 : x.t0 = s.now) (hd : s.params.staleRx = .discard) :
    startTime x h = max s.now (s.tLast + x.t35) :=
  (st.holds.startTime_eq hd).trans (by rw [startTime, ht0]; rfl)

end

/-- Settles O33: the start is at most `t35` after the issue, and the wait lies between the end of the transmission and the
deadline. -/
theorem exchangeDurationIsBounded : Obligations.ExchangeDurationIsBounded := by
  intro frame timeout ticks tChar t35 bs s t hd hpast hbs hct hticks hx
  obtain ⟨x, h, w, c, st, rfl, rfl, ht0, rfl, rfl, rfl⟩ := stages_of_exec hbs hct (timeoutTicks_eq hticks) hx
  obtain ⟨haw, hdl⟩ := st.now_bounds ht0 (.inl hd)
  have hstart := st.startTime_of_discard ht0 hd
  have hend : c.tAw = startTime x h + x.frame.length * x.tChar := st.tAw_eq
  have hdeadline : c.tDl = c.tAw + x.timeout := st.tDl_eq
  have hlow : c.now ≤ (endWait x c).now := now_le_endWait x c
  have hhigh : (endWait x c).now ≤ c.tDl := endWait_now_le hdl
  rw [tick_endWait]
  dsimp only
  omega

/-! ### The frame on the transmit stream -/

theorem sendFrom_eq_mapIdx (ts tChar : Nat) (bs : Bytes) :
    sendFrom ts tChar bs = bs.mapIdx fun i b => { time := ts + i * tChar, byte := b } := by
  induction bs generalizing ts with
  | nil => rfl
  | cons b bs ih =>
    rw [sendFrom, ih, List.mapIdx_cons]
    simp [Nat.add_mul, Nat.add_assoc, Nat.add_comm tChar]

/-- The state with another attempt count. -/
def withRetry (n : Nat) (s : State) : State := { s with retry := n }

section
variable (n : Nat) (x : Exchange) (s : State)

theorem dropByte_withRetry (e : TimedByte) (rest : List TimedByte) :
    dropByte e rest (withRetry n s) = withRetry n (dropByte e rest s) := by
  rw [dropByte, dropByte, apply_ite (withRetry n)]
  rfl

theorem captureByte_withRetry (e : TimedByte) (rest : List TimedByte) :
    captureByte e rest (withRetry n s) = withRetry n (captureByte e rest s) := by
  by_cases h : s.rxlen < Config.rxCap
  · rw [captureByte_of_room e rest h, captureByte_of_room e rest (s := withRetry n s) h]
    rfl
  · rw [captureByte_of_full e rest h, captureByte_of_full e rest (s := withRetry n s) h]
    rfl

theorem endWait_withRetry : endWait x (withRetry n s) = withRetry n (endWait x s) := by
  rw [endWait, endWait, apply_ite (withRetry n)]
  rfl

/-- No transition reads the attempt count (R217). -/
theorem tick_withRetry : tick x (withRetry n s) = withRetry n (tick x s) := by
  have hfsm : (withRetry n s).fsm = s.fsm := rfl
  have hline : (withRetry n s).line = s.line := rfl
  cases hf : s.fsm with
  | idle =>
    cases hl : s.line with
    | nil => simp only [tick, hfsm, hline, hf, hl]; rfl
    | cons e rest =>
      simp only [tick, hfsm, hline, hf, hl, dropByte_withRetry]
      rw [apply_ite (withRetry n)]
      rfl
  | transmitting =>
    cases hl : s.line with
    | nil => simp only [tick, hfsm, hline, hf, hl]; rfl
    | cons e rest =>
      simp only [tick, hfsm, hline, hf, hl, dropByte_withRetry]
      rw [apply_ite (withRetry n)]
      rfl
  | awaitingResponse =>
    cases hl : s.line with
    | nil => simp only [tick, hfsm, hline, hf, hl, endWait_withRetry]
    | cons e rest =>
      simp only [tick, hfsm, hline, hf, hl, dropByte_withRetry, captureByte_withRetry, endWait_withRetry]
      rw [apply_ite (withRetry n), apply_ite (withRetry n)]
      rfl
  | complete => simp only [tick, hfsm, hf]; rfl
  | timedOut => simp only [tick, hfsm, hf]; rfl

theorem runExchange_withRetry (k : Nat) : runExchange x k (withRetry n s) = withRetry n (runExchange x k s) := by
  induction k generalizing s with
  | zero => rfl
  | succ k ih =>
    rw [runExchange, runExchange, tick_withRetry, ih, apply_ite (withRetry n)]
    rfl

theorem exchange_withRetry : exchange x (withRetry n s) = withRetry n (exchange x s) :=
  runExchange_withRetry n x (issueExchange s) _

end

/-- Settles O32. -/
theorem exchangeSendsItsFrameOnce : Obligations.ExchangeSendsItsFrameOnce := by
  intro frame timeout tChar t35 bs s t hahead hpast hord hbs hct hx
  refine ⟨?_, fun r => ?_⟩
  · obtain ⟨x, h, w, c, st, rfl, -, ht0, rfl, rfl, rfl⟩ := stages_of_exec hbs hct rfl hx
    have hlow : max s.now (s.tLast + x.t35) ≤ startTime x h := by
      rw [← ht0]
      exact st.holds.startTime_le fun e he => hpast.trans (hahead e he).le
    rw [tick_endWait]
    refine ⟨startTime x h, hlow, st.startTime_of_discard ht0, ?_, st.tTxend_eq⟩
    rw [← sendFrom_eq_mapIdx]
    exact st.tx_eq
  · obtain ⟨bs', ho, hb, hf, hbs', hmin, hmax, rfl⟩ := exec_sesXchg_eq_next hx
    have hbs'' : operandBytes frame (withRetry r s) = some bs' := by
      cases frame <;> exact hbs'
    have hsame : exchangeOf bs' timeout (withRetry r s) = exchangeOf bs' timeout s := by
      cases timeout <;> rfl
    have hexec := exec_sesXchg (s := withRetry r s) timeout ho hb hf hbs'' hmin hmax
    rw [hsame, exchange_withRetry] at hexec
    exact hexec

/-! ### The outcome function -/

/-- The bytes that are no longer on the line have all arrived by now. -/
def Passed (line : List TimedByte) (u : State) : Prop :=
  ∃ dropped, line = dropped ++ u.line ∧ ∀ d ∈ dropped, d.time ≤ u.now

theorem passed_dropByte {line : List TimedByte} {u : State} {e : TimedByte} {rest : List TimedByte}
    (hl : u.line = e :: rest) (h : Passed line u) : Passed line (dropByte e rest u) := by
  obtain ⟨dropped, hline, hpast⟩ := h
  rw [dropByte_frame]
  refine ⟨dropped ++ [e], by simp [hline, hl], ?_⟩
  rw [List.forall_mem_append, List.forall_mem_singleton]
  exact ⟨fun d hd => le_max_of_le_left (hpast d hd), Nat.le_max_right _ _⟩

/-- Bytes up to the end of the transmission are nothing to the outcome (R221). -/
theorem collect_append_of_le {tAw tDl t35 : Nat} {dropped : List TimedByte} (h : ∀ d ∈ dropped, d.time ≤ tAw)
    (line : List TimedByte) (got : Bytes) (last : Option Nat) :
    collect tAw tDl t35 (dropped ++ line) got last = collect tAw tDl t35 line got last := by
  induction dropped with
  | nil => rfl
  | cons d dropped ih =>
    rw [List.forall_mem_cons] at h
    rw [List.cons_append, collect, if_pos h.1, ih h.2]

/-- When the last byte of the exchange was captured, if one was. -/
def lastCapture (u : State) : Option Nat := if u.rxlen = 0 then none else some u.tRx

/-- After the end of the transmission a byte is captured exactly when neither test that stops the loop of R221 holds of it. -/
theorem captures_iff_not_stopped {x : Exchange} {u : State} {e : TimedByte} (he : u.tAw < e.time) :
    captures x u e = true ↔
      ¬ u.tDl ≤ e.time ∧ ¬ (lastCapture u).any (fun tRx => decide (tRx + x.t35 ≤ e.time)) = true := by
  rw [captures_iff, lastCapture]
  by_cases h0 : u.rxlen = 0
  · simp [he, h0]
  · simp [he, h0, Nat.one_le_iff_ne_zero]

theorem collect_of_captures {x : Exchange} {u : State} {e : TimedByte} (rest : List TimedByte) (got : Bytes)
    (h : captures x u e = true) :
    collect u.tAw u.tDl x.t35 (e :: rest) got (lastCapture u) =
      collect u.tAw u.tDl x.t35 rest (if got.length < Config.rxCap then got ++ [e.byte] else got) (some e.time) := by
  have haw : u.tAw < e.time := (captures_iff.mp h).1
  obtain ⟨hdl, hsilence⟩ := (captures_iff_not_stopped haw).mp h
  rw [collect, if_neg haw.not_ge, if_neg hdl, if_neg hsilence]

theorem collect_of_not_captures {x : Exchange} {u : State} (got : Bytes)
    (h : ∀ e rest, u.line = e :: rest → captures x u e = false ∧ u.tAw < e.time) :
    collect u.tAw u.tDl x.t35 u.line got (lastCapture u) = (got, lastCapture u) := by
  cases hl : u.line with
  | nil => rfl
  | cons e rest =>
    obtain ⟨hc, haw⟩ := h e rest hl
    rw [collect, if_neg haw.not_ge]
    by_cases hdl : u.tDl ≤ e.time
    · rw [if_pos hdl]
    · have hsilence : (lastCapture u).any (fun tRx => decide (tRx + x.t35 ≤ e.time)) = true := by
        by_contra hs
        cases hc.symm.trans ((captures_iff_not_stopped haw).mpr ⟨hdl, hs⟩)
      rw [if_neg hdl, if_pos hsilence]

/-- The wait on a line in time order, followed against the loop of R221: what it has captured and what is left of the line
give the loop's outcome on the whole line. -/
structure WaitsInOrder (x : Exchange) (line : List TimedByte) (u : State) : Prop where
  ordered : LineOrdered u.line
  ahead : LineAhead u
  opened : u.tAw ≤ u.now
  active : u.tLast = u.now
  now_eq : u.now = if u.rxlen = 0 then u.tAw else u.tRx
  collected : ∃ got, readRun u.rxbuf 0 u.rxlen = some got ∧
    collect u.tAw u.tDl x.t35 line [] none = collect u.tAw u.tDl x.t35 u.line got (lastCapture u)

theorem waitsInOrder_captureByte {x : Exchange} {line : List TimedByte} {u : State} {e : TimedByte}
    {rest : List TimedByte} (hl : u.line = e :: rest) (hc : captures x u e = true) (h : WaitsInOrder x line u) :
    WaitsInOrder x line (captureByte e rest u) := by
  obtain ⟨hord, hahead, hopened, -, -, got, hgot, hcollect⟩ := h
  rw [LineAhead, hl, List.forall_mem_cons] at hahead
  rw [hl] at hord hcollect
  obtain ⟨hfirst, hord⟩ := List.pairwise_cons.mp hord
  rw [collect_of_captures rest got hc, readRun_length hgot] at hcollect
  have hnow : max u.now e.time = e.time := max_eq_right hahead.1.le
  have hpast : u.tAw ≤ e.time := hopened.trans hahead.1.le
  by_cases hroom : u.rxlen < Config.rxCap
  · have hheld : readRun (writeMem u.rxbuf u.rxlen e.byte) 0 (u.rxlen + 1) = some (got ++ [e.byte]) := by
      simpa using readRun_writeMem_end e.byte hgot
    rw [if_pos hroom] at hcollect
    rw [captureByte_of_room e rest hroom, hnow]
    exact ⟨hord, hfirst, hpast, rfl, rfl, got ++ [e.byte], hheld, hcollect⟩
  · have hpos : ¬ u.rxlen = 0 := fun h0 => hroom (h0 ▸ by decide)
    rw [if_neg hroom] at hcollect
    rw [captureByte_of_full e rest hroom, hnow]
    exact ⟨hord, hfirst, hpast, rfl, (if_neg hpos).symm, got, hgot, by rwa [lastCapture, if_neg hpos]⟩

section
variable {x : Exchange} {s h w c : State}

/-- What has left the line by the end of the transmission had arrived by then. -/
theorem Stages.passed (st : Stages x s h w c) : Passed s.line w := by
  have hissue : Passed s.line (issueExchange s) := ⟨[], rfl, nofun⟩
  obtain ⟨dropped, hline, hpast⟩ : Passed s.line h := st.holds.keeps (fun hl _ => passed_dropByte hl) hissue
  have htransmit : Passed s.line (enterTransmitting x h) := ⟨dropped, hline, fun d hd => le_max_of_le_left (hpast d hd)⟩
  exact st.sends.keeps (fun hl _ => passed_dropByte hl) htransmit

theorem Stages.waitsInOrder (st : Stages x s h w c) (ht0 : x.t0 = s.now) (hord : LineOrdered s.line) :
    WaitsInOrder x s.line c := by
  have hsent : w.now ≤ w.tTxend := st.sent_now_le ht0 (.inr hord)
  obtain ⟨dropped, hline, hpast⟩ := st.passed
  have hordw : LineOrdered w.line := (List.pairwise_append.mp (hline ▸ hord)).2.1
  have hnow : max w.now w.tTxend = w.tTxend := max_eq_right hsent
  have hahead : ∀ e ∈ w.line, w.tTxend < e.time := by
    cases hl : w.line with
    | nil => nofun
    | cons e rest =>
      rw [hl] at hordw
      have he : w.tTxend < e.time := st.sent e rest hl
      rw [List.forall_mem_cons]
      exact ⟨he, fun e' he' => he.trans ((List.pairwise_cons.mp hordw).1 e' he')⟩
  have hbegin : WaitsInOrder x s.line (enterAwaiting x w) := by
    refine ⟨hordw, ?_, Nat.le_max_right _ _, hnow.symm, hnow, [], rfl, ?_⟩
    · exact fun e he => hnow.trans_lt (hahead e he)
    · rw [hline]
      exact collect_append_of_le (fun d hd => (hpast d hd).trans hsent) _ _ _
  refine st.waits.keeps (Q := WaitsInOrder x s.line) waitsInOrder_captureByte ?_ hbegin
  intro u e rest hl he hu
  have hnow : u.now < e.time := hu.ahead e (by simp [hl])
  exact absurd (hu.opened.trans_lt hnow) he.not_gt

end

/-- The result and the instant of the end of a wait are the outcome function's on the bytes captured (R211 to R215, R221). -/
theorem outcome_of_collect {x : Exchange} {c : State} {line : List TimedByte} {got : Bytes}
    (hgot : readRun c.rxbuf 0 c.rxlen = some got) (hdl : c.tDl = c.tAw + x.timeout) (hbound : c.now ≤ c.tDl)
    (hnow : c.now = if c.rxlen = 0 then c.tAw else c.tRx)
    (hcollect : collect c.tAw c.tDl x.t35 line [] none = (got, lastCapture c)) :
    waitResult x c = outcomeResult (outcome c.tAw x.timeout x.t35 line).1 ∧
      (endWait x c).now = (outcome c.tAw x.timeout x.t35 line).2 := by
  rw [outcome, ← hdl, hcollect, waitResult, capturedBytes_of_readRun hgot, lastCapture]
  by_cases h0 : c.rxlen = 0
  · have hc : ¬ (1 ≤ c.rxlen ∧ c.tRx + x.t35 ≤ c.tDl) := by omega
    rw [endWait_timedOut hc, if_neg hc, if_pos h0, if_pos h0]
    exact ⟨rfl, max_eq_right hbound⟩
  · rw [if_neg h0] at hnow
    by_cases hs : c.tRx + x.t35 ≤ c.tDl
    · have hc : 1 ≤ c.rxlen ∧ c.tRx + x.t35 ≤ c.tDl := ⟨by omega, hs⟩
      rw [endWait_complete hc, if_pos hc, if_neg h0]
      simp only [if_pos hs]
      exact ⟨rfl, max_eq_right (by omega)⟩
    · have hc : ¬ (1 ≤ c.rxlen ∧ c.tRx + x.t35 ≤ c.tDl) := fun hc => hs hc.2
      rw [endWait_timedOut hc, if_neg hc, if_neg h0, if_neg h0]
      simp only [if_neg hs]
      exact ⟨rfl, max_eq_right hbound⟩

/-- Settles O31: at the end of the wait the loop of R221 has the captured bytes and has stopped. -/
theorem exchangeRefinesOutcomeFunction : Obligations.ExchangeRefinesOutcomeFunction := by
  intro frame timeout ticks tChar t35 bs s t hord hbs hct hticks hx
  obtain ⟨x, h, w, c, st, rfl, rfl, ht0, rfl, rfl, rfl⟩ := stages_of_exec hbs hct (timeoutTicks_eq hticks) hx
  obtain ⟨-, hbound⟩ := st.now_bounds ht0 (.inr hord)
  obtain ⟨-, -, -, hlast, hnow, got, hgot, hcollect⟩ := st.waitsInOrder ht0 hord
  rw [collect_of_not_captures got st.waited] at hcollect
  have htAw : c.tTxend = c.tAw := st.tTxend_eq.trans st.tAw_eq.symm
  rw [tick_endWait]
  refine ⟨fun hd => ?_, htAw, st.tDl_eq, ?_, outcome_of_collect hgot st.tDl_eq hbound hnow hcollect⟩
  · rw [← st.startTime_of_discard ht0 hd]
    exact st.tAw_eq
  · rw [htAw]
    exact hlast.trans hnow

/-- With a window of no length nothing is collected (R213). -/
theorem collect_empty_window (tAw t35 : Nat) (line : List TimedByte) :
    collect tAw tAw t35 line [] none = ([], none) := by
  induction line with
  | nil => rfl
  | cons e rest ih =>
    rw [collect]
    split
    · exact ih
    · exact if_pos (by omega)

theorem outcome_of_silence {line : List TimedByte} {ticks : Nat} (tAw t35 : Nat) (h : line = [] ∨ ticks = 0) :
    outcome tAw ticks t35 line = (.noResponse, tAw + ticks) := by
  have hcollect : collect tAw (tAw + ticks) t35 line [] none = ([], none) := by
    obtain rfl | rfl := h
    · rfl
    · exact collect_empty_window tAw t35 line
  rw [outcome, hcollect]

/-- Settles O36: the outcome function's value there; and no other outcome than an empty capture has that result. -/
theorem silentLineGivesNoResponse : Obligations.SilentLineGivesNoResponse := by
  intro frame timeout ticks s t hticks hx hord hsilent
  obtain ⟨bs, -, -, -, hbs, -⟩ := exec_sesXchg_eq_next hx
  obtain ⟨-, -, -, -, hres, hnow⟩ := exchangeRefinesOutcomeFunction _ _ _ _ _ _ _ _ hord hbs rfl hticks hx
  rw [outcome_of_silence _ _ hsilent] at hres hnow
  obtain ⟨-, h0⟩ | ⟨got, -, -, -, hother | hother⟩ := exchangeHasThreeWayOutcome _ _ _ _ hx
  · exact ⟨hres, h0, hnow⟩
  · cases hres.symm.trans hother
  · cases hres.symm.trans hother

end Sys2Proof.Proofs
end

section
/-! SUPPORT. The host family (44_host_master.md): the integers that registers stand for, rounding and the two scalings (rules
R263 to R265), the lookup of a name (rule R262), and what an attempt and the attempt loop leave (rules R253 to R256, R266). -/

namespace Sys2Proof.Proofs

open Sys2Proof.Machine Sys2Proof.Laws

/-! ### The integers of a register width -/

section
variable {n : Nat} (signed : Bool)

/-- The integer a bit vector stands for, by the open signedness (R265). -/
def wordInt (v : BitVec n) : Int := if signed then v.toInt else (v.toNat : Int)

/-- The integer is one of those that `n` bits stand for, by the open signedness (R263, R265). -/
def IntFits (n : Nat) (r : Int) : Prop :=
  if signed then -(2 ^ (n - 1) : Int) ≤ r ∧ r < 2 ^ (n - 1) else 0 ≤ r ∧ r < 2 ^ n

theorem intFits_wordInt (v : BitVec n) : IntFits signed n (wordInt signed v) := by
  cases signed with
  | true => exact ⟨BitVec.le_toInt v, BitVec.toInt_lt⟩
  | false => exact ⟨Int.natCast_nonneg _, Int.ofNat_lt.mpr v.isLt⟩

theorem ofInt_wordInt (v : BitVec n) : BitVec.ofInt n (wordInt signed v) = v := by
  cases signed with
  | true => exact BitVec.ofInt_toInt
  | false => exact (BitVec.ofInt_natCast n v.toNat).trans (((BitVec.ofNat_toNat n v).trans (BitVec.setWidth_eq v)))

theorem wordInt_ofInt {r : Int} (hn : 0 < n) (h : IntFits signed n r) : wordInt signed (BitVec.ofInt n r) = r := by
  cases signed with
  | true =>
    obtain ⟨hlow, hhigh⟩ := h
    exact BitVec.toInt_ofInt_eq_self hn hlow hhigh
  | false =>
    obtain ⟨hlow, hhigh⟩ := h
    have hmod : r % ((2 ^ n : Nat) : Int) = r := Int.emod_eq_of_lt hlow (mod_cast hhigh)
    calc ((BitVec.ofInt n r).toNat : Int) = ((r % ((2 ^ n : Nat) : Int)).toNat : Int) := by rw [BitVec.toNat_ofInt]
      _ = r := by rw [hmod, Int.toNat_of_nonneg hlow]

end

theorem rawFits_iff {m : MapperParams} {w : Width} {r : Int} :
    rawFits m w r = true ↔ IntFits m.signed (16 * widthRegs w) r := by
  unfold rawFits IntFits
  cases m.signed <;> simp

/-! ### Registers and their raw integer -/

/-- The two registers of a 32-bit value, by the open word order (R265). -/
def splitWords (o : WordOrder) (v : BitVec 32) : List U16 :=
  match o with
  | .highFirst => [v.extractLsb' 16 16, v.extractLsb' 0 16]
  | .lowFirst => [v.extractLsb' 0 16, v.extractLsb' 16 16]

theorem splitWords_joinWords (o : WordOrder) (a b : U16) : splitWords o (joinWords o a b) = [a, b] := by
  cases o <;> simp only [splitWords, joinWords, BitVec.extractLsb'_append_eq_left, BitVec.extractLsb'_append_eq_right]

theorem joinWords_splitWords (o : WordOrder) (v : BitVec 32) :
    joinWords o ((splitWords o v).getD 0 0#16) ((splitWords o v).getD 1 0#16) = v := by
  have hjoin : v.extractLsb' 16 16 ++ v.extractLsb' 0 16 = v :=
    (BitVec.extractLsb'_append_extractLsb'_eq_extractLsb' rfl).trans BitVec.extractLsb'_eq_self
  cases o <;> exact hjoin

theorem rawInt_one (m : MapperParams) (a : U16) : rawInt m .one [a] = wordInt m.signed a := rfl

theorem rawInt_two (m : MapperParams) (a b : U16) : rawInt m .two [a, b] = wordInt m.signed (joinWords m.order a b) := rfl

theorem rawWords_two (m : MapperParams) (r : Int) : rawWords m .two r = splitWords m.order (BitVec.ofInt 32 r) := rfl

theorem rawWords_length (m : MapperParams) (w : Width) (r : Int) : (rawWords m w r).length = widthRegs w := by
  cases w with
  | one => rfl
  | two =>
    rw [rawWords_two]
    cases m.order <;> rfl

theorem rawInt_rawWords {m : MapperParams} {w : Width} {r : Int} (h : rawFits m w r = true) :
    rawInt m w (rawWords m w r) = r := by
  rw [rawFits_iff] at h
  cases w with
  | one => exact wordInt_ofInt m.signed (by decide) h
  | two =>
    calc wordInt m.signed (joinWords m.order ((rawWords m .two r).getD 0 0#16) ((rawWords m .two r).getD 1 0#16))
        = wordInt m.signed (BitVec.ofInt 32 r) := by rw [rawWords_two, joinWords_splitWords]
      _ = r := wordInt_ofInt m.signed (by decide) h

theorem rawFits_rawInt (m : MapperParams) (w : Width) (vs : List U16) : rawFits m w (rawInt m w vs) = true := by
  rw [rawFits_iff]
  cases w <;> exact intFits_wordInt m.signed _

theorem rawWords_rawInt (m : MapperParams) {w : Width} {vs : List U16} (h : vs.length = widthRegs w) :
    rawWords m w (rawInt m w vs) = vs := by
  cases w with
  | one =>
    obtain ⟨a, rfl⟩ := List.length_eq_one_iff.mp h
    rw [rawInt_one, rawWords, ofInt_wordInt]
  | two =>
    obtain ⟨a, b, rfl⟩ := List.length_eq_two.mp h
    rw [rawInt_two, rawWords_two, ofInt_wordInt, splitWords_joinWords]

/-! ### The two scalings -/

/-- Settles O55: the raw integer of one register, and of two in either order, by its definition. -/
theorem toPhysicalMultipliesByScale : Obligations.ToPhysicalMultipliesByScale := by
  intro m e a b
  refine ⟨fun _ => rfl, fun hw => ?_, fun hw ho => ?_, fun hw ho => ?_, fun hf vs => ?_⟩
  · rw [exactPhysical, hw, rawInt_one, wordInt, apply_ite Int.cast]
  · rw [exactPhysical, hw, rawInt_two, ho, wordInt, apply_ite Int.cast]
    rfl
  · rw [exactPhysical, hw, rawInt_two, ho, wordInt, apply_ite Int.cast]
    rfl
  · rw [toPhysical, hf]
    rfl

/-- Whatever the tie rule, rounding gives the integer below unless the fraction is under a half, and the one above unless it
is over (R263). -/
theorem roundNearest_cases (t : TieRule) (q : Rat) :
    (roundNearest t q = q.floor ∧ q - q.floor ≤ 1 / 2) ∨ (roundNearest t q = q.floor + 1 ∧ 1 / 2 ≤ q - q.floor) := by
  unfold roundNearest
  dsimp only
  split
  · next hlow => exact .inl ⟨rfl, hlow.le⟩
  · next hlow =>
    split
    · next hhigh => exact .inr ⟨rfl, hhigh.le⟩
    · next hhigh =>
      have htie : q - q.floor = 1 / 2 := le_antisymm (not_lt.mp hhigh) (not_lt.mp hlow)
      refine Or.imp (⟨·, htie.le⟩) (⟨·, htie.ge⟩) ?_
      cases t with
      | awayFromZero => exact (ite_eq_or_eq ..).symm
      | towardZero | toEven => exact ite_eq_or_eq ..
      | up => exact .inr rfl
      | down => exact .inl rfl

theorem abs_roundNearest_sub_le (t : TieRule) (q : Rat) : |(roundNearest t q : Rat) - q| ≤ 1 / 2 := by
  have hfloor : (q.floor : Rat) ≤ q := Rat.floor_le q
  have hnext : q < q.floor + 1 := mod_cast Rat.lt_floor_add_one q
  rw [abs_le]
  obtain ⟨hr, hd⟩ | ⟨hr, hd⟩ := roundNearest_cases t q <;> rw [hr]
  · constructor <;> linarith
  · rw [Int.cast_add, Int.cast_one]
    constructor <;> linarith

theorem roundNearest_intCast (t : TieRule) (r : Int) : roundNearest t (r : Rat) = r := by
  obtain ⟨hr, -⟩ | ⟨-, hd⟩ := roundNearest_cases t (r : Rat)
  · rw [hr, Rat.floor_intCast]
  · rw [Rat.floor_intCast, sub_self] at hd
    norm_num at hd

theorem rawOf_of_scale_ne_zero (m : MapperParams) {e : MapEntry} (phys : Rat) (h : e.scale ≠ 0) :
    rawOf m e phys = roundNearest m.ties (phys / e.scale) :=
  if_neg h

theorem toRaw_eq_ok {m : MapperParams} {e : MapEntry} {phys : Rat} {vs : List U16} :
    toRaw m e phys = .ok vs ↔ rawFits m e.width (rawOf m e phys) = true ∧ rawWords m e.width (rawOf m e phys) = vs := by
  unfold toRaw
  split <;> simp [*]

theorem toRaw_eq_error {m : MapperParams} {e : MapEntry} {phys : Rat} {err : DomainError} :
    toRaw m e phys = .error err ↔ rawFits m e.width (rawOf m e phys) = false ∧ err = .outOfRange := by
  unfold toRaw
  split <;> simp [*, eq_comm]

/-- Settles O56: an error of half a unit in the raw integer is one of half a step in the physical value; and registers whose
raw integer were the rounded one would make it fit. -/
theorem toRawRoundsToNearest : Obligations.ToRawRoundsToNearest := by
  intro m e phys hscale
  have hraw := rawOf_of_scale_ne_zero m phys hscale
  have hnear : |(rawOf m e phys : Rat) - phys / e.scale| ≤ 1 / 2 := by
    rw [hraw]
    exact abs_roundNearest_sub_le _ _
  refine ⟨fun vs hvs => ?_, fun err herr => ?_⟩
  · obtain ⟨hfits, rfl⟩ := toRaw_eq_ok.mp hvs
    rw [exactPhysical, rawInt_rawWords hfits]
    refine ⟨rawWords_length .., hnear, ?_⟩
    calc |(rawOf m e phys : Rat) * e.scale - phys|
        = |(rawOf m e phys : Rat) - phys / e.scale| * |e.scale| := by
          rw [← abs_mul, sub_mul, div_mul_cancel₀ phys hscale]
      _ ≤ 1 / 2 * |e.scale| := mul_le_mul_of_nonneg_right hnear (abs_nonneg _)
      _ = |e.scale| / 2 := one_div_mul_eq_div 2 |e.scale|
  · obtain ⟨hfits, rfl⟩ := toRaw_eq_error.mp herr
    refine ⟨rfl, rawOf m e phys, hnear, fun vs _ hvs => ?_⟩
    rw [← hvs, rawFits_rawInt] at hfits
    cases hfits

/-- Settles O57: the scaled value divided by the scale is the raw integer itself. -/
theorem toRawInvertsToPhysical : Obligations.ToRawInvertsToPhysical := by
  intro m e vs hscale hlen
  have hraw : rawOf m e (exactPhysical m e vs) = rawInt m e.width vs := by
    rw [rawOf_of_scale_ne_zero m _ hscale, exactPhysical, mul_div_cancel_right₀ _ hscale, roundNearest_intCast]
  rw [toRaw_eq_ok, hraw]
  exact ⟨rawFits_rawInt m e.width vs, rawWords_rawInt m hlen⟩

/-! ### The lookup of a name -/

theorem resolve_eq_ok {v : Variant} {name : String} {h : HostSide} {e : MapEntry} :
    resolve v name h = .ok e ↔ (variantTable v h).find? (fun e => e.name == name) = some e := by
  unfold resolve
  split <;> simp [*]

theorem exists_resolve_of_mem {v : Variant} {name : String} {h : HostSide} {e : MapEntry} (he : e ∈ variantTable v h)
    (hname : e.name = name) : ∃ e', resolve v name h = .ok e' := by
  have hsome : ((variantTable v h).find? fun e => e.name == name).isSome = true :=
    List.find?_isSome.mpr ⟨e, he, by simpa using hname⟩
  obtain ⟨e', he'⟩ := Option.isSome_iff_exists.mp hsome
  exact ⟨e', resolve_eq_ok.mpr he'⟩

theorem name_mem_of_resolve {v : Variant} {name : String} {h : HostSide} {e : MapEntry}
    (he : resolve v name h = .ok e) : e.name = name ∧ e ∈ variantTable v h := by
  rw [resolve_eq_ok] at he
  have hname := List.find?_some he
  exact ⟨by simpa using hname, List.mem_of_find?_eq_some he⟩

theorem resolve_eq_unknown {v : Variant} {name : String} {h : HostSide} :
    resolve v name h = .error .unknownRegister ↔ ∀ e ∈ variantTable v h, e.name ≠ name := by
  have hfind : resolve v name h = .error .unknownRegister ↔
      (variantTable v h).find? (fun e => e.name == name) = none := by
    unfold resolve
    split <;> simp [*]
  rw [hfind, List.find?_eq_none]
  simp only [beq_iff_eq, ne_eq]

/-- A name that the table does not hold ends a read or a write where it starts (R262). -/
theorem runOp_of_unknown {op : DomainOp} {v : Variant} {name : String} {s : State} (abandonAt : Option Nat)
    (hop : op = .read v name ∨ ∃ phys, op = .write v name phys)
    (h : resolve v name s.host = .error .unknownRegister) :
    runOp op abandonAt s = .next (clearRetry s, .error .unknownRegister) := by
  obtain rfl | ⟨phys, rfl⟩ := hop
  · rw [runOp, masterRead, clearRetry_host, h]
  · rw [runOp, masterWrite, clearRetry_host, h]

/-- Settles O60. -/
theorem unknownRegisterSendsNothing : Obligations.UnknownRegisterSendsNothing := by
  intro op abandonAt s v name table htable
  obtain rfl : table = variantTable v s.host := htable
  refine ⟨fun ⟨e, he, hname⟩ => ?_, fun e he => ?_, fun hnone => ?_⟩
  · exact exists_resolve_of_mem he hname
  · exact name_mem_of_resolve he
  · have hunknown := resolve_eq_unknown.mpr hnone
    exact ⟨hunknown, fun hop => runOp_of_unknown abandonAt hop hunknown⟩

/-! ### An attempt -/

theorem decodeBytes_res (bs : Bytes) (nExp : Option Nat) (s : State) :
    (decodeBytes bs nExp s).res = decResult (decodeFrame bs nExp) := by
  rw [decodeBytes_eq]
  split <;> rfl

theorem decResult_eq_frameError {r : Except FrameError Response} {e : FrameError} (h : decResult r = .frameError e) :
    r = .error e := by
  cases r with
  | ok => cases h
  | error => cases h; rfl

/-- An attempt that leaves a protocol exception in `res` has been rejected with its code (R255). -/
theorem attemptOnce_rejected {nExp : Option Nat} {s t : State} {fin : AttemptEnd} {addr fc code : Byte}
    (h : attemptOnce nExp s = .next (t, fin)) (hres : t.res = .frameError (.protocolException addr fc code)) :
    fin = .rejected code := by
  obtain ⟨s1, -, ⟨e, he, rfl, -⟩ | ⟨bs, -, -, rfl, rfl⟩⟩ := attemptOnce_next h
  · cases he.symm.trans hres
  · rw [decodeBytes_res] at hres
    rw [decResult_eq_frameError hres]
    rfl

/-- Settles O59. -/
theorem protocolExceptionIsNotRetried : Obligations.ProtocolExceptionIsNotRetried := by
  intro nExp abandonAt left last s t fin addr fc code hgo h hres
  cases attemptOnce_rejected h hres
  rw [attemptLoop, hgo, h]
  rfl

/-! ### The attempt loop

What attempts leave is compared in the count, in `txbuf` with its length, and in the bytes of the transmit stream. The
decoder and the wait between two attempts touch none of them. -/

@[simp] theorem map_byte_sendFrom (t tChar : Nat) (bs : Bytes) : (sendFrom t tChar bs).map TimedByte.byte = bs := by
  induction bs generalizing t with
  | nil => rfl
  | cons b bs ih => rw [sendFrom, List.map_cons, ih]

theorem exchange_tx_bytes (x : Exchange) {s : State} (hf : s.fsm = .idle) :
    (exchange x s).tx.map TimedByte.byte = s.tx.map TimedByte.byte ++ x.frame := by
  obtain ⟨h, w, c, st⟩ := exists_stages x hf
  rw [st.returns, tick_endWait]
  dsimp only
  rw [st.tx_eq, List.map_append, map_byte_sendFrom]

/-- `k` exchanges of the frame in `txbuf` lie between two states: each is counted and sends the whole frame, and without a
frame there is none (R253, R256). -/
structure Exchanged (k : Nat) (s t : State) : Prop where
  count : t.retry = s.retry + k
  txbuf : t.txbuf = s.txbuf
  txlen : t.txlen = s.txlen
  sent : ∀ frame, operandBytes .txbuf s = some frame →
    t.tx.map TimedByte.byte = s.tx.map TimedByte.byte ++ (List.replicate k frame).flatten
  silent : s.txlen = 0 ∨ operandBytes .txbuf s = none → k = 0 ∧ t.tx = s.tx

section
variable {s t u : State}

theorem Exchanged.none (hretry : t.retry = s.retry) (htxbuf : t.txbuf = s.txbuf) (htxlen : t.txlen = s.txlen)
    (htx : t.tx = s.tx) : Exchanged 0 s t where
  count := hretry
  txbuf := htxbuf
  txlen := htxlen
  sent _ _ := by rw [htx]; exact (List.append_nil _).symm
  silent _ := ⟨rfl, htx⟩

theorem Exchanged.operandBytes_eq {k : Nat} (h : Exchanged k s t) : operandBytes .txbuf t = operandBytes .txbuf s := by
  rw [operandBytes, operandBytes, h.txbuf, h.txlen]

theorem Exchanged.trans {j k : Nat} (hj : Exchanged j s t) (hk : Exchanged k t u) : Exchanged (j + k) s u where
  count := by rw [hk.count, hj.count, Nat.add_assoc]
  txbuf := hk.txbuf.trans hj.txbuf
  txlen := hk.txlen.trans hj.txlen
  sent frame hframe := by
    rw [hk.sent frame (hj.operandBytes_eq.trans hframe), hj.sent frame hframe, List.replicate_add, List.flatten_append,
      List.append_assoc]
  silent hnone := by
    obtain ⟨rfl, htj⟩ := hj.silent hnone
    obtain ⟨rfl, htk⟩ := hk.silent (by rwa [hj.txlen, hj.operandBytes_eq])
    exact ⟨rfl, htk.trans htj⟩

theorem exchanged_waitBackoff (s : State) : Exchanged 0 s (waitBackoff s) := by
  rw [waitBackoff_frame]
  exact .none rfl rfl rfl rfl

theorem exchanged_decodeBytes (bs : Bytes) (nExp : Option Nat) (s : State) : Exchanged 0 s (decodeBytes bs nExp s) := by
  rw [decodeBytes_eq]
  split <;> exact .none rfl rfl rfl rfl

/-- The exchange of an attempt, counted. -/
theorem exchanged_countAttempt (h : execSesXchg .txbuf .cfgTimeout s = .next t) : Exchanged 1 s (countAttempt t) := by
  obtain ⟨bs, -, -, hf, hbs, hmin, -, rfl⟩ := exec_sesXchg_eq_next (frame := .txbuf) (timeout := .cfgTimeout) h
  constructor
  case count => rw [countAttempt_retry, exchange_retry]
  case txbuf => exact exchange_txbuf _ s
  case txlen => exact exchange_txlen _ s
  case sent =>
    intro frame hframe
    cases hframe.symm.trans hbs
    rw [countAttempt_tx, exchange_tx_bytes _ hf]
    simp [exchangeOf]
  case silent =>
    rintro (h0 | hnone)
    · cases (operandBytes_txbuf_empty h0).symm.trans hbs
      cases hmin
    · cases hnone.symm.trans hbs

/-- An attempt that answers has made one exchange (R253, R266). -/
theorem exchanged_attemptOnce {nExp : Option Nat} {fin : AttemptEnd} (h : attemptOnce nExp s = .next (t, fin)) :
    Exchanged 1 s t := by
  obtain ⟨s1, hx, ⟨e, -, rfl, -⟩ | ⟨bs, -, -, rfl, -⟩⟩ := attemptOnce_next h
  · exact exchanged_countAttempt hx
  · exact (exchanged_countAttempt hx).trans (exchanged_decodeBytes bs nExp _)

end

theorem decodedEnd_eq_final {retryMalformed : Bool} {r : Except FrameError Response} {e : DomainError}
    (h : .final e = decodedEnd retryMalformed r) : e = .malformedFrame := by
  cases r with
  | ok => cases h
  | error err =>
    cases err with
    | checksumMismatch | protocolException => cases h
    | malformedFrame =>
      cases retryMalformed with
      | true => cases h
      | false => cases h; rfl

/-- An attempt that is over by an error of its own, no rejection, is so by a malformed frame (R254). -/
theorem attemptOnce_final {nExp : Option Nat} {s t : State} {e : DomainError}
    (h : attemptOnce nExp s = .next (t, .final e)) : e = .malformedFrame := by
  obtain ⟨s1, -, ⟨err, -, -, hfin⟩ | ⟨bs, -, -, -, hfin⟩⟩ := attemptOnce_next h
  · cases err <;> cases hfin
  · exact decodedEnd_eq_final hfin

/-- How the loop with at least one attempt left goes on: given up, over after this attempt, or after a retryable error and a
wait at most with one attempt less. -/
theorem attemptLoop_succ_next {nExp abandonAt : Option Nat} {n : Nat} {last : Option AttemptError} {s t : State}
    {fin : LoopEnd} (h : attemptLoop nExp abandonAt (n + 1) last s = .next (t, fin)) :
    (t = s ∧ fin = .givenUp) ∨
    (Exchanged 1 s t ∧ ∀ c l, fin ≠ .failed (.communicationFailure c l)) ∨
    ∃ e u, Exchanged 1 s u ∧ attemptLoop nExp abandonAt n (some e) u = .next (t, fin) := by
  rw [attemptLoop] at h
  split at h
  · cases h
    exact .inl ⟨rfl, rfl⟩
  · obtain ⟨⟨s1, fin1⟩, ha, h⟩ := andThen_eq_next h
    have h1 : Exchanged 1 s s1 := exchanged_attemptOnce ha
    cases fin1 with
    | got | rejected =>
      cases h
      exact .inr (.inl ⟨h1, nofun⟩)
    | final e =>
      cases h
      cases attemptOnce_final ha
      exact .inr (.inl ⟨h1, nofun⟩)
    | retryable e =>
      refine .inr (.inr ⟨e, _, ?_, h⟩)
      split
      · exact h1
      · exact h1.trans (exchanged_waitBackoff s1)

/-- The loop makes at most the exchanges it is given, and all of them where it ends in `CommunicationFailure`, which carries
the count and, after an attempt, an error (R253, R256). -/
theorem attemptLoop_next {nExp abandonAt : Option Nat} {n : Nat} {last : Option AttemptError} {s t : State}
    {fin : LoopEnd} (h : attemptLoop nExp abandonAt n last s = .next (t, fin)) :
    ∃ k ≤ n, Exchanged k s t ∧ ∀ c l, fin = .failed (.communicationFailure c l) →
      k = n ∧ c = t.retry ∧ (last ≠ none ∨ 0 < n → l ≠ none) := by
  induction n generalizing last s with
  | zero =>
    cases h
    refine ⟨0, Nat.le_refl 0, .none rfl rfl rfl rfl, fun c l hfin => ?_⟩
    cases hfin
    exact ⟨rfl, rfl, fun hlast => hlast.resolve_right (Nat.lt_irrefl 0)⟩
  | succ n ih =>
    obtain ⟨rfl, rfl⟩ | ⟨h1, hfin⟩ | ⟨e, u, h1, h⟩ := attemptLoop_succ_next h
    · exact ⟨0, Nat.zero_le _, .none rfl rfl rfl rfl, nofun⟩
    · exact ⟨1, Nat.le_add_left 1 n, h1, fun c l h => absurd h (hfin c l)⟩
    · obtain ⟨k, hk, hrest, hfail⟩ := ih h
      refine ⟨1 + k, by omega, h1.trans hrest, fun c l hfin => ?_⟩
      obtain ⟨rfl, hc, hlast⟩ := hfail c l hfin
      exact ⟨Nat.add_comm 1 k, hc, fun _ => hlast (.inl nofun)⟩

/-- Settles O58: the loop starts from the count 0, with at least one attempt to make. -/
theorem attemptsAreBounded : Obligations.AttemptsAreBounded := by
  intro nExp abandonAt s t fin h
  obtain ⟨k, hk, hex, hfail⟩ := attemptLoop_next h
  obtain rfl : t.retry = k := hex.count.trans (Nat.zero_add k)
  refine ⟨hk, hex.sent, hex.silent, fun n last hfin => ?_⟩
  obtain ⟨hall, rfl, hlast⟩ := hfail n last hfin
  exact ⟨hall, rfl, hlast (.inr s.host.maxAttempts.pos)⟩

end Sys2Proof.Proofs
end

section
/-! SUPPORT. The state after power-on reset (rule R321): nothing is waiting anywhere, so a step leaves it as it is. -/

namespace Sys2Proof.Proofs

open Sys2Proof.Machine

/-- A step with no command on the port, no queued domain operation and no byte on the line changes nothing (R321). -/
theorem step_of_nothing_waiting {s : State} (hport : s.port = []) (hreq : s.host.requests = [])
    (hline : s.line = []) : step s = .next s := by
  simp only [step, hport, runIdle, hreq, hline]

/-- Settles O43: the fields are those of `State.reset`, in which no caller and no byte waits. -/
theorem resetLeavesTheBlockIdle : Obligations.ResetLeavesTheBlockIdle :=
  ⟨rfl, rfl, rfl, rfl, rfl, rfl, rfl, rfl, rfl, rfl, rfl, rfl, rfl, step_of_nothing_waiting rfl rfl rfl⟩

end Sys2Proof.Proofs
end
